-- ==== Sys2Proof/Word.lean ====
section
/-! DEFINITION. The words of the model: 32-bit words, bytes and halfwords, the byte order parameter and the two output
formats of the instruction encoder. -/

namespace Sys2Proof

/-- `XLEN` = 32: an emitted word, a cache value, an encoder operand (`OPW`) or an address (`ALEN`). R5, R6, R62. -/
abbrev Word := BitVec 32

/-- A Thumb halfword. R63, R66. -/
abbrev Half := BitVec 16

/-- A byte of target memory. R40. -/
abbrev Byte := BitVec 8

/-- `TARGET_ENDIAN`: the order of the four bytes of a word placed in target memory. R5, R43. -/
inductive Endian where
  | little
  | big
deriving DecidableEq, Repr, Inhabited

/-- The two output formats of unit U1: one 32-bit ARM word, or a 16-bit Thumb instruction in both halves of a word. R60. -/
inductive Format where
  | a32
  | t16x2
deriving DecidableEq, Repr, Inhabited

end Sys2Proof
end

