-- ==== Sys2Proof/Syntax.lean ====
section
/-! DEFINITION. The instructions: one constructor per row of spec/opcode_table.json, the 32 encoder templates of R68. Every
operand is a 32-bit unsigned value (R62), in the order the template's rule lists its operands. -/

namespace Sys2Proof

/-- One call of a template of the instruction encoder, with its operands. R61, R62, R68. -/
inductive Instr where
  /-- R90, no-op. -/
  | armNop
  /-- R80, move register. -/
  | armMov (rd rm : Word)
  /-- R81, load multiple, increment after. -/
  | armLdmia (rn list s w : Word)
  /-- R82, store multiple, increment after. -/
  | armStmia (rn list s w : Word)
  /-- R83, load word, zero offset. -/
  | armLdr (rd rn : Word)
  /-- R84, store word, zero offset. -/
  | armStr (rd rn : Word)
  /-- R85, software breakpoint. -/
  | armBkpt (im : Word)
  /-- R91, move immediate. -/
  | armMovIm (rd rotate im : Word)
  /-- R92, branch, branch and link. -/
  | armB (im l : Word)
  /-- R93, branch and exchange. -/
  | armBx (rm : Word)
  /-- R94, move status register to register. -/
  | armMrs (rd r : Word)
  /-- R95, move register to status register. -/
  | armMsrGp (rm field r : Word)
  /-- R96, move immediate to status register. -/
  | armMsrIm (im rotate field r : Word)
  /-- R97, move coprocessor register to register. -/
  | armMrc (cp op1 rd crn crm op2 : Word)
  /-- R98, move register to coprocessor register. -/
  | armMcr (cp op1 rd crn crm op2 : Word)
  /-- R99, load word, post-increment by 4. -/
  | armLdrwIp (rd rn : Word)
  /-- R100, load halfword, post-increment by 2. -/
  | armLdrhIp (rd rn : Word)
  /-- R101, load byte, post-increment by 1. -/
  | armLdrbIp (rd rn : Word)
  /-- R102, store word, post-increment by 4. -/
  | armStrwIp (rd rn : Word)
  /-- R103, store halfword, post-increment by 2. -/
  | armStrhIp (rd rn : Word)
  /-- R104, store byte, post-increment by 1. -/
  | armStrbIp (rd rn : Word)
  /-- R117, Thumb no-op. -/
  | tNop
  /-- R110, Thumb move register, high-register form. -/
  | tMov (rd rm h1 h2 : Word)
  /-- R111, Thumb move immediate. -/
  | tMovIm (rd im : Word)
  /-- R112, Thumb load multiple, increment after. -/
  | tLdmia (rn list : Word)
  /-- R113, Thumb store multiple, increment after. -/
  | tStmia (rn list : Word)
  /-- R114, Thumb load word, zero offset. -/
  | tLdr (rd rn : Word)
  /-- R115, Thumb store word, zero offset. -/
  | tStr (rd rn : Word)
  /-- R116, Thumb load word, PC-relative, zero offset. -/
  | tLdrPcrel (rd : Word)
  /-- R118, Thumb branch and exchange. -/
  | tBx (rm : Word)
  /-- R119, Thumb unconditional branch. -/
  | tB (imm : Word)
  /-- R120, Thumb software breakpoint. -/
  | tBkpt (im : Word)
deriving DecidableEq, Repr, Inhabited

/-- The format of the word a template returns: the two columns of the table of R68. -/
def Instr.format : Instr → Format
  | .armNop => .a32
  | .armMov _ _ => .a32
  | .armLdmia _ _ _ _ => .a32
  | .armStmia _ _ _ _ => .a32
  | .armLdr _ _ => .a32
  | .armStr _ _ => .a32
  | .armBkpt _ => .a32
  | .armMovIm _ _ _ => .a32
  | .armB _ _ => .a32
  | .armBx _ => .a32
  | .armMrs _ _ => .a32
  | .armMsrGp _ _ _ => .a32
  | .armMsrIm _ _ _ _ => .a32
  | .armMrc _ _ _ _ _ _ => .a32
  | .armMcr _ _ _ _ _ _ => .a32
  | .armLdrwIp _ _ => .a32
  | .armLdrhIp _ _ => .a32
  | .armLdrbIp _ _ => .a32
  | .armStrwIp _ _ => .a32
  | .armStrhIp _ _ => .a32
  | .armStrbIp _ _ => .a32
  | .tNop => .t16x2
  | .tMov _ _ _ _ => .t16x2
  | .tMovIm _ _ => .t16x2
  | .tLdmia _ _ => .t16x2
  | .tStmia _ _ => .t16x2
  | .tLdr _ _ => .t16x2
  | .tStr _ _ => .t16x2
  | .tLdrPcrel _ => .t16x2
  | .tBx _ => .t16x2
  | .tB _ => .t16x2
  | .tBkpt _ => .t16x2

end Sys2Proof
end

