-- ==== Sys2Proof/WellFormed.lean ====
section
/-! DEFINITION. Operand legality. R73 gives the ranges inside which a template emits the instruction its rule names; a
template rule may name combinations that are unpredictable or special on the target (R69 class (b)). Neither is a check the block makes (R61, R240): the meanings accept every
operand. -/

namespace Sys2Proof

/-- `v` is below `2 ^ bits`: the operand fits its field. -/
def fits (v : Word) (bits : Nat) : Bool := decide (v.toNat < 2 ^ bits)

/-- All operands are inside the ranges of R73: the emitted word is not malformed (R69). -/
def Instr.inRange : Instr → Bool
  | .armNop => true
  | .armMov rd rm => fits rd 4 && fits rm 4
  | .armLdmia rn list s w => fits rn 4 && fits list 16 && fits s 1 && fits w 1
  | .armStmia rn list s w => fits rn 4 && fits list 16 && fits s 1 && fits w 1
  | .armLdr rd rn => fits rd 4 && fits rn 4
  | .armStr rd rn => fits rd 4 && fits rn 4
  | .armBkpt im => fits im 16
  | .armMovIm rd rotate im => fits rd 4 && fits rotate 4 && fits im 8
  | .armB im l => fits im 24 && fits l 1
  | .armBx rm => fits rm 4
  | .armMrs rd r => fits rd 4 && fits r 1
  | .armMsrGp rm field r => fits rm 4 && fits field 4 && fits r 1
  | .armMsrIm im rotate field r => fits im 8 && fits rotate 4 && fits field 4 && fits r 1
  | .armMrc cp op1 rd crn crm op2 =>
    fits cp 4 && fits op1 3 && fits rd 4 && fits crn 4 && fits crm 4 && fits op2 3
  | .armMcr cp op1 rd crn crm op2 =>
    fits cp 4 && fits op1 3 && fits rd 4 && fits crn 4 && fits crm 4 && fits op2 3
  | .armLdrwIp rd rn => fits rd 4 && fits rn 4
  | .armLdrhIp rd rn => fits rd 4 && fits rn 4
  | .armLdrbIp rd rn => fits rd 4 && fits rn 4
  | .armStrwIp rd rn => fits rd 4 && fits rn 4
  | .armStrhIp rd rn => fits rd 4 && fits rn 4
  | .armStrbIp rd rn => fits rd 4 && fits rn 4
  | .tNop => true
  | .tMov rd rm h1 h2 => fits rd 3 && fits rm 3 && fits h1 1 && fits h2 1
  | .tMovIm rd im => fits rd 3 && fits im 8
  | .tLdmia rn list => fits rn 3 && fits list 8
  | .tStmia rn list => fits rn 3 && fits list 8
  | .tLdr rd rn => fits rd 3 && fits rn 3
  | .tStr rd rn => fits rd 3 && fits rn 3
  | .tLdrPcrel rd => fits rd 3
  | .tBx rm => fits rm 4
  | .tB imm => fits imm 11
  | .tBkpt im => fits im 8

/-- Bit `r` of the register list `list` is set: register `r` is listed. R67. -/
def lists (list r : Word) : Bool := list.getLsbD r.toNat

/-- R69 class (b), first half: operand combinations that fit their fields and that the template's own rule calls
unpredictable on the target, or excludes from its legal operands, whatever the target's mode (R81, R82, R93 to R95, R98 to
R104, R110, R112, R113). The spec marks these notes as general knowledge and no rule depends on them; no meaning reads this
function. Log 21. -/
def Instr.unpredictable : Instr → Bool
  | .armLdmia rn list s w =>
    decide (list = 0) || decide (rn = 15) || (decide (w = 1) && lists list rn) ||
      (decide (s = 1) && decide (w = 1) && !lists list 15)
  | .armStmia _ list s w => decide (list = 0) || (decide (s = 1) && decide (w = 1))
  | .armBx rm => decide (rm = 15)
  | .armMrs rd _ => decide (rd = 15)
  | .armMsrGp rm _ _ => decide (rm = 15)
  | .armMcr _ _ rd _ _ _ => decide (rd = 15)
  | .armLdrwIp rd rn => decide (rn = 15) || decide (rn = rd)
  | .armLdrhIp rd rn => decide (rn = 15) || decide (rn = rd) || decide (rd = 15)
  | .armLdrbIp rd rn => decide (rn = 15) || decide (rn = rd) || decide (rd = 15)
  | .armStrwIp rd rn => decide (rn = 15) || decide (rn = rd)
  | .armStrhIp rd rn => decide (rn = 15) || decide (rn = rd) || decide (rd = 15)
  | .armStrbIp rd rn => decide (rn = 15) || decide (rn = rd) || decide (rd = 15)
  | .tMov _ _ h1 h2 => decide (h1 = 0 ∧ h2 = 0)
  | .tLdmia _ list => decide (list = 0)
  | .tStmia _ list => decide (list = 0)
  | .armNop => false
  | .armMov _ _ => false
  | .armLdr _ _ => false
  | .armStr _ _ => false
  | .armBkpt _ => false
  | .armMovIm _ _ _ => false
  | .armB _ _ => false
  | .armMsrIm _ _ _ _ => false
  | .armMrc _ _ _ _ _ _ => false
  | .tNop => false
  | .tMovIm _ _ => false
  | .tLdr _ _ => false
  | .tStr _ _ => false
  | .tLdrPcrel _ => false
  | .tBx _ => false
  | .tB _ => false
  | .tBkpt _ => false

/-- R69 class (b), second half: operand combinations that fit their fields and for which the notes of the template's own rule
say that the instruction "behaves specially" on the target: the base register in the list with write-back (R82, R112, R113;
R81 calls it unpredictable), the `^` forms (R81, R82), r15 as an operand (R80 to R84, R91, R97, R110, R118), and the field mask
that writes nothing (R95, R96). DEDUCED which notes count: log 21. No meaning reads this function. -/
def Instr.behavesSpecially : Instr → Bool
  | .armMov rd rm => decide (rd = 15) || decide (rm = 15)
  | .armLdmia _ list s _ => decide (s = 1) || lists list 15
  | .armStmia rn list s w => decide (s = 1) || lists list 15 || (decide (w = 1) && lists list rn)
  | .armLdr rd rn => decide (rd = 15) || decide (rn = 15)
  | .armStr rd _ => decide (rd = 15)
  | .armMovIm rd _ _ => decide (rd = 15)
  | .armMsrGp _ field _ => decide (field = 0)
  | .armMsrIm _ _ field _ => decide (field = 0)
  | .armMrc _ _ rd _ _ _ => decide (rd = 15)
  | .tMov rd _ h1 _ => decide (h1 = 1 ∧ rd = 7)
  | .tLdmia rn list => lists list rn
  | .tStmia rn list => lists list rn
  | .tBx rm => decide (rm = 15)
  | .armNop => false
  | .armBkpt _ => false
  | .armB _ _ => false
  | .armBx _ => false
  | .armMrs _ _ => false
  | .armMcr _ _ _ _ _ _ => false
  | .armLdrwIp _ _ => false
  | .armLdrhIp _ _ => false
  | .armLdrbIp _ _ => false
  | .armStrwIp _ _ => false
  | .armStrhIp _ _ => false
  | .armStrbIp _ _ => false
  | .tNop => false
  | .tMovIm _ _ => false
  | .tLdr _ _ => false
  | .tStr _ _ => false
  | .tLdrPcrel _ => false
  | .tB _ => false
  | .tBkpt _ => false

/-- The three classes of emitted word that R69 names. -/
inductive OperandClass where
  /-- (a) every operand inside its range, and no combination the template's rule names under (b). -/
  | legal
  /-- (b) every operand inside its range, but the instruction is unpredictable on the target or behaves specially there. -/
  | unpredictableOrSpecial
  /-- (c) an operand outside its range. -/
  | malformed
deriving DecidableEq, Repr

/-- The class of a template call's word. R69, R73. -/
def Instr.operandClass (i : Instr) : OperandClass :=
  if i.inRange then (if i.unpredictable || i.behavesSpecially then .unpredictableOrSpecial else .legal) else .malformed

/-- R71: the two no-op templates are the words of a move of r8 to itself; a decoder reads that word as the no-op. -/
def Instr.canonical : Instr → Instr
  | .armMov rd rm => if rd = 8 ∧ rm = 8 then .armNop else .armMov rd rm
  | .tMov rd rm h1 h2 => if rd = 0 ∧ rm = 0 ∧ h1 = 1 ∧ h2 = 1 then .tNop else .tMov rd rm h1 h2
  | i => i

end Sys2Proof
end

