-- ==== Sys2Proof/Decode.lean ====
section
/-! DEFINITION. Recognising an emitted word, and writing one from the field tables. The decoder follows the masks of
spec/opcode_table.json (R68: "the exact masks are in opcode_table.json"), the encoder the field tables of R65 and R66. The
block itself decodes nothing (R69); a word does not tell its format (R70), so the caller of the decoder names it. The third
reading of the encodings, the formulas of R80 to R120, stands in the meanings (Machine/ArmCore.lean, ArmOther.lean,
Thumb.lean). -/

namespace Sys2Proof

/-- The field `v[lo+len-1 : lo]` as a 32-bit operand. R6. -/
def field (w : Word) (lo len : Nat) : Word := (w.extractLsb' lo len).setWidth 32

/-- The field of a halfword as a 32-bit operand. R6, R66. -/
def halfField (h : Half) (lo len : Nat) : Word := (h.extractLsb' lo len).setWidth 32

/-- The low halfword `w[15:0]`. R63. -/
def lowHalf (w : Word) : Half := w.extractLsb' 0 16

/-- The high halfword `w[31:16]`. R63. -/
def highHalf (w : Word) : Half := w.extractLsb' 16 16

/-- A row of the table for format A32: a word `w` belongs to it when `w &&& mask = value`. -/
structure Row32 where
  mask : Word
  value : Word
  build : Word → Instr

/-- A row of the table for format T16x2, on the halfword. -/
structure Row16 where
  mask : Half
  value : Half
  build : Half → Instr

def Row32.hits (r : Row32) (w : Word) : Bool := decide (w &&& r.mask = r.value)

def Row16.hits (r : Row16) (h : Half) : Bool := decide (h &&& r.mask = r.value)

/-- The A32 rows that name registers, memory and the no-op, the no-op first (R71). -/
def rowsArmCore : List Row32 :=
  [ ⟨0xFFFFFFFF, 0xE1A08008, fun _ => .armNop⟩,
    ⟨0xFFFF0FF0, 0xE1A00000, fun w => .armMov (field w 12 4) (field w 0 4)⟩,
    ⟨0xFF900000, 0xE8900000, fun w => .armLdmia (field w 16 4) (field w 0 16) (field w 22 1) (field w 21 1)⟩,
    ⟨0xFF900000, 0xE8800000, fun w => .armStmia (field w 16 4) (field w 0 16) (field w 22 1) (field w 21 1)⟩,
    ⟨0xFFF00FFF, 0xE5900000, fun w => .armLdr (field w 12 4) (field w 16 4)⟩,
    ⟨0xFFF00FFF, 0xE5800000, fun w => .armStr (field w 12 4) (field w 16 4)⟩,
    ⟨0xFFF000F0, 0xE1200070, fun w => .armBkpt ((field w 8 12 <<< 4) ||| field w 0 4)⟩ ]

/-- The other A32 rows but the post-indexed forms. -/
def rowsArmOther : List Row32 :=
  [ ⟨0xFFFF0000, 0xE3A00000, fun w => .armMovIm (field w 12 4) (field w 8 4) (field w 0 8)⟩,
    ⟨0xFE000000, 0xEA000000, fun w => .armB (field w 0 24) (field w 24 1)⟩,
    ⟨0xFFFFFFF0, 0xE12FFF10, fun w => .armBx (field w 0 4)⟩,
    ⟨0xFFBF0FFF, 0xE10F0000, fun w => .armMrs (field w 12 4) (field w 22 1)⟩,
    ⟨0xFFB0FFF0, 0xE120F000, fun w => .armMsrGp (field w 0 4) (field w 16 4) (field w 22 1)⟩,
    ⟨0xFFB0F000, 0xE320F000, fun w => .armMsrIm (field w 0 8) (field w 8 4) (field w 16 4) (field w 22 1)⟩,
    ⟨0xFF100010, 0xEE100010, fun w => .armMrc (field w 8 4) (field w 21 3) (field w 12 4) (field w 16 4) (field w 0 4) (field w 5 3)⟩,
    ⟨0xFF100010, 0xEE000010, fun w => .armMcr (field w 8 4) (field w 21 3) (field w 12 4) (field w 16 4) (field w 0 4) (field w 5 3)⟩ ]

/-- The A32 rows of the post-indexed loads and stores. -/
def rowsArmPostIndexed : List Row32 :=
  [ ⟨0xFFF00FFF, 0xE4900004, fun w => .armLdrwIp (field w 12 4) (field w 16 4)⟩,
    ⟨0xFFF00FFF, 0xE0D000B2, fun w => .armLdrhIp (field w 12 4) (field w 16 4)⟩,
    ⟨0xFFF00FFF, 0xE4D00001, fun w => .armLdrbIp (field w 12 4) (field w 16 4)⟩,
    ⟨0xFFF00FFF, 0xE4800004, fun w => .armStrwIp (field w 12 4) (field w 16 4)⟩,
    ⟨0xFFF00FFF, 0xE0C000B2, fun w => .armStrhIp (field w 12 4) (field w 16 4)⟩,
    ⟨0xFFF00FFF, 0xE4C00001, fun w => .armStrbIp (field w 12 4) (field w 16 4)⟩ ]

/-- The A32 rows of spec/opcode_table.json, in its order. -/
def rows32 : List Row32 := rowsArmCore ++ rowsArmOther ++ rowsArmPostIndexed

/-- The T16x2 rows of spec/opcode_table.json, in its order: `halfword_mask` and `halfword_match`, the no-op first (R71). -/
def rows16 : List Row16 :=
  [ ⟨0xFFFF, 0x46C0, fun _ => .tNop⟩,
    ⟨0xFF00, 0x4600, fun h => .tMov (halfField h 0 3) (halfField h 3 3) (halfField h 7 1) (halfField h 6 1)⟩,
    ⟨0xF800, 0x2000, fun h => .tMovIm (halfField h 8 3) (halfField h 0 8)⟩,
    ⟨0xF800, 0xC800, fun h => .tLdmia (halfField h 8 3) (halfField h 0 8)⟩,
    ⟨0xF800, 0xC000, fun h => .tStmia (halfField h 8 3) (halfField h 0 8)⟩,
    ⟨0xFFC0, 0x6800, fun h => .tLdr (halfField h 0 3) (halfField h 3 3)⟩,
    ⟨0xFFC0, 0x6000, fun h => .tStr (halfField h 0 3) (halfField h 3 3)⟩,
    ⟨0xF8FF, 0x4800, fun h => .tLdrPcrel (halfField h 8 3)⟩,
    ⟨0xFF87, 0x4700, fun h => .tBx (halfField h 3 4)⟩,
    ⟨0xF800, 0xE000, fun h => .tB (halfField h 0 11)⟩,
    ⟨0xFF00, 0xBE00, fun h => .tBkpt (halfField h 0 8)⟩ ]

/-- Why bytes are no template's word. -/
inductive DecodeError where
  /-- fewer than four bytes are left. -/
  | truncated
  /-- no A32 row of the table has this word. -/
  | noA32Template
  /-- the two halfwords differ, so the word is no legal T16x2 word (R63). -/
  | halvesDiffer
  /-- no T16x2 row of the table has this halfword. -/
  | noT16x2Template
deriving DecidableEq, Repr

/-- The template call, operands in range, whose A32 word is `w`. R65, R71. -/
def decodeA32 (w : Word) : Except DecodeError Instr :=
  match rows32.find? (·.hits w) with
  | some r => .ok (r.build w)
  | none => .error .noA32Template

/-- The template call, operands in range, whose T16x2 halfword is `h`. R66, R71. -/
def decodeHalf (h : Half) : Except DecodeError Instr :=
  match rows16.find? (·.hits h) with
  | some r => .ok (r.build h)
  | none => .error .noT16x2Template

/-- The template call whose T16x2 word is `w`: both halves must be the instruction. R63, R66. -/
def decodeT16x2 (w : Word) : Except DecodeError Instr :=
  if highHalf w = lowHalf w then decodeHalf (lowHalf w) else .error .halvesDiffer

/-- The template call of the given format whose word is `w`. R60, R70. -/
def decodeWord (f : Format) (w : Word) : Except DecodeError Instr :=
  match f with
  | .a32 => decodeA32 w
  | .t16x2 => decodeT16x2 w

/-- R43: the four bytes of a word, lowest address first. -/
def wordBytes (e : Endian) (w : Word) : List Byte :=
  match e with
  | .little => [w.extractLsb' 0 8, w.extractLsb' 8 8, w.extractLsb' 16 8, w.extractLsb' 24 8]
  | .big => [w.extractLsb' 24 8, w.extractLsb' 16 8, w.extractLsb' 8 8, w.extractLsb' 0 8]

/-- The word whose four bytes, lowest address first, are these. R43 read backwards. -/
def wordOfBytes (e : Endian) (b0 b1 b2 b3 : Byte) : Word :=
  match e with
  | .little => b3 ++ b2 ++ b1 ++ b0
  | .big => b0 ++ b1 ++ b2 ++ b3

/-- R43, R170: the byte string of a list of instruction words, for a memory parameter. -/
def wordsToBytes (e : Endian) (ws : List Word) : List Byte := ws.flatMap (wordBytes e)

/-- Reads one word's bytes off a byte string: the template call and the rest, or why not. -/
def decodeBytes (e : Endian) (f : Format) : List Byte → Except DecodeError (Instr × List Byte)
  | b0 :: b1 :: b2 :: b3 :: rest =>
    match decodeWord f (wordOfBytes e b0 b1 b2 b3) with
    | .ok i => .ok (i, rest)
    | .error r => .error r
  | _ => .error .truncated

/-- The lay-out of a word given in the numbering of spec/opcode_table.json. An A32 word stands as it is. A T16x2 row names
its operand fields in the low halfword only and says that the high halfword repeats them at +16: a word that has a T16x2
row's fixed bits in both halves is laid out with its low halfword in both (log 11). -/
def tableImage (nbits w : Nat) : Format × Word :=
  let x : Word := BitVec.ofNat 32 (w % 2 ^ nbits)
  if rows32.any (·.hits x) then (.a32, x)
  else if rows16.any (fun r => r.hits (lowHalf x) && r.hits (highHalf x)) then
    (.t16x2, lowHalf x ++ lowHalf x)
  else (.a32, x)

/-- What the decoder reads from an instruction whose bits, in the table's numbering, are `w`. -/
def decodeTableWord (nbits w : Nat) : Option Instr :=
  let image := tableImage nbits w
  match decodeBytes .little image.1 (wordBytes .little image.2) with
  | .ok (i, _) => some i
  | .error _ => none

/-! The encoder: the field tables of R65 and R66, written field by field from bit 31 (or 15) down. An operand enters with
the width of its field, so the encoder is meant for operands in range; what a template emits for other operands is R61. -/

/-- Format `A_DPREG`. R65. -/
def encDpReg (rd rm : BitVec 4) : Word := 0b1110#4 ++ 0b00#2 ++ 0#1 ++ 0b1101#4 ++ 0#1 ++ 0b0000#4 ++ rd ++ 0b00000000#8 ++ rm

/-- Format `A_DPIMM`. R65. -/
def encDpImm (rd rotate : BitVec 4) (imm8 : BitVec 8) : Word :=
  0b1110#4 ++ 0b00#2 ++ 1#1 ++ 0b1101#4 ++ 0#1 ++ 0b0000#4 ++ rd ++ rotate ++ imm8

/-- Format `A_LSIMM`: load/store word or byte, immediate offset. R65. -/
def encLsImm (p u b w l : BitVec 1) (rn rd : BitVec 4) (imm12 : BitVec 12) : Word :=
  0b1110#4 ++ 0b01#2 ++ 0#1 ++ p ++ u ++ b ++ w ++ l ++ rn ++ rd ++ imm12

/-- Format `A_LSH`: load/store halfword, immediate offset. R65. -/
def encLsHalf (p u w l : BitVec 1) (rn rd immH : BitVec 4) (immL : BitVec 4) : Word :=
  0b1110#4 ++ 0b000#3 ++ p ++ u ++ 1#1 ++ w ++ l ++ rn ++ rd ++ immH ++ 1#1 ++ 0#1 ++ 1#1 ++ 1#1 ++ immL

/-- Format `A_LSM`: load/store multiple, P = 0, U = 1. R65. -/
def encLsMult (s w l : BitVec 1) (rn : BitVec 4) (list : BitVec 16) : Word :=
  0b1110#4 ++ 0b100#3 ++ 0#1 ++ 1#1 ++ s ++ w ++ l ++ rn ++ list

/-- Format `A_B`. R65. -/
def encBranch (l : BitVec 1) (imm24 : BitVec 24) : Word := 0b1110#4 ++ 0b101#3 ++ l ++ imm24

/-- Format `A_BX`. R65. -/
def encBx (rm : BitVec 4) : Word := 0b1110#4 ++ 0x12FFF1#24 ++ rm

/-- Format `A_MRS`. R65. -/
def encMrs (r : BitVec 1) (rd : BitVec 4) : Word := 0b1110#4 ++ 0b00010#5 ++ r ++ 0b00#2 ++ 0b1111#4 ++ rd ++ 0#12

/-- Format `A_MSRREG`. R65. -/
def encMsrReg (r : BitVec 1) (fieldMask rm : BitVec 4) : Word :=
  0b1110#4 ++ 0b00010#5 ++ r ++ 0b10#2 ++ fieldMask ++ 0b1111#4 ++ 0#8 ++ rm

/-- Format `A_MSRIMM`. R65. -/
def encMsrImm (r : BitVec 1) (fieldMask rotate : BitVec 4) (imm8 : BitVec 8) : Word :=
  0b1110#4 ++ 0b00110#5 ++ r ++ 0b10#2 ++ fieldMask ++ 0b1111#4 ++ rotate ++ imm8

/-- Format `A_CPRT`: coprocessor register transfer. R65. -/
def encCprt (op1 : BitVec 3) (l : BitVec 1) (crn rd cp : BitVec 4) (op2 : BitVec 3) (crm : BitVec 4) : Word :=
  0b1110#4 ++ 0b1110#4 ++ op1 ++ l ++ crn ++ rd ++ cp ++ op2 ++ 1#1 ++ crm

/-- Format `A_BKPT`. R65. -/
def encBkpt (imm12 : BitVec 12) (imm4 : BitVec 4) : Word := 0b1110#4 ++ 0b00010010#8 ++ imm12 ++ 0b0111#4 ++ imm4

/-- R63: the halfword in both halves of the word. -/
def twice (h : Half) : Word := h ++ h

/-- Format `T_HIREG`. R66. -/
def encTHiReg (h1 h2 : BitVec 1) (rm rd : BitVec 3) : Half := 0b01000110#8 ++ h1 ++ h2 ++ rm ++ rd

/-- Format `T_IMM8`. R66. -/
def encTImm8 (rd : BitVec 3) (imm8 : BitVec 8) : Half := 0b00100#5 ++ rd ++ imm8

/-- Format `T_LSM`. R66. -/
def encTLsMult (l : BitVec 1) (rn : BitVec 3) (list : BitVec 8) : Half := 0b1100#4 ++ l ++ rn ++ list

/-- Format `T_LSIMM5` with B = 0 and imm5 = 0. R66. -/
def encTLsImm5 (l : BitVec 1) (rn rd : BitVec 3) : Half := 0b011#3 ++ 0#1 ++ l ++ 0b00000#5 ++ rn ++ rd

/-- Format `T_LDRPC` with imm8 = 0. R66. -/
def encTLdrPc (rd : BitVec 3) : Half := 0b01001#5 ++ rd ++ 0#8

/-- Format `T_BX`. R66. -/
def encTBx (rm : BitVec 4) : Half := 0b010001110#9 ++ rm ++ 0b000#3

/-- Format `T_B`. R66. -/
def encTB (imm11 : BitVec 11) : Half := 0b11100#5 ++ imm11

/-- Format `T_BKPT`. R66. -/
def encTBkpt (imm8 : BitVec 8) : Half := 0b10111110#8 ++ imm8

/-- The word of a template call whose operands are in range, from the field tables R65 and R66, with the P, U, B, W, L, S, H
bits and offsets the template's rule gives. -/
def encode : Instr → Word
  | .armNop => encDpReg 8 8
  | .armMov rd rm => encDpReg (rd.setWidth 4) (rm.setWidth 4)
  | .armLdmia rn list s w => encLsMult (s.setWidth 1) (w.setWidth 1) 1 (rn.setWidth 4) (list.setWidth 16)
  | .armStmia rn list s w => encLsMult (s.setWidth 1) (w.setWidth 1) 0 (rn.setWidth 4) (list.setWidth 16)
  | .armLdr rd rn => encLsImm 1 1 0 0 1 (rn.setWidth 4) (rd.setWidth 4) 0
  | .armStr rd rn => encLsImm 1 1 0 0 0 (rn.setWidth 4) (rd.setWidth 4) 0
  | .armBkpt im => encBkpt (im.extractLsb' 4 12) (im.setWidth 4)
  | .armMovIm rd rotate im => encDpImm (rd.setWidth 4) (rotate.setWidth 4) (im.setWidth 8)
  | .armB im l => encBranch (l.setWidth 1) (im.setWidth 24)
  | .armBx rm => encBx (rm.setWidth 4)
  | .armMrs rd r => encMrs (r.setWidth 1) (rd.setWidth 4)
  | .armMsrGp rm f r => encMsrReg (r.setWidth 1) (f.setWidth 4) (rm.setWidth 4)
  | .armMsrIm im rotate f r => encMsrImm (r.setWidth 1) (f.setWidth 4) (rotate.setWidth 4) (im.setWidth 8)
  | .armMrc cp op1 rd crn crm op2 =>
    encCprt (op1.setWidth 3) 1 (crn.setWidth 4) (rd.setWidth 4) (cp.setWidth 4) (op2.setWidth 3) (crm.setWidth 4)
  | .armMcr cp op1 rd crn crm op2 =>
    encCprt (op1.setWidth 3) 0 (crn.setWidth 4) (rd.setWidth 4) (cp.setWidth 4) (op2.setWidth 3) (crm.setWidth 4)
  | .armLdrwIp rd rn => encLsImm 0 1 0 0 1 (rn.setWidth 4) (rd.setWidth 4) 4
  | .armLdrhIp rd rn => encLsHalf 0 1 0 1 (rn.setWidth 4) (rd.setWidth 4) 0 2
  | .armLdrbIp rd rn => encLsImm 0 1 1 0 1 (rn.setWidth 4) (rd.setWidth 4) 1
  | .armStrwIp rd rn => encLsImm 0 1 0 0 0 (rn.setWidth 4) (rd.setWidth 4) 4
  | .armStrhIp rd rn => encLsHalf 0 1 0 0 (rn.setWidth 4) (rd.setWidth 4) 0 2
  | .armStrbIp rd rn => encLsImm 0 1 1 0 0 (rn.setWidth 4) (rd.setWidth 4) 1
  | .tNop => twice (encTHiReg 1 1 0 0)
  | .tMov rd rm h1 h2 => twice (encTHiReg (h1.setWidth 1) (h2.setWidth 1) (rm.setWidth 3) (rd.setWidth 3))
  | .tMovIm rd im => twice (encTImm8 (rd.setWidth 3) (im.setWidth 8))
  | .tLdmia rn list => twice (encTLsMult 1 (rn.setWidth 3) (list.setWidth 8))
  | .tStmia rn list => twice (encTLsMult 0 (rn.setWidth 3) (list.setWidth 8))
  | .tLdr rd rn => twice (encTLsImm5 1 (rn.setWidth 3) (rd.setWidth 3))
  | .tStr rd rn => twice (encTLsImm5 0 (rn.setWidth 3) (rd.setWidth 3))
  | .tLdrPcrel rd => twice (encTLdrPc (rd.setWidth 3))
  | .tBx rm => twice (encTBx (rm.setWidth 4))
  | .tB imm => twice (encTB (imm.setWidth 11))
  | .tBkpt im => twice (encTBkpt (im.setWidth 8))

end Sys2Proof
end

