-- ==== Sys2Proof/Machine/Types.lean ====
section
/-! DEFINITION. The values the block handles: modes, states, cache entries, views, requests, outcomes, errors, the
transactions at the transport boundary, and the caller's commands with their replies. All plain data. -/

namespace Sys2Proof.Machine

/-- The processor modes of the target and the sentinel `ANY`. R20. -/
inductive ProcessorMode where
  | usr | fiq | irq | svc | abt | mon | und | sys
  /-- "mode-independent / use current"; never in `core_mode`. R18, R20. -/
  | any
deriving DecidableEq, Repr, Inhabited

/-- The instruction-set states. R19, R21. -/
inductive ProcessorState where
  | arm | thumb | jazelle | thumbEE
deriving DecidableEq, Repr, Inhabited

/-- A mode as an operand: a value of the enumeration, or a raw 32-bit code (R130, R132, R151: "a ProcessorMode or a raw
code"). -/
inductive ModeOperand where
  | known (m : ProcessorMode)
  | raw (code : Word)
deriving DecidableEq, Repr

/-- One register-cache entry. R11. -/
structure CacheEntry where
  name : String
  width : Nat
  value : Word
  valid : Bool
  dirty : Bool
deriving DecidableEq, Repr, Inhabited

/-- A register view: a name of a slot with the logical number and mode it was resolved for. R22. -/
structure RegisterView where
  slot : Nat
  logical : Nat
  mode : ProcessorMode
deriving DecidableEq, Repr

/-- One element of the register-list export. R27, R161. -/
structure RegisterDescriptor where
  name : String
  width : Nat
  value : Word
  dirty : Bool
deriving DecidableEq, Repr

/-- The payload of a transport or hook error: opaque, carried through unchanged (R200, U8; log 19). -/
structure TransportError where
  info : Nat
deriving DecidableEq, Repr, Inhabited

/-- The two shapes of a transport or hook result. R41, R162. -/
inductive Answer (α : Type) where
  | ok (v : α)
  | err (e : TransportError)
deriving DecidableEq, Repr, Inhabited

/-- Why the target halted. R176, R204; the handle and the information are opaque (log 19). -/
inductive HaltCause where
  | breakpoint (handle : Nat)
  | other (info : Nat)
deriving DecidableEq, Repr, Inhabited

/-- The answer of `T.poll_halted`. R41. -/
inductive PollAnswer where
  | halted (cause : HaltCause)
  | timeout
deriving DecidableEq, Repr, Inhabited

/-- Why Prepare failed. R172, R200. -/
inductive PrepareCause where
  | unsupportedState
  | badAddress
  | invalidMode
  | invalidIndex
  | transportError (e : TransportError)
deriving DecidableEq, Repr

/-- The error taxonomy. R200. -/
inductive Error where
  | invalidMode
  | invalidIndex
  | transportError (e : TransportError)
  | outOfMemory
  | prepareFailed (cause : PrepareCause)
  | breakpointSetupFailed (e : TransportError)
  | targetFault (cause : HaltCause)
  | executionTimeout
deriving DecidableEq, Repr

/-- The result of an operation that can raise an error. R7, R8. -/
inductive Res (α : Type) where
  | ok (v : α)
  | err (e : Error)
deriving DecidableEq, Repr

/-- Direction of a run's parameter: host to target, target to host, or both. R170. -/
inductive Direction where
  | input
  | output
  | inout
deriving DecidableEq, Repr

/-- The parameter is written in Install. R170, R173. -/
def Direction.writes : Direction → Bool
  | .input => true
  | .inout => true
  | .output => false

/-- The parameter is read back in Harvest. R170, R177. -/
def Direction.reads : Direction → Bool
  | .output => true
  | .inout => true
  | .input => false

/-- A memory parameter. R170. -/
structure MemParam where
  addr : Word
  size : Nat
  dir : Direction
  value : List Byte
deriving DecidableEq, Repr

/-- A register parameter; its identifier is the pair (mode, logical number). R170. -/
structure RegParam where
  mode : ProcessorMode
  regnum : Nat
  dir : Direction
  value : Word
deriving DecidableEq, Repr

/-- `AlgorithmRunRequest`. R170; the timeout is opaque (R211). -/
structure RunRequest where
  entry : Word
  exit : Word
  memParams : List MemParam
  regParams : List RegParam
  timeout : Nat
deriving DecidableEq, Repr

/-- The phases of the sequencer. R23, R171. -/
inductive Phase where
  | idle | prepare | install | armExit | resume | await | harvest | cleanup
deriving DecidableEq, Repr

/-- The error of a `Failed` outcome. R180. -/
inductive RunFailure where
  | prepareFailed (cause : PrepareCause)
  | breakpointSetupFailed (e : TransportError)
  | transportError (e : TransportError)
deriving DecidableEq, Repr

/-- The primary outcome of a run. R176, R180. -/
inductive RunOutcome where
  | success
  | targetFault (cause : HaltCause)
  | executionTimeout
  | failed (error : RunFailure)
deriving DecidableEq, Repr

/-- What a secondary diagnostic is about. R208. -/
inductive DiagWhat where
  | forcedHalt
  | removeBreakpoint
  | restore (slot : Nat)
  | refresh
  | resync
deriving DecidableEq, Repr

/-- A secondary diagnostic. R208. -/
structure Diag where
  what : DiagWhat
  error : Error
deriving DecidableEq, Repr

/-- One harvested output: the parameter and its own result. R177. -/
inductive HarvestItem where
  | mem (p : MemParam) (r : Answer (List Byte))
  | reg (p : RegParam) (r : Answer Word)
deriving DecidableEq, Repr

/-- `AlgorithmResult`: the four outcomes of R180, each with outputs, diagnostics and the fatal flag. -/
structure AlgorithmResult where
  outcome : RunOutcome
  outputs : List HarvestItem
  diagnostics : List Diag
  fatal : Bool
deriving DecidableEq, Repr

/-- A completed transaction at the boundary, with its answer: the nine transport operations of R41 and the three other
hooks of R162. -/
inductive Transaction where
  | readRegister (slot : Nat) (a : Answer Word)
  | writeRegister (slot : Nat) (v : Word) (a : Answer Unit)
  | readMemory (addr : Word) (size count : Nat) (a : Answer (List Byte))
  | writeMemory (addr : Word) (size count : Nat) (bytes : List Byte) (a : Answer Unit)
  | setBreakpoint (addr : Word) (a : Answer Nat)
  | removeBreakpoint (handle : Nat) (a : Answer Unit)
  | resume (a : Answer Unit)
  | halt (a : Answer Unit)
  | pollHalted (timeout : Nat) (a : PollAnswer)
  | refreshHook (a : Answer (List Word))
  /-- the fields in the width of the command (log 25). -/
  | cpRead (cp op1 op2 crn crm : Word) (a : Answer Word)
  | cpWrite (cp op1 op2 crn crm v : Word) (a : Answer Unit)
deriving DecidableEq, Repr

/-- A command of the caller. R72; `image` is the model's own (log 3). -/
inductive Command where
  /-- a template call, any 32-bit operands. R61, R62. -/
  | template (i : Instr)
  /-- template calls named by the bytes of the words they emit, in the byte order `TARGET_ENDIAN`. -/
  | image (f : Format) (bytes : List Byte)
  /-- R130. -/
  | modeToIndex (m : ModeOperand)
  /-- R131. -/
  | indexToMode (index : Nat)
  /-- R132. -/
  | modeName (m : ModeOperand)
  /-- R133. -/
  | isValidMode (v : Word)
  /-- R141. -/
  | map (m : ModeOperand) (n : Nat)
  /-- R144. -/
  | currentRegister (n : Nat)
  /-- R150, R230. -/
  | buildRegisterCache (hasMon : Bool)
  /-- R151. -/
  | setMode (m : ModeOperand)
  /-- R152. -/
  | setState (st : ProcessorState)
  /-- R153. -/
  | setCpsr (raw : Word)
  /-- R154. -/
  | readRegister (view : RegisterView)
  /-- R155. -/
  | writeRegister (view : RegisterView) (v : Word)
  /-- R156. -/
  | flush
  /-- R157. -/
  | fullContextRefresh
  /-- R159; DESIGN CHOICE: the five fields are carried as 32-bit values, any value (log 25). -/
  | mrc (cp op1 op2 crn crm : Word)
  /-- R160; DESIGN CHOICE: the five fields are carried as 32-bit values, any value (log 25). -/
  | mcr (cp op1 op2 crn crm v : Word)
  /-- R161. -/
  | registerList
  /-- R170 to R180. -/
  | runAlgorithm (req : RunRequest)
deriving DecidableEq, Repr

/-- What an operation returns to the caller. -/
inductive Reply where
  /-- the word a template emits. R61. -/
  | word (w : Word)
  /-- R130. -/
  | index (n : Nat)
  /-- R131. -/
  | mode (m : ProcessorMode)
  /-- R132. -/
  | name (s : String)
  /-- R133. -/
  | bool (b : Bool)
  /-- R141. -/
  | slot (n : Nat)
  /-- R144. -/
  | view (v : RegisterView)
  /-- `ok` without a value. -/
  | done
  /-- a register or coprocessor register value. R154, R159. -/
  | value (v : Word)
  /-- R161. -/
  | registers (l : List RegisterDescriptor)
  /-- R180. -/
  | run (r : AlgorithmResult)
  /-- exactly one distinguished error. R8, R200. -/
  | error (e : Error)
deriving DecidableEq, Repr

end Sys2Proof.Machine
end

