-- ==== Sys2Proof/Config.lean ====
section
/-! DEFINITION. The parameters of a model (R5) and the free values: constants without a body, so that no proof can rest on
what they are. -/

namespace Sys2Proof

open Sys2Proof.Machine

/-- `PC_ENTRY_FN` by name: the default of R175, or another function of the implementer's, known only by a number. R5. -/
inductive PcEntryFn where
  | standard
  | custom (id : Nat)
deriving DecidableEq, Repr

/-- The parameters of R5 that are no oracles. They never change but for `HAS_MON`, which a construction sets (R150). -/
structure Params where
  /-- `HAS_MON`: the core has monitor-mode banking. -/
  hasMon : Bool
  /-- `TARGET_ENDIAN`. -/
  endian : Endian
  /-- `PC_ENTRY_FN`. -/
  pcEntry : PcEntryFn
  /-- `CLEANUP_FAILURE_FATAL`. -/
  cleanupFailureFatal : Bool
  /-- `ALLOC_OK`: construction finds memory. -/
  allocOk : Bool
deriving DecidableEq, Repr

/-- The defaults of R5. `HAS_MON` has none there: DESIGN CHOICE false (log 5). -/
def Params.defaults : Params :=
  { hasMon := false, endian := .little, pcEntry := .standard, cleanupFailureFatal := false, allocOk := true }

/-- FREE VALUE: `PC_ENTRY_FN` when the implementer supplies its own. R5, R175; log 8. -/
opaque Config.customPcEntry : Nat → ProcessorState → Word → Word

/-- FREE VALUE: the value of an entry that `invalidate_all` forgot, by the counter `free` and the slot. R158, U6; log 7. -/
opaque Config.forgottenValue : Nat → Nat → Word

/-- FREE VALUE: a byte the transport's memory answer leaves out of a scripted answer. R42; log 20. -/
opaque Config.freeByte : Nat → Nat → Byte

/-- FREE VALUE: a register value the refresh hook leaves out of a scripted answer. R162; log 20. -/
opaque Config.freeWord : Nat → Nat → Word

/-! The oracle's answers where the script holds none, by the number of the draw and the arguments. R41, R162; log 4. -/

/-- FREE VALUE: `T.read_register(slot)`. -/
opaque Config.readRegister : Nat → Nat → Answer Word
/-- FREE VALUE: `T.write_register(slot, v)`. -/
opaque Config.writeRegister : Nat → Nat → Word → Answer Unit
/-- FREE VALUE: `T.read_memory(addr, size, count)`. -/
opaque Config.readMemory : Nat → Word → Nat → Nat → Answer (List Byte)
/-- FREE VALUE: `T.write_memory(addr, size, count, bytes)`. -/
opaque Config.writeMemory : Nat → Word → Nat → Nat → List Byte → Answer Unit
/-- FREE VALUE: `T.set_breakpoint(addr)`. -/
opaque Config.setBreakpoint : Nat → Word → Answer Nat
/-- FREE VALUE: `T.remove_breakpoint(handle)`. -/
opaque Config.removeBreakpoint : Nat → Nat → Answer Unit
/-- FREE VALUE: `T.resume()`. -/
opaque Config.resume : Nat → Answer Unit
/-- FREE VALUE: `T.halt()`. -/
opaque Config.halt : Nat → Answer Unit
/-- FREE VALUE: `T.poll_halted(timeout)`. -/
opaque Config.pollHalted : Nat → Nat → PollAnswer
/-- FREE VALUE: `REFRESH_HOOK()`. -/
opaque Config.refreshHook : Nat → Answer (List Word)
/-- FREE VALUE: `CP_READ_HOOK(cp, op1, op2, crn, crm)`. -/
opaque Config.cpRead : Nat → Word → Word → Word → Word → Word → Answer Word
/-- FREE VALUE: `CP_WRITE_HOOK(cp, op1, op2, crn, crm, v)`. -/
opaque Config.cpWrite : Nat → Word → Word → Word → Word → Word → Word → Answer Unit

end Sys2Proof
end

