-- ==== Sys2Proof/Machine/Slots.lean ====
section
/-! DEFINITION. The slots of the register cache: their number and names, and the cache as construction leaves it. -/

namespace Sys2Proof.Machine

/-- The names of slots 0 to 36. R12. -/
def standardSlotNames : List String :=
  ["r0", "r1", "r2", "r3", "r4", "r5", "r6", "r7", "r8", "r9", "r10", "r11", "r12", "r13_usr", "r14_usr", "pc"] ++
  ["r8_fiq", "r9_fiq", "r10_fiq", "r11_fiq", "r12_fiq", "r13_fiq", "r14_fiq"] ++
  ["r13_irq", "r14_irq", "r13_svc", "r14_svc", "r13_abt", "r14_abt", "r13_und", "r14_und"] ++
  ["cpsr", "spsr_fiq", "spsr_irq", "spsr_svc", "spsr_abt", "spsr_und"]

/-- The names of slots 37 to 39, "three extra registers uniquely in MON". R12. -/
def monitorSlotNames : List String := ["r13_mon", "r14_mon", "spsr_mon"]

/-- `NAME[0 .. NSLOT-1]`. R12, R150. -/
def slotNames (hasMon : Bool) : List String :=
  if hasMon then standardSlotNames ++ monitorSlotNames else standardSlotNames

/-- `NSLOT`: 37, or 40 with monitor-mode banking. R5, R11. -/
def nslot (hasMon : Bool) : Nat := if hasMon then 40 else 37

/-- The slot of the program counter. R15. -/
def pcSlot : Nat := 15

/-- The handle to the CPSR entry. R16. -/
def cpsrSlot : Nat := 31

/-- An entry after construction: both flags 0, the width 32, the value unspecified (R28). DESIGN CHOICE, unsafe: the value
is 0 (log 6). -/
def freshEntry (name : String) : CacheEntry :=
  { name := name, width := 32, value := 0, valid := false, dirty := false }

/-- The register cache after construction. R150. -/
def freshCache (hasMon : Bool) : List CacheEntry := (slotNames hasMon).map freshEntry

end Sys2Proof.Machine
end

