-- ==== Sys2Proof/Machine/State.lean ====
section
/-! DEFINITION. The state of the block: exactly the state of R10, the parameters of R5, and the model's own fields for the
caller's commands, their reply and the oracle. -/

namespace Sys2Proof.Machine

/-- Why a step stops with a fault. Both are safe: they can happen only in states that no rule leaves behind (log 13). -/
inductive Fault where
  /-- Raised by `phaseStep` in a phase other than IDLE when no request is held; safe. -/
  | runWithoutRequest
  /-- Raised by `phaseStep` in phase CLEANUP when no primary outcome is held; safe. -/
  | cleanupWithoutOutcome
deriving DecidableEq, Repr

/-- Why a step refuses a command. -/
inductive Refusal where
  /-- Raised by `exec` for an instruction without a meaning; safe. No arm raises it now. -/
  | notModelled (mnemonic : String)
  /-- Raised by an operation of the core state object when no block instance exists (R150); safe (log 15). -/
  | noInstance
  /-- Raised by `readRegister` and `writeRegister` on a view whose slot the cache does not have (R7); safe (log 17). -/
  | noSuchSlot
  /-- Raised by `runAlgorithm` on a memory parameter with addr + size over 2^32 (U9); safe (log 16). -/
  | memoryParamPastTop
  /-- Raised by `runAlgorithm` on an input memory parameter whose byte string is not `size` bytes long (R170); safe (log 16). -/
  | memoryParamLength
  /-- Raised by `image` on bytes that are no template's word (R69, R70); safe (log 3). -/
  | undecodable (e : DecodeError)
deriving DecidableEq, Repr

/-- The oracle at the boundary, the MODEL's own: the answers the environment will give (the head is the next one; where a
list is empty the answer is a free value of Config), the number of calls made so far, and the calls with their answers,
oldest first. R41, R50, R162; log 4. -/
structure Transport where
  registerReads : List (Answer Word)
  registerWrites : List (Answer Unit)
  memoryReads : List (Answer (List Byte))
  memoryWrites : List (Answer Unit)
  breakpointSets : List (Answer Nat)
  breakpointRemovals : List (Answer Unit)
  resumes : List (Answer Unit)
  halts : List (Answer Unit)
  polls : List PollAnswer
  refreshes : List (Answer (List Word))
  cpReads : List (Answer Word)
  cpWrites : List (Answer Unit)
  draws : Nat
  log : List Transaction
deriving DecidableEq, Repr

/-- A transport with nothing scripted and no call made. DESIGN CHOICE (log 4). -/
def Transport.initial : Transport :=
  { registerReads := [], registerWrites := [], memoryReads := [], memoryWrites := [], breakpointSets := [],
    breakpointRemovals := [], resumes := [], halts := [], polls := [], refreshes := [], cpReads := [], cpWrites := [],
    draws := 0, log := [] }

/-- The state of the block. R10, R23; the fields from `built` on are the model's own. -/
structure State where
  /-- The parameters of R5 other than the oracles. -/
  params : Params
  /-- The register cache. R11. -/
  cache : List CacheEntry
  /-- `core_mode`. R18. -/
  coreMode : ProcessorMode
  /-- `core_state`. R19. -/
  coreState : ProcessorState
  /-- `phase`. R23. -/
  phase : Phase
  /-- `req`. R23, R170. -/
  req : Option RunRequest
  /-- `p.slot` of each register parameter, in order. R172. -/
  regSlots : List Nat
  /-- `save_list`. R23, R172. -/
  saveList : List (Nat × Word)
  /-- `bp`. R23, R174. -/
  bp : Option Nat
  /-- `primary`. R23. -/
  primary : Option RunOutcome
  /-- `harvest`. R23, R177. -/
  harvest : List HarvestItem
  /-- `diag`. R23, R208. -/
  diag : List Diag
  /-- A block instance exists. R150, R230; log 15. -/
  built : Bool
  /-- The caller's commands not yet served, oldest first. R9; log 2. -/
  inbox : List Command
  /-- The answer to the last command served. R8; log 1. -/
  reply : Option Reply
  /-- The oracle. R41; log 4. -/
  transport : Transport
  /-- Selects the free values of forgotten cache entries. R158; log 7. -/
  free : Nat
deriving DecidableEq, Repr

/-- The machine right after reset, which is construction (R230), with the values of R28. -/
def State.reset : State :=
  { params := Params.defaults
    cache := freshCache Params.defaults.hasMon
    coreMode := .usr
    coreState := .arm
    phase := .idle
    req := none
    regSlots := []
    saveList := []
    bp := none
    primary := none
    harvest := []
    diag := []
    built := true
    inbox := []
    reply := none
    transport := Transport.initial
    free := 0 }

end Sys2Proof.Machine
end

