-- ==== Sys2Proof/Machine/ModeModel.lean ====
section
/-! DEFINITION. Unit U2, first half: the mode model. Pure functions; none reads the state. -/

namespace Sys2Proof.Machine

/-- The code of a mode: the value of the CPSR mode field, and the sentinel's own. R20. -/
def modeCode : ProcessorMode → Word
  | .usr => 0x10
  | .fiq => 0x11
  | .irq => 0x12
  | .svc => 0x13
  | .abt => 0x17
  | .mon => 0x16
  | .und => 0x1B
  | .sys => 0x1F
  | .any => 0xFFFFFFFF

/-- The mode whose code a raw value is, if any. R20. -/
def modeOfCode (v : Word) : Option ProcessorMode :=
  if v = 0x10 then some .usr
  else if v = 0x11 then some .fiq
  else if v = 0x12 then some .irq
  else if v = 0x13 then some .svc
  else if v = 0x17 then some .abt
  else if v = 0x16 then some .mon
  else if v = 0x1B then some .und
  else if v = 0x1F then some .sys
  else if v = 0xFFFFFFFF then some .any
  else none

/-- The mode an operand names, if it is one of the enumeration. R130, R151; log 18. -/
def ModeOperand.mode? : ModeOperand → Option ProcessorMode
  | .known m => some m
  | .raw code => modeOfCode code

/-- R130: mode to compact index. -/
def modeToIndex : ProcessorMode → Res Nat
  | .usr => .ok 0
  | .fiq => .ok 1
  | .irq => .ok 2
  | .svc => .ok 3
  | .abt => .ok 4
  | .mon => .ok 5
  | .und => .ok 6
  | .sys => .ok 7
  | .any => .err .invalidMode

/-- R130 on an operand that may be a raw value: "any other value -> err(InvalidMode)". -/
def operandToIndex (m : ModeOperand) : Res Nat :=
  match m.mode? with
  | some m => modeToIndex m
  | none => .err .invalidMode

/-- R131: compact index to mode. -/
def indexToMode : Nat → Res ProcessorMode
  | 0 => .ok .usr
  | 1 => .ok .fiq
  | 2 => .ok .irq
  | 3 => .ok .svc
  | 4 => .ok .abt
  | 5 => .ok .mon
  | 6 => .ok .und
  | 7 => .ok .sys
  | _ => .err .invalidIndex

/-- R132: display name of a mode. -/
def modeName : ProcessorMode → String
  | .usr => "User"
  | .fiq => "FIQ"
  | .irq => "IRQ"
  | .svc => "Supervisor"
  | .abt => "Abort"
  | .mon => "Secure Monitor"
  | .und => "Undefined instruction"
  | .sys => "System"
  | .any => "Any"

/-- R132 on an operand that may be a raw value. -/
def operandName (m : ModeOperand) : String :=
  match m.mode? with
  | some m => modeName m
  | none => "Invalid"

/-- R133: membership of a raw value in the eight real modes. -/
def isValidMode (v : Word) : Bool :=
  [0x10, 0x11, 0x12, 0x13, 0x17, 0x16, 0x1B, 0x1F].any (fun c => decide (v = c))

/-- R134: the mode has a saved status register of its own. -/
def hasSpsr : ProcessorMode → Bool
  | .fiq | .irq | .svc | .abt | .mon | .und => true
  | .usr | .sys | .any => false

/-- R135: the banking table has a usable row for the mode on this target. -/
def modeSupported (hasMon : Bool) (m : ProcessorMode) : Bool :=
  decide (m ≠ .any) && (decide (m ≠ .mon) || hasMon)

end Sys2Proof.Machine
end

