-- ==== Sys2Proof/Machine/Banking.lean ====
section
/-! DEFINITION. Unit U2, second half: the register-file banking multiplexer. -/

namespace Sys2Proof.Machine

/-- `MAP_TABLE`, one row per mode index, one column per logical number 0 to 16. R140. -/
def mapTable : List (List Nat) :=
  [ [0, 1, 2, 3, 4, 5, 6, 7, 8, 9, 10, 11, 12, 13, 14, 15, 31],
    [0, 1, 2, 3, 4, 5, 6, 7, 16, 17, 18, 19, 20, 21, 22, 15, 32],
    [0, 1, 2, 3, 4, 5, 6, 7, 8, 9, 10, 11, 12, 23, 24, 15, 33],
    [0, 1, 2, 3, 4, 5, 6, 7, 8, 9, 10, 11, 12, 25, 26, 15, 34],
    [0, 1, 2, 3, 4, 5, 6, 7, 8, 9, 10, 11, 12, 27, 28, 15, 35],
    [0, 1, 2, 3, 4, 5, 6, 7, 8, 9, 10, 11, 12, 37, 38, 15, 39],
    [0, 1, 2, 3, 4, 5, 6, 7, 8, 9, 10, 11, 12, 29, 30, 15, 36],
    [0, 1, 2, 3, 4, 5, 6, 7, 8, 9, 10, 11, 12, 13, 14, 15, 31] ]

/-- The offset of the banked r13 and r14 of a mode index; USR and SYS have none. R140. -/
def stackBankOffset : Nat → Nat
  | 1 => 8
  | 2 => 10
  | 3 => 12
  | 4 => 14
  | 5 => 24
  | 6 => 16
  | _ => 0

/-- The slot of the status register seen from a mode index. R140, R146. -/
def statusSlot : Nat → Nat
  | 1 => 32
  | 2 => 33
  | 3 => 34
  | 4 => 35
  | 5 => 39
  | 6 => 36
  | _ => 31

/-- `table(i, n)`: the banking table as a function. R140. -/
def bankSlot (i n : Nat) : Nat :=
  if n ≤ 7 then n
  else if n = 15 then 15
  else if n ≤ 12 then (if i = 1 then n + 8 else n)
  else if n ≤ 14 then n + stackBankOffset i
  else statusSlot i

/-- The mode a multiplexer select stands for: the current one for `ANY`. R141. -/
def effectiveMode (coreMode m : ProcessorMode) : ProcessorMode := if m = .any then coreMode else m

/-- `MAP(mode, n)`: the mode is tested before the register number. R141, R205 (a). -/
def mapRegister (hasMon : Bool) (coreMode m : ProcessorMode) (n : Nat) : Res Nat :=
  let e := effectiveMode coreMode m
  if modeSupported hasMon e = false then .err .invalidMode
  else if 16 < n then .err .invalidIndex
  else
    match modeToIndex e with
    | .ok i => .ok (bankSlot i n)
    | .err x => .err x

/-- `MAP` on an operand that may be a raw value. R141: "InvalidMode for a mode that is not one of the eight". -/
def mapOperand (hasMon : Bool) (coreMode : ProcessorMode) (m : ModeOperand) (n : Nat) : Res Nat :=
  match m.mode? with
  | some m => mapRegister hasMon coreMode m n
  | none => .err .invalidMode

/-- `current_register(n)`: the view of logical register `n` in the current mode. R144. -/
def currentRegister (hasMon : Bool) (coreMode : ProcessorMode) (n : Nat) : Res RegisterView :=
  match mapRegister hasMon coreMode .any n with
  | .ok slot => .ok { slot := slot, logical := n, mode := coreMode }
  | .err e => .err e

/-- The handle to the SPSR entry, "if present": derived from the current mode. R17, R134. -/
def spsrHandle (coreMode : ProcessorMode) : Option Nat :=
  if hasSpsr coreMode then
    match modeToIndex coreMode with
    | .ok i => some (bankSlot i 16)
    | .err _ => none
  else none

end Sys2Proof.Machine
end

