-- ==== Sys2Proof/Machine/Flags.lean ====
section
/-! DEFINITION. Flags: the three fields of a CPSR value that the block interprets (R16), and the valid and dirty flags of a
cache entry (R14). The templates write no flag (R80 to R120). -/

namespace Sys2Proof.Machine

/-- The mode field `M` = bits[4:0], zero-extended. R16. -/
def cpsrModeField (raw : Word) : Word := field raw 0 5

/-- The Thumb bit `T` = bit 5. R16. -/
def cpsrT (raw : Word) : Bool := raw.getLsbD 5

/-- The Jazelle bit `J` = bit 24. R16. -/
def cpsrJ (raw : Word) : Bool := raw.getLsbD 24

/-- The instruction-set state that (T, J) encode. R153. -/
def stateOfBits : Bool → Bool → ProcessorState
  | false, false => .arm
  | true, false => .thumb
  | false, true => .jazelle
  | true, true => .thumbEE

/-- The entry holds what the target's register holds: valid, clean. R14. -/
def CacheEntry.agree (e : CacheEntry) (v : Word) : CacheEntry := { e with value := v, valid := true, dirty := false }

/-- The entry holds a value "written but not yet flushed": valid, dirty. R14. -/
def CacheEntry.pending (e : CacheEntry) (v : Word) : CacheEntry := { e with value := v, valid := true, dirty := true }

/-- The entry's value has reached the target; `value` and `valid` stay. R156. -/
def CacheEntry.clean (e : CacheEntry) : CacheEntry := { e with dirty := false }

/-- The entry takes a value read by the hook and becomes valid; the dirty flag stays. R154. -/
def CacheEntry.filled (e : CacheEntry) (v : Word) : CacheEntry := { e with value := v, valid := true }

/-- What a successful refresh does to an entry, `v` being the hook's value. R157. -/
def CacheEntry.refreshed (e : CacheEntry) (v : Word) : CacheEntry :=
  { e with value := if e.dirty then e.value else v, valid := true }

/-- Nothing is known of the target's register; the value is unspecified. R158. -/
def CacheEntry.forgotten (e : CacheEntry) (v : Word) : CacheEntry := { e with value := v, valid := false, dirty := false }

end Sys2Proof.Machine
end

