-- ==== Sys2Proof/Machine/Operands.lean ====
section
/-! DEFINITION. How operands enter an emitted word: the placement, the duplication and the one split immediate of R61, R63
and R67. No operand is masked, checked or sign-extended but as shown. -/

namespace Sys2Proof.Machine

/-- `op << s`: the operand at its fixed shift, bits past bit 31 dropped. R6, R61, R62. -/
def place (op : Word) (shift : Nat) : Word := op <<< shift

/-- `dup(h)` = `u32(h | (h << 16))`. R63. -/
def dup (h : Word) : Word := h ||| place h 16

/-- The ARM breakpoint immediate: `((Im & 0xFFF0) << 4) | (Im & 0xF)`. R67. -/
def breakpointImmediate (im : Word) : Word := place (im &&& 0xFFF0) 4 ||| (im &&& 0xF)

end Sys2Proof.Machine
end

