-- ==== Sys2Proof/Machine/Ops.lean ====
section
/-! DEFINITION. The shared operations: one transport call each (R41, R162), access to cache entries, emitting a template's
word, and returning a value or raising an error to the caller (R7, R8). The block takes no hardware exception (R201): what
stands in its place is `State.raise` for an operation, and for a run the entry and return of R206 and R207 (Sequencer.lean). -/

namespace Sys2Proof.Machine

/-- `n` elements: the scripted ones where there are any, the free ones elsewhere. R41, R162 fix the length; log 20. -/
def fitTo {α : Type} (n : Nat) (given : List α) (free : Nat → α) : List α :=
  (List.range n).map fun i => given[i]?.getD (free i)

/-- A call has been answered: it is counted and recorded after the earlier ones. R50. -/
def Transport.record (t : Transport) (c : Transaction) : Transport :=
  { t with draws := t.draws + 1, log := t.log ++ [c] }

/-- `T.read_register(slot)`. R41. -/
def Transport.readRegister (t : Transport) (slot : Nat) : Answer Word × Transport :=
  let a := t.registerReads.headD (Config.readRegister t.draws slot)
  (a, { t with registerReads := t.registerReads.tail }.record (.readRegister slot a))

/-- `T.write_register(slot, v)`. R41. -/
def Transport.writeRegister (t : Transport) (slot : Nat) (v : Word) : Answer Unit × Transport :=
  let a := t.registerWrites.headD (Config.writeRegister t.draws slot v)
  (a, { t with registerWrites := t.registerWrites.tail }.record (.writeRegister slot v a))

/-- `T.read_memory(addr, size, count)`; an `ok` answer has `size * count` bytes. R41, R42. -/
def Transport.readMemory (t : Transport) (addr : Word) (size count : Nat) : Answer (List Byte) × Transport :=
  let a :=
    match t.memoryReads.headD (Config.readMemory t.draws addr size count) with
    | .ok bytes => .ok (fitTo (size * count) bytes (Config.freeByte t.draws))
    | .err e => .err e
  (a, { t with memoryReads := t.memoryReads.tail }.record (.readMemory addr size count a))

/-- `T.write_memory(addr, size, count, bytes)`. R41. -/
def Transport.writeMemory (t : Transport) (addr : Word) (size count : Nat) (bytes : List Byte) : Answer Unit × Transport :=
  let a := t.memoryWrites.headD (Config.writeMemory t.draws addr size count bytes)
  (a, { t with memoryWrites := t.memoryWrites.tail }.record (.writeMemory addr size count bytes a))

/-- `T.set_breakpoint(addr)`. R41. -/
def Transport.setBreakpoint (t : Transport) (addr : Word) : Answer Nat × Transport :=
  let a := t.breakpointSets.headD (Config.setBreakpoint t.draws addr)
  (a, { t with breakpointSets := t.breakpointSets.tail }.record (.setBreakpoint addr a))

/-- `T.remove_breakpoint(handle)`. R41. -/
def Transport.removeBreakpoint (t : Transport) (handle : Nat) : Answer Unit × Transport :=
  let a := t.breakpointRemovals.headD (Config.removeBreakpoint t.draws handle)
  (a, { t with breakpointRemovals := t.breakpointRemovals.tail }.record (.removeBreakpoint handle a))

/-- `T.resume()`. R41. -/
def Transport.resume (t : Transport) : Answer Unit × Transport :=
  let a := t.resumes.headD (Config.resume t.draws)
  (a, { t with resumes := t.resumes.tail }.record (.resume a))

/-- `T.halt()`. R41. -/
def Transport.halt (t : Transport) : Answer Unit × Transport :=
  let a := t.halts.headD (Config.halt t.draws)
  (a, { t with halts := t.halts.tail }.record (.halt a))

/-- `T.poll_halted(timeout)`. R41, R204. -/
def Transport.pollHalted (t : Transport) (timeout : Nat) : PollAnswer × Transport :=
  let a := t.polls.headD (Config.pollHalted t.draws timeout)
  (a, { t with polls := t.polls.tail }.record (.pollHalted timeout a))

/-- `REFRESH_HOOK()`; an `ok` answer has one value per slot. R162. -/
def Transport.refreshHook (t : Transport) (slots : Nat) : Answer (List Word) × Transport :=
  let a :=
    match t.refreshes.headD (Config.refreshHook t.draws) with
    | .ok vals => .ok (fitTo slots vals (Config.freeWord t.draws))
    | .err e => .err e
  (a, { t with refreshes := t.refreshes.tail }.record (.refreshHook a))

/-- `CP_READ_HOOK(cp, op1, op2, crn, crm)`. R162; width of the fields: log 25. -/
def Transport.cpRead (t : Transport) (cp op1 op2 crn crm : Word) : Answer Word × Transport :=
  let a := t.cpReads.headD (Config.cpRead t.draws cp op1 op2 crn crm)
  (a, { t with cpReads := t.cpReads.tail }.record (.cpRead cp op1 op2 crn crm a))

/-- `CP_WRITE_HOOK(cp, op1, op2, crn, crm, v)`. R162; width of the fields: log 25. -/
def Transport.cpWrite (t : Transport) (cp op1 op2 crn crm v : Word) : Answer Unit × Transport :=
  let a := t.cpWrites.headD (Config.cpWrite t.draws cp op1 op2 crn crm v)
  (a, { t with cpWrites := t.cpWrites.tail }.record (.cpWrite cp op1 op2 crn crm v a))

/-- `width(addr, size)`: the largest of 4, 2, 1 that divides both. R46. -/
def accessWidth (addr : Word) (size : Nat) : Nat :=
  if addr.toNat % 4 = 0 ∧ size % 4 = 0 then 4 else if addr.toNat % 2 = 0 ∧ size % 2 = 0 then 2 else 1

/-- `MemWrite(addr, size, v)`: one call, none for size 0. R46. -/
def Transport.memWrite (t : Transport) (addr : Word) (size : Nat) (v : List Byte) : Answer Unit × Transport :=
  if size = 0 then (.ok (), t)
  else t.writeMemory addr (accessWidth addr size) (size / accessWidth addr size) v

/-- `MemRead(addr, size)`: one call, none for size 0. R46. -/
def Transport.memRead (t : Transport) (addr : Word) (size : Nat) : Answer (List Byte) × Transport :=
  if size = 0 then (.ok [], t)
  else t.readMemory addr (accessWidth addr size) (size / accessWidth addr size)

/-- `cache[slot]`. R7; outside the cache (no rule reads there) an empty entry. -/
def State.entry (s : State) (slot : Nat) : CacheEntry := s.cache.getD slot (freshEntry "")

/-- `cache[slot] <- e`. R7. -/
def State.setEntry (s : State) (slot : Nat) (e : CacheEntry) : State := { s with cache := s.cache.set slot e }

/-- The oracle after a call. -/
def State.withTransport (s : State) (t : Transport) : State := { s with transport := t }

/-- `NSLOT` of this instance. R5. -/
def State.slots (s : State) : Nat := nslot s.params.hasMon

/-- The command returns `r` to the caller. R8. -/
def State.answer (s : State) (r : Reply) : State := { s with reply := some r }

/-- `raise E`: the operation ends with one distinguished error; what is written stays written. R7, R8. -/
def State.raise (s : State) (e : Error) : State := s.answer (.error e)

/-- A template returns its word; it reads no state, writes none, touches no transport and cannot fail. R61. -/
def State.emit (s : State) (w : Word) : Host.Outcome State Fault Refusal := .next (s.answer (.word w))

/-- The reply of an operation that returns a value or one error. R7. -/
def Res.reply {α : Type} (f : α → Reply) : Res α → Reply
  | .ok v => f v
  | .err e => .error e

/-- The reply of an operation whose only error is a transport error. R200. -/
def Answer.reply {α : Type} (f : α → Reply) : Answer α → Reply
  | .ok v => f v
  | .err e => .error (.transportError e)

end Sys2Proof.Machine
end

