-- ==== Sys2Proof/Machine/ArmCore.lean ====
section
/-! DEFINITION. The meanings of the A32 templates of spec/40_enc_arm_core.md: the emission of the word of each rule's
formula, for operands of any value (R61, R62). -/

namespace Sys2Proof.Machine

/-- R80: ARM_MOV(Rd, Rm). -/
def execArmMov (rd rm : Word) (s : State) : Host.Outcome State Fault Refusal :=
  s.emit (0xE1A00000 ||| rm ||| place rd 12)

/-- R81: ARM_LDMIA(Rn, List, S, W). -/
def execArmLdmia (rn list sb w : Word) (s : State) : Host.Outcome State Fault Refusal :=
  s.emit (0xE8900000 ||| place sb 22 ||| place w 21 ||| place rn 16 ||| list)

/-- R82: ARM_STMIA(Rn, List, S, W). -/
def execArmStmia (rn list sb w : Word) (s : State) : Host.Outcome State Fault Refusal :=
  s.emit (0xE8800000 ||| place sb 22 ||| place w 21 ||| place rn 16 ||| list)

/-- R83: ARM_LDR(Rd, Rn). -/
def execArmLdr (rd rn : Word) (s : State) : Host.Outcome State Fault Refusal :=
  s.emit (0xE5900000 ||| place rd 12 ||| place rn 16)

/-- R84: ARM_STR(Rd, Rn). -/
def execArmStr (rd rn : Word) (s : State) : Host.Outcome State Fault Refusal :=
  s.emit (0xE5800000 ||| place rd 12 ||| place rn 16)

/-- R85: ARM_BKPT(Im), the one template that masks its operand. -/
def execArmBkpt (im : Word) (s : State) : Host.Outcome State Fault Refusal :=
  s.emit (0xE1200070 ||| breakpointImmediate im)

end Sys2Proof.Machine
end

