-- ==== Sys2Proof/Machine/ArmOther.lean ====
section
/-! DEFINITION. The meanings of the A32 templates of spec/41_enc_arm_other.md: the emission of the word of each rule's
formula, for operands of any value (R61, R62). -/

namespace Sys2Proof.Machine

/-- R90: ARM_NOP, a constant. -/
def execArmNop (s : State) : Host.Outcome State Fault Refusal := s.emit 0xE1A08008

/-- R91: ARM_MOV_IM(Rd, Rotate, Im). -/
def execArmMovIm (rd rotate im : Word) (s : State) : Host.Outcome State Fault Refusal :=
  s.emit (0xE3A00000 ||| place rd 12 ||| place rotate 8 ||| im)

/-- R92: ARM_B(Im, L). -/
def execArmB (im l : Word) (s : State) : Host.Outcome State Fault Refusal :=
  s.emit (0xEA000000 ||| im ||| place l 24)

/-- R93: ARM_BX(Rm). -/
def execArmBx (rm : Word) (s : State) : Host.Outcome State Fault Refusal :=
  s.emit (0xE12FFF10 ||| rm)

/-- R94: ARM_MRS(Rd, R). -/
def execArmMrs (rd r : Word) (s : State) : Host.Outcome State Fault Refusal :=
  s.emit (0xE10F0000 ||| place r 22 ||| place rd 12)

/-- R95: ARM_MSR_GP(Rm, Field, R). -/
def execArmMsrGp (rm fieldMask r : Word) (s : State) : Host.Outcome State Fault Refusal :=
  s.emit (0xE120F000 ||| rm ||| place fieldMask 16 ||| place r 22)

/-- R96: ARM_MSR_IM(Im, Rotate, Field, R). -/
def execArmMsrIm (im rotate fieldMask r : Word) (s : State) : Host.Outcome State Fault Refusal :=
  s.emit (0xE320F000 ||| im ||| place rotate 8 ||| place fieldMask 16 ||| place r 22)

/-- R97: ARM_MRC(CP, op1, Rd, CRn, CRm, op2). -/
def execArmMrc (cp op1 rd crn crm op2 : Word) (s : State) : Host.Outcome State Fault Refusal :=
  s.emit (0xEE100010 ||| crm ||| place op2 5 ||| place cp 8 ||| place rd 12 ||| place crn 16 ||| place op1 21)

/-- R98: ARM_MCR(CP, op1, Rd, CRn, CRm, op2). -/
def execArmMcr (cp op1 rd crn crm op2 : Word) (s : State) : Host.Outcome State Fault Refusal :=
  s.emit (0xEE000010 ||| crm ||| place op2 5 ||| place cp 8 ||| place rd 12 ||| place crn 16 ||| place op1 21)

/-- R99: ARM_LDRW_IP(Rd, Rn). -/
def execArmLdrwIp (rd rn : Word) (s : State) : Host.Outcome State Fault Refusal :=
  s.emit (0xE4900004 ||| place rd 12 ||| place rn 16)

/-- R100: ARM_LDRH_IP(Rd, Rn). -/
def execArmLdrhIp (rd rn : Word) (s : State) : Host.Outcome State Fault Refusal :=
  s.emit (0xE0D000B2 ||| place rd 12 ||| place rn 16)

/-- R101: ARM_LDRB_IP(Rd, Rn). -/
def execArmLdrbIp (rd rn : Word) (s : State) : Host.Outcome State Fault Refusal :=
  s.emit (0xE4D00001 ||| place rd 12 ||| place rn 16)

/-- R102: ARM_STRW_IP(Rd, Rn). -/
def execArmStrwIp (rd rn : Word) (s : State) : Host.Outcome State Fault Refusal :=
  s.emit (0xE4800004 ||| place rd 12 ||| place rn 16)

/-- R103: ARM_STRH_IP(Rd, Rn). -/
def execArmStrhIp (rd rn : Word) (s : State) : Host.Outcome State Fault Refusal :=
  s.emit (0xE0C000B2 ||| place rd 12 ||| place rn 16)

/-- R104: ARM_STRB_IP(Rd, Rn). -/
def execArmStrbIp (rd rn : Word) (s : State) : Host.Outcome State Fault Refusal :=
  s.emit (0xE4C00001 ||| place rd 12 ||| place rn 16)

end Sys2Proof.Machine
end

