-- ==== Sys2Proof/Machine/Thumb.lean ====
section
/-! DEFINITION. The meanings of the T16x2 templates of spec/42_enc_thumb.md: the halfword of each rule's formula, formed
as a 32-bit value and duplicated by R63, for operands of any value (R61, R62). -/

namespace Sys2Proof.Machine

/-- R110: T_MOV(Rd, Rm, H1, H2). -/
def execTMov (rd rm h1 h2 : Word) (s : State) : Host.Outcome State Fault Refusal :=
  s.emit (dup (0x4600 ||| rd ||| place rm 3 ||| place h2 6 ||| place h1 7))

/-- R111: T_MOV_IM(Rd, Im). -/
def execTMovIm (rd im : Word) (s : State) : Host.Outcome State Fault Refusal :=
  s.emit (dup (0x2000 ||| place rd 8 ||| im))

/-- R112: T_LDMIA(Rn, List). -/
def execTLdmia (rn list : Word) (s : State) : Host.Outcome State Fault Refusal :=
  s.emit (dup (0xC800 ||| place rn 8 ||| list))

/-- R113: T_STMIA(Rn, List). -/
def execTStmia (rn list : Word) (s : State) : Host.Outcome State Fault Refusal :=
  s.emit (dup (0xC000 ||| place rn 8 ||| list))

/-- R114: T_LDR(Rd, Rn). -/
def execTLdr (rd rn : Word) (s : State) : Host.Outcome State Fault Refusal :=
  s.emit (dup (0x6800 ||| place rn 3 ||| rd))

/-- R115: T_STR(Rd, Rn). -/
def execTStr (rd rn : Word) (s : State) : Host.Outcome State Fault Refusal :=
  s.emit (dup (0x6000 ||| place rn 3 ||| rd))

/-- R116: T_LDR_PCREL(Rd). -/
def execTLdrPcrel (rd : Word) (s : State) : Host.Outcome State Fault Refusal :=
  s.emit (dup (0x4800 ||| place rd 8))

/-- R117: T_NOP, a constant. -/
def execTNop (s : State) : Host.Outcome State Fault Refusal := s.emit 0x46C046C0

/-- R118: T_BX(Rm). -/
def execTBx (rm : Word) (s : State) : Host.Outcome State Fault Refusal :=
  s.emit (dup (0x4700 ||| place rm 3))

/-- R119: T_B(Imm). -/
def execTB (imm : Word) (s : State) : Host.Outcome State Fault Refusal :=
  s.emit (dup (0xE000 ||| imm))

/-- R120: T_BKPT(Im). -/
def execTBkpt (im : Word) (s : State) : Host.Outcome State Fault Refusal :=
  s.emit (dup (0xBE00 ||| im))

end Sys2Proof.Machine
end

