-- ==== Sys2Proof/Machine/Dispatch.lean ====
section
/-! DEFINITION. exec: one arm per template, each one call of its meaning. -/

namespace Sys2Proof.Machine

open Sys2Proof

def exec (i : Instr) (s : State) : Host.Outcome State Fault Refusal :=
  match i with
  | .armNop => Sys2Proof.Machine.execArmNop s
  | .armMov rd rm => Sys2Proof.Machine.execArmMov rd rm s
  | .armLdmia rn list sb w => Sys2Proof.Machine.execArmLdmia rn list sb w s
  | .armStmia rn list sb w => Sys2Proof.Machine.execArmStmia rn list sb w s
  | .armLdr rd rn => Sys2Proof.Machine.execArmLdr rd rn s
  | .armStr rd rn => Sys2Proof.Machine.execArmStr rd rn s
  | .armBkpt im => Sys2Proof.Machine.execArmBkpt im s
  | .armMovIm rd rotate im => Sys2Proof.Machine.execArmMovIm rd rotate im s
  | .armB im l => Sys2Proof.Machine.execArmB im l s
  | .armBx rm => Sys2Proof.Machine.execArmBx rm s
  | .armMrs rd r => Sys2Proof.Machine.execArmMrs rd r s
  | .armMsrGp rm field r => Sys2Proof.Machine.execArmMsrGp rm field r s
  | .armMsrIm im rotate field r => Sys2Proof.Machine.execArmMsrIm im rotate field r s
  | .armMrc cp op1 rd crn crm op2 => Sys2Proof.Machine.execArmMrc cp op1 rd crn crm op2 s
  | .armMcr cp op1 rd crn crm op2 => Sys2Proof.Machine.execArmMcr cp op1 rd crn crm op2 s
  | .armLdrwIp rd rn => Sys2Proof.Machine.execArmLdrwIp rd rn s
  | .armLdrhIp rd rn => Sys2Proof.Machine.execArmLdrhIp rd rn s
  | .armLdrbIp rd rn => Sys2Proof.Machine.execArmLdrbIp rd rn s
  | .armStrwIp rd rn => Sys2Proof.Machine.execArmStrwIp rd rn s
  | .armStrhIp rd rn => Sys2Proof.Machine.execArmStrhIp rd rn s
  | .armStrbIp rd rn => Sys2Proof.Machine.execArmStrbIp rd rn s
  | .tNop => Sys2Proof.Machine.execTNop s
  | .tMov rd rm h1 h2 => Sys2Proof.Machine.execTMov rd rm h1 h2 s
  | .tMovIm rd im => Sys2Proof.Machine.execTMovIm rd im s
  | .tLdmia rn list => Sys2Proof.Machine.execTLdmia rn list s
  | .tStmia rn list => Sys2Proof.Machine.execTStmia rn list s
  | .tLdr rd rn => Sys2Proof.Machine.execTLdr rd rn s
  | .tStr rd rn => Sys2Proof.Machine.execTStr rd rn s
  | .tLdrPcrel rd => Sys2Proof.Machine.execTLdrPcrel rd s
  | .tBx rm => Sys2Proof.Machine.execTBx rm s
  | .tB imm => Sys2Proof.Machine.execTB imm s
  | .tBkpt im => Sys2Proof.Machine.execTBkpt im s

end Sys2Proof.Machine
end

