-- ==== Sys2Proof/Machine/CoreOps.lean ====
section
/-! DEFINITION. Unit U3, first half: construction of the register cache and the operations of the core state object. Each
gives its result and the state after it. -/

namespace Sys2Proof.Machine

/-- The sequencer registers at their reset values. R28, R171, R180. -/
def State.sequencerReset (s : State) : State :=
  { s with phase := .idle, req := none, regSlots := [], saveList := [], bp := none, primary := none, harvest := [], diag := [] }

/-- `build_register_cache` as `construct` uses it: all or nothing. R150, R230; log 28. What the fields hold after OutOfMemory is a
DESIGN CHOICE (log 15): the construction values, and HAS_MON of the descriptor that failed, which MAP of a named mode then reads. -/
def buildRegisterCache (hasMon : Bool) (s : State) : Res Unit × State :=
  let fresh := { s.sequencerReset with
    params := { s.params with hasMon := hasMon }, coreMode := .usr, coreState := .arm }
  if s.params.allocOk then (.ok (), { fresh with built := true, cache := freshCache hasMon })
  else (.err .outOfMemory, { fresh with built := false, cache := [] })

/-- `set_mode(mode)`: bookkeeping only. R151. -/
def setMode (m : ProcessorMode) (s : State) : Res Unit × State :=
  if modeSupported s.params.hasMon m then (.ok (), { s with coreMode := m }) else (.err .invalidMode, s)

/-- `set_mode` on an operand that may be a raw code. R151. -/
def setModeOperand (m : ModeOperand) (s : State) : Res Unit × State :=
  match m.mode? with
  | some m => setMode m s
  | none => (.err .invalidMode, s)

/-- `set_state(state)`: bookkeeping only, cannot fail. R152. -/
def setState (st : ProcessorState) (s : State) : State := { s with coreState := st }

/-- `set_cpsr(raw)`: mode, state and CPSR entry together, or nothing. R153. -/
def setCpsr (raw : Word) (s : State) : Res Unit × State :=
  let code := cpsrModeField raw
  if isValidMode code = false then (.err .invalidMode, s)
  else
    match modeOfCode code with
    | none => (.err .invalidMode, s)
    | some m =>
      if modeSupported s.params.hasMon m = false then (.err .invalidMode, s)
      else
        (.ok (),
          { s with coreMode := m, coreState := stateOfBits (cpsrT raw) (cpsrJ raw) }.setEntry cpsrSlot
            ((s.entry cpsrSlot).agree raw))

/-- `read_register` on a slot: from the cache when valid, else through the hook. R154. -/
def readSlot (slot : Nat) (s : State) : Answer Word × State :=
  if (s.entry slot).valid then (.ok (s.entry slot).value, s)
  else
    match s.transport.readRegister slot with
    | (.ok v, t) => (.ok v, (s.withTransport t).setEntry slot ((s.entry slot).filled v))
    | (.err e, t) => (.err e, s.withTransport t)

/-- `write_register` on a slot: into the cache when valid, else through the hook; dirty in both cases. R155. -/
def writeSlot (slot : Nat) (v : Word) (s : State) : Answer Unit × State :=
  if (s.entry slot).valid then (.ok (), s.setEntry slot ((s.entry slot).pending v))
  else
    match s.transport.writeRegister slot v with
    | (.ok _, t) => (.ok (), (s.withTransport t).setEntry slot ((s.entry slot).pending v))
    | (.err e, t) => (.err e, s.withTransport t)

/-- `flush_slot(s)`: the loop body of `flush` for one dirty entry. R156. -/
def flushSlot (slot : Nat) (s : State) : Answer Unit × State :=
  match s.transport.writeRegister slot (s.entry slot).value with
  | (.ok _, t) => (.ok (), (s.withTransport t).setEntry slot (s.entry slot).clean)
  | (.err e, t) => (.err e, s.withTransport t)

/-- The loop of `flush` over the given slots: stops at the first failure. R156. -/
def flushSlots : List Nat → State → Answer Unit × State
  | [], s => (.ok (), s)
  | slot :: rest, s =>
    if (s.entry slot).dirty then
      match flushSlot slot s with
      | (.ok _, s') => flushSlots rest s'
      | (.err e, s') => (.err e, s')
    else flushSlots rest s

/-- `flush()`: every dirty entry, in ascending slot order. R156. -/
def flush (s : State) : Answer Unit × State := flushSlots (List.range s.slots) s

/-- `full_context_refresh()`: all entries become valid, the clean ones with the hook's values; or nothing changes. R157. -/
def fullContextRefresh (s : State) : Answer Unit × State :=
  match s.transport.refreshHook s.slots with
  | (.ok vals, t) =>
    (.ok (), { s.withTransport t with cache := s.cache.mapIdx fun i e => e.refreshed (vals.getD i e.value) })
  | (.err e, t) => (.err e, s.withTransport t)

/-- `invalidate_all()`: both flags of every entry cleared; the values become unspecified, which is a free value. R158, U6;
log 7. -/
def invalidateAll (s : State) : State :=
  { s with cache := s.cache.mapIdx fun i e => e.forgotten (Config.forgottenValue s.free i), free := s.free + 1 }

/-- `mrc(cp, op1, op2, crn, crm)`: one hook call, passed through. R159. DESIGN CHOICE: the spec
gives the five fields names and expected ranges and no width (N38, D46); they are 32-bit values here, unchecked (log 25). -/
def mrc (cp op1 op2 crn crm : Word) (s : State) : Answer Word × State :=
  match s.transport.cpRead cp op1 op2 crn crm with
  | (a, t) => (a, s.withTransport t)

/-- `mcr(cp, op1, op2, crn, crm, v)`: one hook call; the cache is not touched. R160. DESIGN
CHOICE: the five fields are 32-bit values, unchecked, as in `mrc` (log 25). -/
def mcr (cp op1 op2 crn crm v : Word) (s : State) : Answer Unit × State :=
  match s.transport.cpWrite cp op1 op2 crn crm v with
  | (a, t) => (a, s.withTransport t)

/-- `register_list()`. R27, R161. -/
def registerList (s : State) : List RegisterDescriptor :=
  s.cache.map fun e => { name := e.name, width := e.width, value := e.value, dirty := e.dirty }

/-- `x[m, n]`: a register read through the banking multiplexer. R7. -/
def readBanked (m : ProcessorMode) (n : Nat) (s : State) : Res Word × State :=
  match mapRegister s.params.hasMon s.coreMode m n with
  | .err e => (.err e, s)
  | .ok slot =>
    match readSlot slot s with
    | (.ok v, s') => (.ok v, s')
    | (.err e, s') => (.err (.transportError e), s')

/-- `x[m, n] <- v`: a register write through the banking multiplexer. R7. -/
def writeBanked (m : ProcessorMode) (n : Nat) (v : Word) (s : State) : Res Unit × State :=
  match mapRegister s.params.hasMon s.coreMode m n with
  | .err e => (.err e, s)
  | .ok slot =>
    match writeSlot slot v s with
    | (.ok _, s') => (.ok (), s')
    | (.err e, s') => (.err (.transportError e), s')

end Sys2Proof.Machine
end

