-- ==== Sys2Proof/Machine/Sequencer.lean ====
section
/-! DEFINITION. Unit U3, second half: the context save/restore sequencer. Each phase of R171 is one function of the state;
`phaseStep` takes one transition of that table, and `runPhases` the whole walk back to IDLE, which is one command (R235).
The run's entry (Prepare to Resume) stands where a processor would take an exception, Cleanup where it would return from
one (R206, R207). -/

namespace Sys2Proof.Machine

/-- `PC_ENTRY_FN(state, entry)`. R175; log 8. -/
def pcEntry (f : PcEntryFn) (st : ProcessorState) (entry : Word) : Word :=
  match f with
  | .custom k => Config.customPcEntry k st entry
  | .standard =>
    match st with
    | .arm => entry
    | .thumb => entry &&& 0xFFFFFFFE
    | .jazelle => entry
    | .thumbEE => entry &&& 0xFFFFFFFE

/-- The later occurrences of a slot already in the list are removed. R172. -/
def dedupKeepFirst : List Nat → List Nat
  | [] => []
  | x :: xs => x :: (dedupKeepFirst xs).filter (fun y => decide (y ≠ x))

/-- The slots of the register parameters, in order; the first failure decides. R172, R205 (c). -/
def resolveSlots (hasMon : Bool) (coreMode : ProcessorMode) : List RegParam → Res (List Nat)
  | [] => .ok []
  | p :: rest =>
    match mapRegister hasMon coreMode p.mode p.regnum with
    | .err e => .err e
    | .ok slot =>
      match resolveSlots hasMon coreMode rest with
      | .err e => .err e
      | .ok slots => .ok (slot :: slots)

/-- The snapshot loop: reads the slots in order, stopping at the first failure. R172. -/
def snapshot : List Nat → State → Answer (List (Nat × Word)) × State
  | [], s => (.ok [], s)
  | slot :: rest, s =>
    match readSlot slot s with
    | (.err e, s') => (.err e, s')
    | (.ok v, s') =>
      match snapshot rest s' with
      | (.err e, s'') => (.err e, s'')
      | (.ok saved, s'') => (.ok ((slot, v) :: saved), s'')

/-- The cause of a failed resolution. R172: "e is InvalidMode or InvalidIndex". -/
def prepareCauseOf : Error → PrepareCause
  | .invalidIndex => .invalidIndex
  | _ => .invalidMode

/-- The save-list's slots: those of the parameters, then the PC and the CPSR, each once. R172. -/
def saveSlots (slots : List Nat) : List Nat := dedupKeepFirst (slots ++ [pcSlot, cpsrSlot])

/-- Phase Prepare up to its result. R172. -/
def prepare (req : RunRequest) (s : State) : Except PrepareCause Unit × State :=
  let s := { s with diag := [], harvest := [], bp := none, primary := none }
  if s.coreState = .jazelle ∨ s.coreState = .thumbEE then (.error .unsupportedState, s)
  else if s.coreState = .arm ∧ (req.entry.toNat % 4 ≠ 0 ∨ req.exit.toNat % 4 ≠ 0) then (.error .badAddress, s)
  else
    match resolveSlots s.params.hasMon s.coreMode req.regParams with
    | .err e => (.error (prepareCauseOf e), s)
    | .ok slots =>
      match snapshot (saveSlots slots) s with
      | (.ok saved, s') => (.ok (), { s' with regSlots := slots, saveList := saved })
      | (.err e, s') => (.error (.transportError e), { s' with saveList := [] })

/-- Install, memory parameters: the input ones are written in order. R173. -/
def installMemory : List MemParam → State → Answer Unit × State
  | [], s => (.ok (), s)
  | p :: rest, s =>
    if p.dir.writes then
      match s.transport.memWrite p.addr p.size p.value with
      | (.ok _, t) => installMemory rest (s.withTransport t)
      | (.err e, t) => (.err e, s.withTransport t)
    else installMemory rest s

/-- Install, register parameters: the input ones are written to the cache in order; every entry is valid after Prepare, so
none can fail. R173. -/
def installRegisters : List (RegParam × Nat) → State → State
  | [], s => s
  | (p, slot) :: rest, s =>
    if p.dir.writes then installRegisters rest (writeSlot slot p.value s).2 else installRegisters rest s

/-- `Restore(s, v)`: the entry takes the saved value, pending, and is flushed; a failure is a diagnostic. R179. -/
def restore (slot : Nat) (v : Word) (s : State) : State :=
  match flushSlot slot (s.setEntry slot ((s.entry slot).pending v)) with
  | (.ok _, s') => s'
  | (.err e, s') => { s' with diag := s'.diag ++ [{ what := .restore slot, error := .transportError e }] }

/-- The restore loop over a save-list: `Rollback` and step 2 of Cleanup. A failure does not stop it. R178, R179. -/
def restoreAll : List (Nat × Word) → State → State
  | [], s => s
  | (slot, v) :: rest, s => restoreAll rest (restore slot v s)

/-- `Rollback()`. R179. -/
def rollback (s : State) : State := restoreAll s.saveList s

/-- The diagnostic counts for `fatal`. R180. -/
def DiagWhat.escalates : DiagWhat → Bool
  | .restore _ => true
  | .removeBreakpoint => true
  | .forcedHalt => false
  | .refresh => false
  | .resync => false

/-- The result a run returns, with its harvested outputs only after a success. R180; log 14. -/
def runResult (o : RunOutcome) (s : State) : AlgorithmResult :=
  { outcome := o
    outputs := s.harvest
    diagnostics := s.diag
    fatal := s.params.cleanupFailureFatal && s.diag.any (fun d => d.what.escalates) }

/-- `Finish()`: the result is returned and the sequencer registers go back to their reset values. R171, R180. -/
def finish (o : RunOutcome) (s : State) : State := s.sequencerReset.answer (.run (runResult o s))

/-- The halt is at the exit breakpoint: `Breakpoint(h)` with `h` equal to `bp`. R176. -/
def atExit (bp : Option Nat) : HaltCause → Bool
  | .breakpoint h => decide (bp = some h)
  | .other _ => false

/-- Row PREPARE of R171. -/
def preparePhase (req : RunRequest) (s : State) : State :=
  match prepare req s with
  | (.ok _, s') => { s' with phase := .install }
  | (.error c, s') => finish (.failed (.prepareFailed c)) s'

/-- Row INSTALL of R171. R173. -/
def installPhase (req : RunRequest) (s : State) : State :=
  match installMemory req.memParams s with
  | (.err e, s') => finish (.failed (.transportError e)) (rollback s')
  | (.ok _, s') => { installRegisters (req.regParams.zip s'.regSlots) s' with phase := .armExit }

/-- The address of the exit breakpoint. R174. -/
def exitAddress (st : ProcessorState) (exit : Word) : Word := if st = .thumb then exit &&& 0xFFFFFFFE else exit

/-- Row ARM_EXIT of R171. R174. -/
def armExitPhase (req : RunRequest) (s : State) : State :=
  match s.transport.setBreakpoint (exitAddress s.coreState req.exit) with
  | (.ok h, t) => { s.withTransport t with bp := some h, phase := .resume }
  | (.err e, t) => finish (.failed (.breakpointSetupFailed e)) (rollback (s.withTransport t))

/-- Row RESUME of R171: the PC, the flush, the resume. R175. -/
def resumePhase (req : RunRequest) (s : State) : State :=
  let s := (writeSlot pcSlot (pcEntry s.params.pcEntry s.coreState req.entry) s).2
  match flush s with
  | (.err e, s') => { s' with primary := some (.failed (.transportError e)), phase := .cleanup }
  | (.ok _, s') =>
    match s'.transport.resume with
    | (.err e, t) => { s'.withTransport t with primary := some (.failed (.transportError e)), phase := .cleanup }
    | (.ok _, t) => { invalidateAll (s'.withTransport t) with phase := .await }

/-- Row AWAIT of R171: one poll, three outcomes. R176. -/
def awaitPhase (req : RunRequest) (s : State) : State :=
  match s.transport.pollHalted req.timeout with
  | (.halted c, t) =>
    if atExit s.bp c then { s.withTransport t with primary := some .success, phase := .harvest }
    else { s.withTransport t with primary := some (.targetFault c), phase := .cleanup }
  | (.timeout, t) =>
    match t.halt with
    | (.ok _, t') => { s.withTransport t' with primary := some .executionTimeout, phase := .cleanup }
    | (.err e, t') =>
      { s.withTransport t' with
        primary := some .executionTimeout, phase := .cleanup,
        diag := s.diag ++ [{ what := .forcedHalt, error := .transportError e }] }

/-- Harvest, memory parameters: every output one is attempted. R177. -/
def harvestMemory : List MemParam → State → State
  | [], s => s
  | p :: rest, s =>
    if p.dir.reads then
      match s.transport.memRead p.addr p.size with
      | (a, t) => harvestMemory rest { s.withTransport t with harvest := s.harvest ++ [.mem p a] }
    else harvestMemory rest s

/-- Harvest, register parameters: every output one is attempted. R177. -/
def harvestRegisters : List (RegParam × Nat) → State → State
  | [], s => s
  | (p, slot) :: rest, s =>
    if p.dir.reads then
      match readSlot slot s with
      | (a, s') => harvestRegisters rest { s' with harvest := s'.harvest ++ [.reg p a] }
    else harvestRegisters rest s

/-- Row HARVEST of R171: memory first, then registers. R177. -/
def harvestPhase (req : RunRequest) (s : State) : State :=
  { harvestRegisters (req.regParams.zip s.regSlots) (harvestMemory req.memParams s) with phase := .cleanup }

/-- Cleanup, step 1. R178. -/
def removeExitBreakpoint (s : State) : State :=
  match s.bp with
  | none => s
  | some h =>
    match s.transport.removeBreakpoint h with
    | (.ok _, t) => { s.withTransport t with bp := none }
    | (.err e, t) =>
      { s.withTransport t with bp := none, diag := s.diag ++ [{ what := .removeBreakpoint, error := .transportError e }] }

/-- Cleanup, step 3. R178. -/
def cleanupRefresh (s : State) : State :=
  match fullContextRefresh s with
  | (.ok _, s') => s'
  | (.err e, s') => { s' with diag := s'.diag ++ [{ what := .refresh, error := .transportError e }] }

/-- Cleanup, step 4: mode and state follow the CPSR entry, whose dirty flag stays. R178. -/
def resync (s : State) : State :=
  match setCpsr (s.entry cpsrSlot).value s with
  | (.ok _, s') => s'.setEntry cpsrSlot { s'.entry cpsrSlot with dirty := (s.entry cpsrSlot).dirty }
  | (.err _, s') => { s' with diag := s'.diag ++ [{ what := .resync, error := .invalidMode }] }

/-- The four steps of Cleanup, in order, each attempted whatever the earlier ones did. R178. -/
def cleanup (s : State) : State := resync (cleanupRefresh (rollback (removeExitBreakpoint s)))

/-- One transition of the table of R171. -/
def phaseStep (s : State) : Host.Outcome State Fault Refusal :=
  match s.phase, s.req with
  | .idle, _ => .next s
  | _, none => .fault .runWithoutRequest
  | .prepare, some req => .next (preparePhase req s)
  | .install, some req => .next (installPhase req s)
  | .armExit, some req => .next (armExitPhase req s)
  | .resume, some req => .next (resumePhase req s)
  | .await, some req => .next (awaitPhase req s)
  | .harvest, some req => .next (harvestPhase req s)
  | .cleanup, some _ =>
    match s.primary with
    | none => .fault .cleanupWithoutOutcome
    | some o => .next (finish o (cleanup s))

/-- At most `n` transitions of R171, ending at IDLE. -/
def runPhases : Nat → State → Host.Outcome State Fault Refusal
  | 0, s => .next s
  | n + 1, s =>
    if s.phase = .idle then .next s
    else
      match phaseStep s with
      | .next s' => runPhases n s'
      | .fault f => .fault f
      | .refused r => .refused r

/-- The seven phases of R171 are enough to come back to IDLE from any of them. -/
def phaseCount : Nat := 7

/-- An accepted request enters the sequencer: IDLE to PREPARE. R171. -/
def beginRun (req : RunRequest) (s : State) : State := { s with req := some req, phase := .prepare }

/-- Every memory parameter ends within the 32-bit address space. U9, R170. -/
def memParamsInSpace (req : RunRequest) : Bool :=
  req.memParams.all fun p => decide (p.addr.toNat + p.size ≤ 2 ^ 32)

/-- Every input memory parameter carries a byte string of its size. R170. -/
def memParamsSized (req : RunRequest) : Bool :=
  req.memParams.all fun p => !p.dir.writes || decide (p.value.length = p.size)

/-- `run_algorithm(req)`: one command from IDLE back to IDLE. R171, R235. -/
def runAlgorithm (req : RunRequest) (s : State) : Host.Outcome State Fault Refusal :=
  if memParamsInSpace req = false then .refused .memoryParamPastTop
  else if memParamsSized req = false then .refused .memoryParamLength
  else runPhases phaseCount (beginRun req s)

/-- The error of the taxonomy that a run's result stands for, if any. R200. -/
def AlgorithmResult.error? (r : AlgorithmResult) : Option Error :=
  match r.outcome with
  | .success => none
  | .targetFault c => some (.targetFault c)
  | .executionTimeout => some .executionTimeout
  | .failed (.prepareFailed c) => some (.prepareFailed c)
  | .failed (.breakpointSetupFailed e) => some (.breakpointSetupFailed e)
  | .failed (.transportError e) => some (.transportError e)

end Sys2Proof.Machine
end

