-- ==== Sys2Proof/Machine/Commands.lean ====
section
/-! DEFINITION. Serving one command of the caller: the operations of R72. Commands are symbolic; the one that carries bytes
is the model's own (log 3). -/

namespace Sys2Proof.Machine

/-- An operation that needs a block instance: after a failed construction none is defined. R150; log 15. -/
def withInstance (s : State) (o : Host.Outcome State Fault Refusal) : Host.Outcome State Fault Refusal :=
  if s.built then o else .refused .noInstance

/-- An operation on a view: its slot must be one of the cache (R7); log 17. -/
def withSlot (s : State) (v : RegisterView) (o : Host.Outcome State Fault Refusal) : Host.Outcome State Fault Refusal :=
  withInstance s (if v.slot < s.slots then o else .refused .noSuchSlot)

/-- The operand needs the current mode, which only an instance has. R141, R150. -/
def ModeOperand.needsInstance (m : ModeOperand) : Bool := decide (m.mode? = some .any)

/-- What is left of a byte string after one template call goes back to the head of the inbox. Log 3. -/
def requeue (f : Format) (rest : List Byte) (s : State) : State :=
  match rest with
  | [] => s
  | b :: bs => { s with inbox := .image f (b :: bs) :: s.inbox }

/-- The first word of the byte string names a template call, which runs. R43, R70; log 3. -/
def runImage (f : Format) (bytes : List Byte) (s : State) : Host.Outcome State Fault Refusal :=
  match decodeBytes s.params.endian f bytes with
  | .ok (i, rest) => exec i (requeue f rest s)
  | .error e => .refused (.undecodable e)

/-- One command, from its acceptance to its reply. R72, R235. -/
def serve (c : Command) (s : State) : Host.Outcome State Fault Refusal :=
  match c with
  | .template i => exec i s
  | .image f bytes => runImage f bytes s
  | .modeToIndex m => .next (s.answer ((operandToIndex m).reply .index))
  | .indexToMode i => .next (s.answer ((indexToMode i).reply .mode))
  | .modeName m => .next (s.answer (.name (operandName m)))
  | .isValidMode v => .next (s.answer (.bool (isValidMode v)))
  | .map m n =>
    let o := .next (s.answer ((mapOperand s.params.hasMon s.coreMode m n).reply .slot))
    if m.needsInstance then withInstance s o else o
  | .currentRegister n =>
    withInstance s (.next (s.answer ((currentRegister s.params.hasMon s.coreMode n).reply .view)))
  | .buildRegisterCache hasMon =>
    let r := buildRegisterCache hasMon s
    .next (r.2.answer (r.1.reply fun _ => .done))
  | .setMode m =>
    let r := setModeOperand m s
    withInstance s (.next (r.2.answer (r.1.reply fun _ => .done)))
  | .setState st => withInstance s (.next ((setState st s).answer .done))
  | .setCpsr raw =>
    let r := setCpsr raw s
    withInstance s (.next (r.2.answer (r.1.reply fun _ => .done)))
  | .readRegister v =>
    let r := readSlot v.slot s
    withSlot s v (.next (r.2.answer (r.1.reply .value)))
  | .writeRegister v x =>
    let r := writeSlot v.slot x s
    withSlot s v (.next (r.2.answer (r.1.reply fun _ => .done)))
  | .flush =>
    let r := flush s
    withInstance s (.next (r.2.answer (r.1.reply fun _ => .done)))
  | .fullContextRefresh =>
    let r := fullContextRefresh s
    withInstance s (.next (r.2.answer (r.1.reply fun _ => .done)))
  | .mrc cp op1 op2 crn crm =>
    let r := mrc cp op1 op2 crn crm s
    withInstance s (.next (r.2.answer (r.1.reply .value)))
  | .mcr cp op1 op2 crn crm v =>
    let r := mcr cp op1 op2 crn crm v s
    withInstance s (.next (r.2.answer (r.1.reply fun _ => .done)))
  | .registerList => withInstance s (.next (s.answer (.registers (registerList s))))
  | .runAlgorithm req => withInstance s (runAlgorithm req s)

end Sys2Proof.Machine
end

