-- ==== Sys2Proof/Machine/Step.lean ====
section
/-! DEFINITION. The step: an unfinished run goes on to its end; else the oldest command is served; with none the block is
quiescent (R9, R171, R235; log 2, log 13). And how an instruction of the opcode table is put where the next step runs it. -/

namespace Sys2Proof.Machine

/-- One step of the block. R171, R235: a command is taken only in phase IDLE, and is served whole. -/
def step (s : State) : Host.Outcome State Fault Refusal :=
  if s.phase = .idle then
    match s.inbox with
    | [] => .next s
    | c :: rest => serve c { s with inbox := rest }
  else runPhases phaseCount s

/-- The caller's next command is the template call whose word, in the numbering of spec/opcode_table.json, is `w`: the word's
bytes in this instance's byte order stand at the head of the inbox, in phase IDLE. Log 3, log 11. -/
def State.withFetchWord (s : State) (nbits w : Nat) : State :=
  let image := tableImage nbits w
  { s with phase := .idle, inbox := .image image.1 (wordBytes s.params.endian image.2) :: s.inbox }

end Sys2Proof.Machine
end

