-- ==== Sys2Proof/Safety.lean ====
section
/-! DEFINITION. What a sound state of the block is, between two steps, in the terms the statements use. -/

namespace Sys2Proof.Machine

/-- The sequencer stands at its reset values: no run is in progress and no breakpoint is held. R28, R171, R216. -/
abbrev State.quiet (s : State) : Prop :=
  s.phase = .idle ∧ s.req = none ∧ s.regSlots = [] ∧ s.saveList = [] ∧ s.bp = none ∧ s.primary = none ∧
    s.harvest = [] ∧ s.diag = []

/-- "Invariant: `core_mode` is always a value for which the banking table has an entry". R18, R143. -/
abbrev State.modeOk (s : State) : Prop := modeSupported s.params.hasMon s.coreMode = true

/-- An entry is 32 bits wide and never dirty without being valid. R13, R14. -/
abbrev CacheEntry.ok (e : CacheEntry) : Prop := e.width = 32 ∧ (e.dirty = true → e.valid = true)

/-- The cache has the entries of R12 in their order, each sound; without an instance there is none. R11, R12, R150. -/
abbrev State.cacheOk (s : State) : Prop :=
  (s.cache.map fun e => e.name) = (if s.built then slotNames s.params.hasMon else []) ∧ ∀ e ∈ s.cache, e.ok

/-- The invariant that every step keeps. -/
abbrev State.Inv (s : State) : Prop := s.modeOk ∧ s.cacheOk ∧ s.quiet

/-- The command may issue transport or hook calls. R41, R154 to R157, R159, R160, R171. -/
def Command.mayCall : Command → Bool
  | .readRegister _ => true
  | .writeRegister _ _ => true
  | .flush => true
  | .fullContextRefresh => true
  | .mrc _ _ _ _ _ => true
  | .mcr _ _ _ _ _ _ => true
  | .runAlgorithm _ => true
  | .template _ => false
  | .image _ _ => false
  | .modeToIndex _ => false
  | .indexToMode _ => false
  | .modeName _ => false
  | .isValidMode _ => false
  | .map _ _ => false
  | .currentRegister _ => false
  | .buildRegisterCache _ => false
  | .setMode _ => false
  | .setState _ => false
  | .setCpsr _ => false
  | .registerList => false

/-- The operation is one of the core state object or the sequencer, or reads the current mode: it is defined only while an
instance exists. R72, R141, R144, R150 to R161, R170; log 15. -/
def Command.needsInstance : Command → Bool
  | .map m _ => decide (m = .known .any ∨ m = .raw 0xFFFFFFFF)
  | .currentRegister _ => true
  | .setMode _ => true
  | .setState _ => true
  | .setCpsr _ => true
  | .readRegister _ => true
  | .writeRegister _ _ => true
  | .flush => true
  | .fullContextRefresh => true
  | .mrc _ _ _ _ _ => true
  | .mcr _ _ _ _ _ _ => true
  | .registerList => true
  | .runAlgorithm _ => true
  | .template _ => false
  | .image _ _ => false
  | .modeToIndex _ => false
  | .indexToMode _ => false
  | .modeName _ => false
  | .isValidMode _ => false
  | .buildRegisterCache _ => false

/-- The slot of the view a command reads or writes, if it has one. R154, R155. -/
def Command.viewSlot? : Command → Option Nat
  | .readRegister v => some v.slot
  | .writeRegister v _ => some v.slot
  | _ => none

/-- A memory call is well formed: width 1, 2 or 4, at least one access, aligned, inside the 32-bit space. R42, R45. -/
def Transaction.memoryOk : Transaction → Bool
  | .readMemory addr size count _ => decide (size = 1 ∨ size = 2 ∨ size = 4) && decide (addr.toNat % size = 0) &&
      decide (0 < count) && decide (addr.toNat + size * count ≤ 2 ^ 32)
  | .writeMemory addr size count bytes _ => decide (size = 1 ∨ size = 2 ∨ size = 4) && decide (addr.toNat % size = 0) &&
      decide (0 < count) && decide (addr.toNat + size * count ≤ 2 ^ 32) && decide (bytes.length = size * count)
  | .readRegister _ _ => true
  | .pollHalted _ _ => true
  | .refreshHook _ => true
  | .cpRead _ _ _ _ _ _ => true
  | .writeRegister _ _ _ => true
  | .setBreakpoint _ _ => true
  | .removeBreakpoint _ _ => true
  | .resume _ => true
  | .halt _ => true
  | .cpWrite _ _ _ _ _ _ _ => true

/-- What one call does to the knowledge of a slot's value in the target: a completed write fixes it, a failed one loses it
(U7), and so does a resume, after which the target runs. R50 (3). -/
def noteCall (slot : Nat) (known : Option Word) : Transaction → Option Word
  | .writeRegister n v (.ok _) => if n = slot then some v else known
  | .writeRegister n _ (.err _) => if n = slot then none else known
  | .resume _ => none
  | _ => known

/-- The value that a record of calls, oldest first, fixes for a slot of the target, if any. R50 (3). -/
def lastWritten (slot : Nat) (log : List Transaction) : Option Word := log.foldl (noteCall slot) none

/-- The premise of R50 (3), as R182 uses it: a refresh answers, for a slot whose value the earlier calls fix, that value. -/
def RefreshTruthful (log : List Transaction) : Prop :=
  ∀ before vals after, log = before ++ .refreshHook (.ok vals) :: after →
    ∀ slot v, lastWritten slot before = some v → vals[slot]? = some v

/-- The breakpoints a record of calls has set and not tried to remove afterwards. R178, R181. -/
def leftSet : List Transaction → List Nat → List Nat
  | [], held => held
  | .setBreakpoint _ (.ok h) :: rest, held => leftSet rest (h :: held)
  | .removeBreakpoint h _ :: rest, held => leftSet rest (held.filter fun k => decide (k ≠ h))
  | _ :: rest, held => leftSet rest held

end Sys2Proof.Machine
end

