-- ==== Sys2Proof/Certificates/Slice0/Obligations.lean ====
section
/-! DEFINITION. The statements about the block. The encodings, mode codes and table entries that several of them rest on are
the spec's own rules, which mark them as general knowledge (spec/93_implementation_defined.md G1 to G5). -/

open Sys2Proof Sys2Proof.Machine

/-! ## Unit U1: the templates. A template reads nothing and changes nothing but the reply: the next states below are whole
states, so every other field of the state is unchanged. -/

/-- R80 to R85: the six templates emit the word of their formula for operands of any value, and always complete. -/
def Obligations.ArmTitleTemplatesEmit : Prop :=
  ∀ (s : State) (rd rm rn list sb w im : Word),
    exec (.armMov rd rm) s = .next { s with reply := some (.word (0xE1A00000#32 ||| rm ||| (rd <<< 12))) } ∧
    exec (.armLdmia rn list sb w) s =
      .next { s with reply := some (.word (0xE8900000#32 ||| (sb <<< 22) ||| (w <<< 21) ||| (rn <<< 16) ||| list)) } ∧
    exec (.armStmia rn list sb w) s =
      .next { s with reply := some (.word (0xE8800000#32 ||| (sb <<< 22) ||| (w <<< 21) ||| (rn <<< 16) ||| list)) } ∧
    exec (.armLdr rd rn) s = .next { s with reply := some (.word (0xE5900000#32 ||| (rd <<< 12) ||| (rn <<< 16))) } ∧
    exec (.armStr rd rn) s = .next { s with reply := some (.word (0xE5800000#32 ||| (rd <<< 12) ||| (rn <<< 16))) } ∧
    exec (.armBkpt im) s =
      .next { s with reply := some (.word (0xE1200070#32 ||| (((im &&& 0xFFF0#32) <<< 4) ||| (im &&& 0xF#32)))) }

/-- R90 to R93: no-op, move-immediate and the branches emit the word of their formula for operands of any value. -/
def Obligations.ArmMoveBranchTemplatesEmit : Prop :=
  ∀ (s : State) (rd rotate im l rm : Word),
    exec .armNop s = .next { s with reply := some (.word 0xE1A08008#32) } ∧
    exec (.armMovIm rd rotate im) s =
      .next { s with reply := some (.word (0xE3A00000#32 ||| (rd <<< 12) ||| (rotate <<< 8) ||| im)) } ∧
    exec (.armB im l) s = .next { s with reply := some (.word (0xEA000000#32 ||| im ||| (l <<< 24))) } ∧
    exec (.armBx rm) s = .next { s with reply := some (.word (0xE12FFF10#32 ||| rm)) }

/-- R94 to R98: the status-register moves and the coprocessor moves emit the word of their formula for operands of any value. -/
def Obligations.ArmSystemTemplatesEmit : Prop :=
  ∀ (s : State) (rd rm im rotate f r cp op1 crn crm op2 : Word),
    exec (.armMrs rd r) s = .next { s with reply := some (.word (0xE10F0000#32 ||| (r <<< 22) ||| (rd <<< 12))) } ∧
    exec (.armMsrGp rm f r) s =
      .next { s with reply := some (.word (0xE120F000#32 ||| rm ||| (f <<< 16) ||| (r <<< 22))) } ∧
    exec (.armMsrIm im rotate f r) s =
      .next { s with reply := some (.word (0xE320F000#32 ||| im ||| (rotate <<< 8) ||| (f <<< 16) ||| (r <<< 22))) } ∧
    exec (.armMrc cp op1 rd crn crm op2) s =
      .next { s with reply := some (.word
        (0xEE100010#32 ||| crm ||| (op2 <<< 5) ||| (cp <<< 8) ||| (rd <<< 12) ||| (crn <<< 16) ||| (op1 <<< 21))) } ∧
    exec (.armMcr cp op1 rd crn crm op2) s =
      .next { s with reply := some (.word
        (0xEE000010#32 ||| crm ||| (op2 <<< 5) ||| (cp <<< 8) ||| (rd <<< 12) ||| (crn <<< 16) ||| (op1 <<< 21))) }

/-- R99 to R104: the post-indexed loads and stores emit the word of their formula for operands of any value. -/
def Obligations.ArmPostIndexedTemplatesEmit : Prop :=
  ∀ (s : State) (rd rn : Word),
    exec (.armLdrwIp rd rn) s = .next { s with reply := some (.word (0xE4900004#32 ||| (rd <<< 12) ||| (rn <<< 16))) } ∧
    exec (.armLdrhIp rd rn) s = .next { s with reply := some (.word (0xE0D000B2#32 ||| (rd <<< 12) ||| (rn <<< 16))) } ∧
    exec (.armLdrbIp rd rn) s = .next { s with reply := some (.word (0xE4D00001#32 ||| (rd <<< 12) ||| (rn <<< 16))) } ∧
    exec (.armStrwIp rd rn) s = .next { s with reply := some (.word (0xE4800004#32 ||| (rd <<< 12) ||| (rn <<< 16))) } ∧
    exec (.armStrhIp rd rn) s = .next { s with reply := some (.word (0xE0C000B2#32 ||| (rd <<< 12) ||| (rn <<< 16))) } ∧
    exec (.armStrbIp rd rn) s = .next { s with reply := some (.word (0xE4C00001#32 ||| (rd <<< 12) ||| (rn <<< 16))) }

/-- R110 to R120, with the duplication of R63: every Thumb template emits `h | (h << 16)` for the `h` of its formula, for
operands of any value. -/
def Obligations.ThumbTemplatesEmit : Prop :=
  ∀ (s : State) (rd rm h1 h2 im rn list imm : Word),
    (let h := 0x4600#32 ||| rd ||| (rm <<< 3) ||| (h2 <<< 6) ||| (h1 <<< 7)
     exec (.tMov rd rm h1 h2) s = .next { s with reply := some (.word (h ||| (h <<< 16))) }) ∧
    (let h := 0x2000#32 ||| (rd <<< 8) ||| im
     exec (.tMovIm rd im) s = .next { s with reply := some (.word (h ||| (h <<< 16))) }) ∧
    (let h := 0xC800#32 ||| (rn <<< 8) ||| list
     exec (.tLdmia rn list) s = .next { s with reply := some (.word (h ||| (h <<< 16))) }) ∧
    (let h := 0xC000#32 ||| (rn <<< 8) ||| list
     exec (.tStmia rn list) s = .next { s with reply := some (.word (h ||| (h <<< 16))) }) ∧
    (let h := 0x6800#32 ||| (rn <<< 3) ||| rd
     exec (.tLdr rd rn) s = .next { s with reply := some (.word (h ||| (h <<< 16))) }) ∧
    (let h := 0x6000#32 ||| (rn <<< 3) ||| rd
     exec (.tStr rd rn) s = .next { s with reply := some (.word (h ||| (h <<< 16))) }) ∧
    (let h := 0x4800#32 ||| (rd <<< 8)
     exec (.tLdrPcrel rd) s = .next { s with reply := some (.word (h ||| (h <<< 16))) }) ∧
    exec .tNop s = .next { s with reply := some (.word 0x46C046C0#32) } ∧
    (let h := 0x4700#32 ||| (rm <<< 3)
     exec (.tBx rm) s = .next { s with reply := some (.word (h ||| (h <<< 16))) }) ∧
    (let h := 0xE000#32 ||| imm
     exec (.tB imm) s = .next { s with reply := some (.word (h ||| (h <<< 16))) }) ∧
    (let h := 0xBE00#32 ||| im
     exec (.tBkpt im) s = .next { s with reply := some (.word (h ||| (h <<< 16))) })

/-- R61: every template is total and pure: its word is the same in every state, and the reply is all that changes. -/
def Obligations.TemplatesArePure : Prop :=
  ∀ i : Instr, ∃ w : Word, ∀ s : State, exec i s = .next { s with reply := some (.word w) }

/-- R65, R66 against the formulas of R80 to R120: inside the ranges of R73 the word a template emits is the one its field
table gives, field by field. -/
def Obligations.EmittedWordFollowsFieldTable : Prop :=
  ∀ (i : Instr) (s : State), i.inRange = true → exec i s = .next { s with reply := some (.word (encode i)) }

/-- DECODE AND ENCODE AGREE, every template, every operand its encoding admits: the word decodes to the template call again,
the two moves of r8 to itself being the no-ops (R71). -/
def Obligations.DecodeEncodeAgree : Prop :=
  ∀ i : Instr, i.inRange = true → decodeWord i.format (encode i) = .ok i.canonical

/-- The other direction: a word that decodes is the word of the template call it decodes to, in its format and ranges. -/
def Obligations.EncodeDecodeAgree : Prop :=
  ∀ (f : Format) (w : Word) (i : Instr), decodeWord f w = .ok i → i.format = f ∧ i.inRange = true ∧ encode i = w

/-- R64: every A32 template's word has the condition "always" in bits 31 to 28, operands in range. -/
def Obligations.ArmWordsAreUnconditional : Prop :=
  ∀ (i : Instr) (s : State), i.format = .a32 → i.inRange = true →
    ∃ w : Word, exec i s = .next { s with reply := some (.word w) } ∧ w.extractLsb' 28 4 = 0b1110#4

/-- R63: for legal operands both halves of a Thumb template's word are the halfword. -/
def Obligations.ThumbHalvesEqual : Prop :=
  ∀ (i : Instr) (s : State), i.format = .t16x2 → i.inRange = true →
    ∃ w : Word, exec i s = .next { s with reply := some (.word w) } ∧ w.extractLsb' 16 16 = w.extractLsb' 0 16

/-- R44: stored in either byte order, the two halfwords of a Thumb template's word have the same byte image, at A and A + 2. -/
def Obligations.ThumbByteImagesRepeat : Prop :=
  ∀ (e : Endian) (i : Instr), i.format = .t16x2 → i.inRange = true →
    (wordBytes e (encode i)).take 2 = (wordBytes e (encode i)).drop 2

/-- R70: nothing in a word says which format it is: a word of both an A32 and a T16x2 template exists. -/
def Obligations.WordDoesNotTellFormat : Prop :=
  ∃ i j : Instr, i.format = .a32 ∧ j.format = .t16x2 ∧ i.inRange = true ∧ j.inRange = true ∧ encode i = encode j

/-- Template calls that emit one word: the no-ops and the moves of r8 to itself (R71), and the spills of out-of-range operands
into other templates' words (corner cases of R80 to R84, R92, R102, R112, R113, R116). -/
def Obligations.TemplateWordsCoincide : Prop :=
  ∀ (s : State) (list rd : Word),
    exec .armNop s = exec (.armMov 8 8) s ∧
    exec .tNop s = exec (.tMov 0 0 1 1) s ∧
    exec (.armStmia 16 list 0 0) s = exec (.armLdmia 0 list 0 0) s ∧
    exec (.armStrwIp rd 16) s = exec (.armLdrwIp rd 0) s ∧
    exec (.armStr 0 16) s = exec (.armLdr 0 0) s ∧
    exec (.armLdr 16 0) s = exec (.armLdr 0 1) s ∧
    exec (.armMov 0 0x1000) s = exec (.armMov 1 0) s ∧
    exec (.armB 0x1000000 0) s = exec (.armB 0 1) s ∧
    exec (.tStmia 8 list) s = exec (.tLdmia 0 list) s ∧
    exec (.tLdmia 0 0x100) s = exec (.tLdmia 1 0) s ∧
    exec (.tLdrPcrel 8) s = exec (.tLdrPcrel 0) s

/-- R67, R85: the ARM breakpoint template drops the bits of its operand above bit 15, and puts the rest at bits 19..8 and
3..0 of the word. -/
def Obligations.BreakpointImmediateMasked : Prop :=
  ∀ (im : Word) (s : State), ∃ w : Word,
    exec (.armBkpt im) s = .next { s with reply := some (.word w) } ∧
    w.extractLsb' 8 12 = im.extractLsb' 4 12 ∧ w.extractLsb' 0 4 = im.extractLsb' 0 4 ∧
    w.extractLsb' 4 4 = 0b0111#4 ∧ w.extractLsb' 20 12 = 0xE12#12

/-! ## The step and the decoder -/

/-- A STEP RUNS THE DECODED INSTRUCTION: in phase IDLE, when the bytes at the head of the inbox decode to a template call, the
step is exec of it, the command's remaining bytes left at the head. -/
def Obligations.StepRunsDecodedInstruction : Prop :=
  ∀ (s : State) (f : Format) (bytes rest : List Byte) (cs : List Command) (i : Instr),
    s.phase = .idle → s.inbox = .image f bytes :: cs → decodeBytes s.params.endian f bytes = .ok (i, rest) →
    step s = exec i { s with inbox := if rest = [] then cs else .image f rest :: cs }

/-- R61, R72: a template call that the caller issues symbolically runs with its operands as they are. -/
def Obligations.StepRunsTemplateCall : Prop :=
  ∀ (s : State) (cs : List Command) (i : Instr),
    s.phase = .idle → s.inbox = .template i :: cs → step s = exec i { s with inbox := cs }

/-- A few words written out from the field tables R65 and R66 decode to the template calls they stand for (sanity). -/
def Obligations.WrittenWordsDecode : Prop :=
  decodeWord .a32 0b11100001101000000001000000000010#32 = .ok (.armMov 1 2) ∧
  decodeWord .a32 0b11101000101111011000000000000001#32 = .ok (.armLdmia 13 0x8001 0 1) ∧
  decodeWord .a32 0b11101110000001110000111110011010#32 = .ok (.armMcr 15 0 0 7 10 4) ∧
  decodeWord .a32 0b11100001001000010010001101110100#32 = .ok (.armBkpt 0x1234) ∧
  decodeWord .t16x2 0b01000111000110000100011100011000#32 = .ok (.tBx 3)

/-- The model's own stops (log 3, 15, 16, 17): in phase IDLE a step refuses a command exactly when it is bytes that are no
template's word, an operation that needs an instance where there is none, a view whose slot does not exist, or a run request that
U9 or R170 excludes, each by its own name; and no command ends a step from IDLE in a fault. -/
def Obligations.RefusedByName : Prop :=
  ∀ (s : State) (cs : List Command) (c : Command), s.phase = .idle → s.inbox = c :: cs →
    (∀ f, step s ≠ .fault f) ∧
    ∀ r : Refusal, step s = .refused r ↔
      (∃ f bytes e, c = .image f bytes ∧ decodeBytes s.params.endian f bytes = .error e ∧ r = .undecodable e) ∨
      (c.needsInstance = true ∧ s.built = false ∧ r = .noInstance) ∨
      (s.built = true ∧ r = .noSuchSlot ∧ ∃ n, c.viewSlot? = some n ∧ s.slots ≤ n) ∨
      (s.built = true ∧ r = .memoryParamPastTop ∧ ∃ req, c = .runAlgorithm req ∧ memParamsInSpace req = false) ∨
      (s.built = true ∧ r = .memoryParamLength ∧
        ∃ req, c = .runAlgorithm req ∧ memParamsInSpace req = true ∧ memParamsSized req = false)

/-! ## Unit U2: the mode model and the banking multiplexer -/

/-- R130, R131: `mode_to_index` gives the eight real modes their indices (the spec's decision D7), `index_to_mode` is its inverse
on 0 to 7, and each fails elsewhere with its own error, a raw value that is no mode's code among the failures; the code of a
mode stands for the mode (log 18). -/
def Obligations.ModeIndexInverse : Prop :=
  [ProcessorMode.usr, .fiq, .irq, .svc, .abt, .mon, .und, .sys].map modeToIndex =
    [.ok 0, .ok 1, .ok 2, .ok 3, .ok 4, .ok 5, .ok 6, .ok 7] ∧
  (∀ m : ProcessorMode, m ≠ .any → ∃ i, i ≤ 7 ∧ modeToIndex m = .ok i ∧ indexToMode i = .ok m) ∧
  (∀ i, i ≤ 7 → ∃ m, m ≠ .any ∧ indexToMode i = .ok m ∧ modeToIndex m = .ok i) ∧
  modeToIndex .any = .err .invalidMode ∧
  (∀ i, 7 < i → indexToMode i = .err .invalidIndex) ∧
  (∀ m, operandToIndex (.known m) = modeToIndex m ∧ operandToIndex (.raw (modeCode m)) = modeToIndex m) ∧
  ∀ v : Word, isValidMode v = false → operandToIndex (.raw v) = .err .invalidMode

/-- R133: a raw value is a valid mode exactly when it is the code of a real mode (R20); R132: the names are those of the table (the
spec's decision D8), and no two modes share one. -/
def Obligations.ValidModesAndNames : Prop :=
  (∀ v : Word, isValidMode v = true ↔ ∃ m, m ≠ .any ∧ modeCode m = v) ∧
  (∀ v m, modeOfCode v = some m ↔ modeCode m = v) ∧
  ([ProcessorMode.usr, .fiq, .irq, .svc, .abt, .mon, .und, .sys, .any].map modeName =
    ["User", "FIQ", "IRQ", "Supervisor", "Abort", "Secure Monitor", "Undefined instruction", "System", "Any"]) ∧
  ∀ m n, modeName m = modeName n → m = n

/-- R130 to R133 as commands: each completes with its answer and changes nothing else, with or without an instance. The name
that `mode_name` answers is that of the mode, for the mode or its raw code (log 18), and "Invalid" for any other raw value. -/
def Obligations.ModeCommandsAnswer : Prop :=
  (∀ (s : State) (cs : List Command) (m : ModeOperand) (i : Nat) (v : Word), s.phase = .idle →
    (s.inbox = .modeToIndex m :: cs →
      step s = .next { s with inbox := cs, reply := some ((operandToIndex m).reply .index) }) ∧
    (s.inbox = .indexToMode i :: cs →
      step s = .next { s with inbox := cs, reply := some ((indexToMode i).reply .mode) }) ∧
    (s.inbox = .modeName m :: cs → step s = .next { s with inbox := cs, reply := some (.name (operandName m)) }) ∧
    (s.inbox = .isValidMode v :: cs → step s = .next { s with inbox := cs, reply := some (.bool (isValidMode v)) })) ∧
  (∀ m, operandName (.known m) = modeName m ∧ operandName (.raw (modeCode m)) = modeName m) ∧
  ∀ v : Word, (∀ m, modeCode m ≠ v) → operandName (.raw v) = "Invalid"

/-- R140: the banking table and its form as a function agree in every row and column. R17, R134: the handle to the SPSR entry is
column 16 of the current mode's row for the six modes that have one, which is where MAP sends logical register 16 on a target
that has the mode, and absent in the two others. -/
def Obligations.BankTableIsFunction : Prop :=
  (∀ i n, i < 8 → n ≤ 16 → (mapTable[i]?.bind fun row => row[n]?) = some (bankSlot i n)) ∧
  (∀ m, m ≠ .any →
    (hasSpsr m = true ↔ m = .fiq ∨ m = .irq ∨ m = .svc ∨ m = .abt ∨ m = .mon ∨ m = .und) ∧
    (hasSpsr m = false → spsrHandle m = none) ∧
    (hasSpsr m = true → ∃ i slot, modeToIndex m = .ok i ∧ (mapTable[i]?.bind fun row => row[16]?) = some slot ∧
      spsrHandle m = some slot ∧
      ∀ hasMon coreMode, modeSupported hasMon m = true → mapRegister hasMon coreMode m 16 = .ok slot)) ∧
  [ProcessorMode.usr, .fiq, .irq, .svc, .abt, .mon, .und, .sys].map spsrHandle =
    [none, some 32, some 33, some 34, some 35, some 39, some 36, none]

/-- R141, R205 (a): MAP tests the mode, then the register number, and for a mode the target has every logical register number 0
to 16 resolves to the slot in the banking table of R140, which is a slot of the cache. -/
def Obligations.MapResolvesInBounds : Prop :=
  ∀ (hasMon : Bool) (coreMode m : ProcessorMode) (n : Nat),
    (modeSupported hasMon (effectiveMode coreMode m) = false → mapRegister hasMon coreMode m n = .err .invalidMode) ∧
    (modeSupported hasMon (effectiveMode coreMode m) = true → 16 < n →
      mapRegister hasMon coreMode m n = .err .invalidIndex) ∧
    (modeSupported hasMon (effectiveMode coreMode m) = true → n ≤ 16 →
      ∃ i slot, modeToIndex (effectiveMode coreMode m) = .ok i ∧ (mapTable[i]?.bind fun row => row[n]?) = some slot ∧
        mapRegister hasMon coreMode m n = .ok slot ∧ slot < nslot hasMon)

/-- R142 (a), (b): unbanked registers have one slot in every mode; r8 to r12 are banked in FIQ only; r13, r14 and the status
register of an exception mode are its own. -/
def Obligations.BankingFollowsHardware : Prop :=
  ∀ (hasMon : Bool) (coreMode m : ProcessorMode), m ≠ .any → modeSupported hasMon m = true →
    (∀ n, n ≤ 7 ∨ n = 15 → mapRegister hasMon coreMode m n = .ok n) ∧
    (m ≠ .fiq → ∀ n, 8 ≤ n → n ≤ 12 → mapRegister hasMon coreMode m n = .ok n) ∧
    (∀ k n slot, k ≠ .any → k ≠ m → hasSpsr m = true → (n = 13 ∨ n = 14 ∨ n = 16) →
      mapRegister hasMon coreMode m n = .ok slot → ∀ q, mapRegister hasMon coreMode k q ≠ .ok slot) ∧
    (∀ k n slot, k ≠ .any → k ≠ .fiq → m = .fiq → 8 ≤ n → n ≤ 14 →
      mapRegister hasMon coreMode m n = .ok slot → ∀ q, mapRegister hasMon coreMode k q ≠ .ok slot)

/-- R142 (d), (e), which the spec derives from R140: every slot is reached in some supported mode, and within one mode no two
logical numbers share a slot. -/
def Obligations.BankingReachesEverySlotOnce : Prop :=
  (∀ (hasMon : Bool) (coreMode : ProcessorMode) (slot : Nat), slot < nslot hasMon →
    ∃ m n, m ≠ .any ∧ n ≤ 16 ∧ mapRegister hasMon coreMode m n = .ok slot) ∧
  (∀ (hasMon : Bool) (coreMode m : ProcessorMode) (n k slot : Nat),
    mapRegister hasMon coreMode m n = .ok slot → mapRegister hasMon coreMode m k = .ok slot → n = k)

/-- R141, R144 as commands: MAP and current_register complete with their answers, the view of current_register naming the slot of
the current mode, and change nothing else; MAP for a named mode also without an instance (log 15). MAP of a mode, or of its raw
code (log 18), is the multiplexer's answer, and of any other raw value InvalidMode. -/
def Obligations.BankingCommandsAnswer : Prop :=
  (∀ (s : State) (cs : List Command) (m : ModeOperand) (n : Nat), s.phase = .idle →
    (s.inbox = .map m n :: cs → (s.built = true ∨ (m ≠ .known .any ∧ m ≠ .raw (modeCode .any))) →
      step s = .next { s with
        inbox := cs, reply := some ((mapOperand s.params.hasMon s.coreMode m n).reply .slot) }) ∧
    (s.built = true → s.inbox = .currentRegister n :: cs → s.modeOk → n ≤ 16 →
      ∃ slot, mapRegister s.params.hasMon s.coreMode .any n = .ok slot ∧
        step s = .next { s with
          inbox := cs, reply := some (.view { slot := slot, logical := n, mode := s.coreMode }) }) ∧
    (s.built = true → s.inbox = .currentRegister n :: cs → s.modeOk → 16 < n →
      step s = .next { s with inbox := cs, reply := some (.error .invalidIndex) })) ∧
  (∀ hasMon coreMode m n, mapOperand hasMon coreMode (.known m) n = mapRegister hasMon coreMode m n ∧
    mapOperand hasMon coreMode (.raw (modeCode m)) n = mapRegister hasMon coreMode m n) ∧
  ∀ hasMon coreMode n, ∀ v : Word, (∀ m, modeCode m ≠ v) → mapOperand hasMon coreMode (.raw v) n = .err .invalidMode

/-! ## Unit U3: the register cache and the core state -/

/-- R28, R230: the state after construction, with the spec's values: flags 0, names and widths of R12, USR, ARM, IDLE, empty
registers. The values of the entries, which the spec leaves open, are not part of the statement. -/
def Obligations.ResetIsConstruction : Prop :=
  State.reset.coreMode = .usr ∧ State.reset.coreState = .arm ∧ State.reset.phase = .idle ∧ State.reset.quiet ∧
  (∀ e ∈ State.reset.cache, e.valid = false ∧ e.dirty = false ∧ e.width = 32) ∧
  (State.reset.cache.map fun e => e.name) = slotNames State.reset.params.hasMon

/-- R150, R230 as a command: construction completes, all or nothing: with memory, NSLOT entries named as in R12 with both flags
clear; without, no entry and OutOfMemory. USR, ARM and the sequencer's values are the spec's decision D16 where an instance is
built; the rules give none where it is not: that the fields then hold the same values, and `built` false, is the model's choice (log 15). -/
def Obligations.ConstructionAllOrNothing : Prop :=
  ∀ (s : State) (cs : List Command) (hasMon : Bool), s.phase = .idle → s.inbox = .buildRegisterCache hasMon :: cs →
    ∃ t, step s = .next t ∧ t.inbox = cs ∧ t.transport = s.transport ∧ t.coreMode = .usr ∧ t.coreState = .arm ∧ t.quiet ∧
      (s.params.allocOk = true → t.reply = some .done ∧ t.built = true ∧ t.params = { s.params with hasMon := hasMon } ∧
        t.cache.length = nslot hasMon ∧ (t.cache.map fun e => e.name) = slotNames hasMon ∧
        ∀ e ∈ t.cache, e.valid = false ∧ e.dirty = false ∧ e.width = 32) ∧
      (s.params.allocOk = false → t.reply = some (.error .outOfMemory) ∧ t.built = false ∧ t.cache = [])

/-- R151, R152: set_mode writes core_mode and nothing else for a mode the target has, and nothing at all otherwise; set_state writes
core_state only and cannot fail. -/
def Obligations.ModeAndStateAreBookkeeping : Prop :=
  ∀ (s : State) (cs : List Command) (m : ModeOperand) (st : ProcessorState), s.phase = .idle → s.built = true →
    (s.inbox = .setMode m :: cs → ∀ p, m.mode? = some p → modeSupported s.params.hasMon p = true →
      step s = .next { s with inbox := cs, coreMode := p, reply := some .done }) ∧
    (s.inbox = .setMode m :: cs → (∀ p, m.mode? = some p → modeSupported s.params.hasMon p = false) →
      step s = .next { s with inbox := cs, reply := some (.error .invalidMode) }) ∧
    (s.inbox = .setState st :: cs → step s = .next { s with inbox := cs, coreState := st, reply := some .done })

/-- R153: set_cpsr moves core_mode, core_state and the CPSR entry together, or, on an illegal mode field, none of them. -/
def Obligations.SetCpsrAllOrNothing : Prop :=
  ∀ (s : State) (cs : List Command) (raw : Word), s.phase = .idle → s.built = true → s.inbox = .setCpsr raw :: cs →
    (∀ m, m ≠ .any → modeCode m = raw &&& 0x1F#32 → modeSupported s.params.hasMon m = true →
      step s = .next { s with
        inbox := cs, reply := some .done, coreMode := m,
        coreState := (match raw.getLsbD 5, raw.getLsbD 24 with
          | false, false => .arm
          | true, false => .thumb
          | false, true => .jazelle
          | true, true => .thumbEE),
        cache := s.cache.set 31 { s.entry 31 with value := raw, valid := true, dirty := false } }) ∧
    ((∀ m, m ≠ .any → modeCode m = raw &&& 0x1F#32 → modeSupported s.params.hasMon m = false) →
      step s = .next { s with inbox := cs, reply := some (.error .invalidMode) })

/-- R154: a read of a valid entry makes no call; of an invalid one, exactly one, whose value fills the entry, or whose error is
returned with the entry as it was. -/
def Obligations.ReadRegisterIsLazy : Prop :=
  ∀ (s : State) (cs : List Command) (v : RegisterView), s.phase = .idle → s.built = true → v.slot < s.slots →
    s.inbox = .readRegister v :: cs →
    ((s.entry v.slot).valid = true →
      step s = .next { s with inbox := cs, reply := some (.value (s.entry v.slot).value) }) ∧
    (∀ x, (s.entry v.slot).valid = false → (s.transport.readRegister v.slot).1 = .ok x →
      step s = .next { s with
        inbox := cs, reply := some (.value x), transport := (s.transport.readRegister v.slot).2,
        cache := s.cache.set v.slot { s.entry v.slot with value := x, valid := true } }) ∧
    (∀ e, (s.entry v.slot).valid = false → (s.transport.readRegister v.slot).1 = .err e →
      step s = .next { s with
        inbox := cs, reply := some (.error (.transportError e)), transport := (s.transport.readRegister v.slot).2 })

/-- R155: a write to a valid entry makes no call; to an invalid one, exactly one; either way the entry ends valid and dirty with
the value, but after an error as it was. -/
def Obligations.WriteRegisterMarksDirty : Prop :=
  ∀ (s : State) (cs : List Command) (v : RegisterView) (x : Word), s.phase = .idle → s.built = true → v.slot < s.slots →
    s.inbox = .writeRegister v x :: cs →
    ((s.entry v.slot).valid = true →
      step s = .next { s with
        inbox := cs, reply := some .done,
        cache := s.cache.set v.slot { s.entry v.slot with value := x, valid := true, dirty := true } }) ∧
    ((s.entry v.slot).valid = false → (s.transport.writeRegister v.slot x).1 = .ok () →
      step s = .next { s with
        inbox := cs, reply := some .done, transport := (s.transport.writeRegister v.slot x).2,
        cache := s.cache.set v.slot { s.entry v.slot with value := x, valid := true, dirty := true } }) ∧
    (∀ e, (s.entry v.slot).valid = false → (s.transport.writeRegister v.slot x).1 = .err e →
      step s = .next { s with
        inbox := cs, reply := some (.error (.transportError e)), transport := (s.transport.writeRegister v.slot x).2 })

/-- R13, R154, R155: within an instance, a register written through the multiplexer reads back as written, and a register that
the multiplexer resolves to another slot is left alone. -/
def Obligations.BankedWriteReadsBack : Prop :=
  ∀ (s t : State) (m k : ProcessorMode) (n q : Nat) (v : Word), s.built = true → s.cacheOk →
    writeBanked m n v s = (.ok (), t) →
    readBanked m n t = (.ok v, t) ∧
    (mapRegister s.params.hasMon s.coreMode k q ≠ mapRegister s.params.hasMon s.coreMode m n →
      ∀ slot, mapRegister s.params.hasMon s.coreMode k q = .ok slot → t.entry slot = s.entry slot)

/-- R156: a flush that succeeds makes one write call per dirty entry, in ascending slot order, with the entry's value, and
leaves those entries clean and everything else of the state as it was. -/
def Obligations.FlushWritesDirtyInOrder : Prop :=
  ∀ (s t : State), s.built = true → s.cacheOk → flush s = (.ok (), t) →
    t = { s with cache := t.cache, transport := t.transport } ∧
    t.transport.log = s.transport.log ++
      ((List.range s.slots).filter fun n => (s.entry n).dirty).map (fun n => .writeRegister n (s.entry n).value (.ok ())) ∧
    t.cache = s.cache.map (fun e => { e with dirty := false })

/-- R156, R202: a flush that fails has written and cleaned exactly the dirty entries below some dirty slot, whose call failed; that
entry and those above keep value and flags. -/
def Obligations.FlushStopsAtFirstFailure : Prop :=
  ∀ (s t : State) (e : TransportError), s.built = true → s.cacheOk → flush s = (.err e, t) →
    ∃ k, k < s.slots ∧ (s.entry k).dirty = true ∧
      t = { s with cache := t.cache, transport := t.transport } ∧
      t.transport.log = s.transport.log ++
        ((List.range k).filter fun n => (s.entry n).dirty).map (fun n => .writeRegister n (s.entry n).value (.ok ())) ++
        [.writeRegister k (s.entry k).value (.err e)] ∧
      (∀ n, n < k → t.entry n = { s.entry n with dirty := false }) ∧ ∀ n, k ≤ n → t.entry n = s.entry n

/-- R156, R157 as commands: flush and full_context_refresh complete with their result, whatever the transport answers. -/
def Obligations.FlushAndRefreshComplete : Prop :=
  ∀ (s : State) (cs : List Command), s.phase = .idle → s.built = true →
    (s.inbox = .flush :: cs → ∀ a t, flush { s with inbox := cs } = (a, t) →
      step s = .next { t with reply := some (a.reply fun _ => .done) }) ∧
    (s.inbox = .fullContextRefresh :: cs → ∀ a t, fullContextRefresh { s with inbox := cs } = (a, t) →
      step s = .next { t with reply := some (a.reply fun _ => .done) })

/-- R157: a refresh that succeeds makes every entry valid, gives the clean ones the hook's values and leaves the dirty ones as
they were; one that fails changes no entry. core_mode and core_state stay in both cases. -/
def Obligations.RefreshKeepsPendingValues : Prop :=
  ∀ (s : State), s.built = true → s.cacheOk →
    (∀ vals, (s.transport.refreshHook s.slots).1 = .ok vals →
      ∃ t, fullContextRefresh s = (.ok (), t) ∧ t = { s with cache := t.cache, transport := t.transport } ∧
        t.transport = (s.transport.refreshHook s.slots).2 ∧ vals.length = s.slots ∧
        ∀ n, n < s.slots → (t.entry n).valid = true ∧
          ((s.entry n).dirty = true → t.entry n = s.entry n) ∧
          ((s.entry n).dirty = false → vals[n]? = some (t.entry n).value ∧ (t.entry n).dirty = false)) ∧
    (∀ e, (s.transport.refreshHook s.slots).1 = .err e →
      fullContextRefresh s = (.err e, { s with transport := (s.transport.refreshHook s.slots).2 }))

/-- R157: two refreshes whose hook answers the same values leave the same cache. -/
def Obligations.RefreshIsIdempotent : Prop :=
  ∀ (s t u : State) (vals : List Word), fullContextRefresh s = (.ok (), t) → fullContextRefresh t = (.ok (), u) →
    (s.transport.refreshHook s.slots).1 = .ok vals → (t.transport.refreshHook t.slots).1 = .ok vals →
    u.cache = t.cache

/-- R159, R160: mrc and mcr are one hook call each, its answer passed through; no register of the block changes. The fields are
32-bit values, the model's choice (log 25), and none is checked (the spec's decision D46). -/
def Obligations.CoprocessorPassThrough : Prop :=
  ∀ (s : State) (cs : List Command) (cp op1 op2 crn crm v : Word), s.phase = .idle → s.built = true →
    (s.inbox = .mrc cp op1 op2 crn crm :: cs →
      step s = .next { s with
        inbox := cs, transport := (s.transport.cpRead cp op1 op2 crn crm).2,
        reply := some (match (s.transport.cpRead cp op1 op2 crn crm).1 with
          | .ok x => .value x
          | .err e => .error (.transportError e)) }) ∧
    (s.inbox = .mcr cp op1 op2 crn crm v :: cs →
      step s = .next { s with
        inbox := cs, transport := (s.transport.cpWrite cp op1 op2 crn crm v).2,
        reply := some (match (s.transport.cpWrite cp op1 op2 crn crm v).1 with
          | .ok _ => .done
          | .err e => .error (.transportError e)) })

/-- R161: the register-list export answers one descriptor per slot, in slot order, with name, width, value and dirty flag, and
changes nothing else. It makes no call, for an invalid entry neither: that it does not fetch one is the spec's decision D44. -/
def Obligations.RegisterListFollowsSlots : Prop :=
  ∀ (s : State) (cs : List Command), s.phase = .idle → s.built = true → s.cacheOk → s.inbox = .registerList :: cs →
    ∃ l, step s = .next { s with inbox := cs, reply := some (.registers l) } ∧ l.length = s.slots ∧
      ∀ n, n < s.slots → l[n]? = some
        { name := (s.entry n).name, width := 32, value := (s.entry n).value, dirty := (s.entry n).dirty }

/-! ## Unit U3: the sequencer -/

/-- R46: the access width is 4, 2 or 1, divides address and length, and no larger one of them does. -/
def Obligations.AccessWidthIsLargest : Prop :=
  ∀ (addr : Word) (size : Nat),
    (accessWidth addr size = 4 ∨ accessWidth addr size = 2 ∨ accessWidth addr size = 1) ∧
    addr.toNat % accessWidth addr size = 0 ∧ size % accessWidth addr size = 0 ∧
    ∀ w, (w = 4 ∨ w = 2 ∨ w = 1) → addr.toNat % w = 0 → size % w = 0 → w ≤ accessWidth addr size

/-- R171, R216, R235: an accepted run completes in one step, whatever the transport answers: it answers a result, leaves the
sequencer at its reset values, keeps the parameters and takes no other command. -/
def Obligations.RunReturnsToIdle : Prop :=
  ∀ (s : State) (cs : List Command) (req : RunRequest), s.phase = .idle → s.built = true →
    s.inbox = .runAlgorithm req :: cs → memParamsInSpace req = true → memParamsSized req = true →
    ∃ t r, step s = .next t ∧ t.reply = some (.run r) ∧ t.quiet ∧ t.inbox = cs ∧ t.params = s.params ∧ t.built = true

/-- R172, R205 (c): Prepare tests the instruction-set state, then the alignment, then MAP of each register parameter in the order
supplied, before any call: the first that MAP refuses decides, with the cause of its error. When all three tests pass, Prepare
succeeds, or it fails by a read that answers an error: that read is its last call and the save-list is empty. -/
def Obligations.PrepareChecksInOrder : Prop :=
  ∀ (req : RunRequest) (s : State),
    (s.coreState = .jazelle ∨ s.coreState = .thumbEE →
      (prepare req s).1 = .error .unsupportedState ∧ (prepare req s).2.transport = s.transport) ∧
    (s.coreState = .arm → (req.entry.toNat % 4 ≠ 0 ∨ req.exit.toNat % 4 ≠ 0) →
      (prepare req s).1 = .error .badAddress ∧ (prepare req s).2.transport = s.transport) ∧
    ((s.coreState = .thumb ∨ (s.coreState = .arm ∧ req.entry.toNat % 4 = 0 ∧ req.exit.toNat % 4 = 0)) →
      (∀ before p after e, req.regParams = before ++ p :: after →
        (∀ q ∈ before, ∃ n, mapRegister s.params.hasMon s.coreMode q.mode q.regnum = .ok n) →
        mapRegister s.params.hasMon s.coreMode p.mode p.regnum = .err e →
        ((e = .invalidMode ∧ (prepare req s).1 = .error .invalidMode) ∨
          (e = .invalidIndex ∧ (prepare req s).1 = .error .invalidIndex)) ∧
        (prepare req s).2.transport = s.transport) ∧
      ((∀ q ∈ req.regParams, ∃ n, mapRegister s.params.hasMon s.coreMode q.mode q.regnum = .ok n) →
        (prepare req s).1 = .ok () ∨
        ∃ n e reads, (prepare req s).1 = .error (.transportError e) ∧ (prepare req s).2.saveList = [] ∧
          (prepare req s).2.transport.log = s.transport.log ++ reads ++ [.readRegister n (.err e)] ∧
          ∀ c ∈ reads, ∃ k v, c = .readRegister k (.ok v)))

/-- R172, R202: a run that fails in Prepare has made register reads at most; nothing of the target is written, and an entry is as
it was, or was invalid and has been filled with the value that a read of its slot answered. -/
def Obligations.PrepareFailureLeavesTarget : Prop :=
  ∀ (s t : State) (cs : List Command) (req : RunRequest) (r : AlgorithmResult) (c : PrepareCause),
    s.phase = .idle → s.inbox = .runAlgorithm req :: cs → step s = .next t → t.reply = some (.run r) →
    r.outcome = .failed (.prepareFailed c) →
    t.coreMode = s.coreMode ∧ t.coreState = s.coreState ∧
    ∃ new, t.transport.log = s.transport.log ++ new ∧ (∀ x ∈ new, ∃ n a, x = .readRegister n a) ∧
      ∀ n, t.entry n = s.entry n ∨
        ((s.entry n).valid = false ∧ ∃ v, .readRegister n (.ok v) ∈ new ∧
          t.entry n = { s.entry n with value := v, valid := true })

/-- R172: a successful Prepare resolves each register parameter by MAP (`ANY` meaning the mode current then), and saves the resolved
slots, then 15 and 31, each once at its first place, with its pre-run value: that of the entry where it was valid, else the
answer of the one read of the slot. These reads, in list order, are all its calls; they fill the entries they concern and leave
every other entry alone. -/
def Obligations.SaveListHoldsPreRunValues : Prop :=
  ∀ (req : RunRequest) (s t : State), s.built = true → s.modeOk → s.cacheOk → prepare req s = (.ok (), t) →
    t = { s with
      cache := t.cache, transport := t.transport, regSlots := t.regSlots, saveList := t.saveList,
      diag := [], harvest := [], bp := none, primary := none } ∧
    t.regSlots.length = req.regParams.length ∧
    (∀ x ∈ req.regParams.zip t.regSlots, mapRegister s.params.hasMon s.coreMode x.1.mode x.1.regnum = .ok x.2) ∧
    (t.saveList.map fun p => p.1) = (t.regSlots ++ [15, 31]).eraseDups ∧ (t.saveList.map fun p => p.1).Nodup ∧
    t.transport.log = s.transport.log ++
      (t.saveList.filter fun p => !(s.entry p.1).valid).map (fun p => .readRegister p.1 (.ok p.2)) ∧
    (∀ n v, (n, v) ∈ t.saveList → t.entry n = { s.entry n with value := v, valid := true } ∧
      ((s.entry n).valid = true → v = (s.entry n).value)) ∧
    ∀ n, n ∉ (t.saveList.map fun p => p.1) → t.entry n = s.entry n

/-- R173: Install writes the input memory parameters of non-zero size, one call each, in the order supplied, with the width rule of
R46. A call that fails ends it: nothing else is written, the registers are rolled back (R179) and the run fails with
TransportError. After success the input register parameters are in the cache, valid and dirty, the later of two on one slot
winning, without a call, and the run goes on to Arm exit. -/
def Obligations.InstallWritesMemoryInOrder : Prop :=
  (∀ (l : List MemParam) (s t : State), installMemory l s = (.ok (), t) →
    t = { s with transport := t.transport } ∧
    t.transport.log = s.transport.log ++
      (l.filter fun p => p.dir.writes && decide (p.size ≠ 0)).map fun p =>
        .writeMemory p.addr (accessWidth p.addr p.size) (p.size / accessWidth p.addr p.size) p.value (.ok ())) ∧
  (∀ (l : List MemParam) (s t : State) (e : TransportError), installMemory l s = (.err e, t) →
    t = { s with transport := t.transport } ∧
    ∃ l1 p l2, l = l1 ++ p :: l2 ∧ p.dir.writes = true ∧ p.size ≠ 0 ∧
      t.transport.log = s.transport.log ++
        ((l1.filter fun p => p.dir.writes && decide (p.size ≠ 0)).map fun p =>
          .writeMemory p.addr (accessWidth p.addr p.size) (p.size / accessWidth p.addr p.size) p.value (.ok ())) ++
        [.writeMemory p.addr (accessWidth p.addr p.size) (p.size / accessWidth p.addr p.size) p.value (.err e)]) ∧
  ∀ (req : RunRequest) (s t : State),
    (∀ e, installMemory req.memParams s = (.err e, t) →
      installPhase req s = finish (.failed (.transportError e)) (restoreAll s.saveList t)) ∧
    (installMemory req.memParams s = (.ok (), t) →
      (∀ p ∈ req.regParams.zip s.regSlots, p.1.dir.writes = true → p.2 < s.cache.length ∧ (s.entry p.2).valid = true) →
      installPhase req s = { t with cache := (installPhase req s).cache, phase := .armExit } ∧
      (installPhase req s).cache.length = s.cache.length ∧
      ∀ n, (installPhase req s).entry n =
        match ((req.regParams.zip s.regSlots).filter fun p => p.1.dir.writes && decide (p.2 = n)).getLast? with
        | none => s.entry n
        | some p => { s.entry n with value := p.1.value, valid := true, dirty := true })

/-- R174: Arm exit sets one breakpoint, at the exit address, with bit 0 cleared in Thumb state; the handle is kept and the run
goes on to Resume; or the registers are rolled back and the run fails. R175: the default entry function is the address itself
in ARM state and the address with bit 0 cleared in Thumb state. -/
def Obligations.EntryAndExitAddresses : Prop :=
  (∀ (req : RunRequest) (s : State) (a : Word),
    a = (if s.coreState = .thumb then req.exit &&& 0xFFFFFFFE#32 else req.exit) →
    (∀ h, (s.transport.setBreakpoint a).1 = .ok h →
      armExitPhase req s = { s with
        transport := (s.transport.setBreakpoint a).2, bp := some h, phase := .resume }) ∧
    (∀ e, (s.transport.setBreakpoint a).1 = .err e →
      armExitPhase req s = finish (.failed (.breakpointSetupFailed e))
        (rollback { s with transport := (s.transport.setBreakpoint a).2 }))) ∧
  ∀ e : Word, pcEntry .standard .arm e = e ∧ pcEntry .standard .thumb e = e &&& 0xFFFFFFFE#32 ∧
    pcEntry .standard .jazelle e = e ∧ pcEntry .standard .thumbEE e = e &&& 0xFFFFFFFE#32

/-- R175, R158: Resume puts the entry address into the PC's entry and flushes; when flush and resume succeed the run goes on to
Await: the PC and every other dirty entry were written before the resume call, and no entry is valid or dirty any more. When
one of them fails the run goes on to Cleanup with `Failed(TransportError)`, and the cache is as the flush left it, not
forgotten. -/
def Obligations.ResumeFlushesThenForgets : Prop :=
  ∀ (req : RunRequest) (s u : State), s.built = true → s.cacheOk → (s.entry 15).valid = true →
    u = { s with cache := s.cache.set 15 { s.entry 15 with
      value := pcEntry s.params.pcEntry s.coreState req.entry, valid := true, dirty := true } } →
    (∀ t, flush u = (.ok (), t) → t.transport.resume.1 = .ok () → (resumePhase req s).phase = .await) ∧
    ((resumePhase req s).phase = .await →
      (∃ new, (resumePhase req s).transport.log = s.transport.log ++ new ++ [.resume (.ok ())] ∧
        .writeRegister 15 (pcEntry s.params.pcEntry s.coreState req.entry) (.ok ()) ∈ new ∧
        ∀ n, n < s.slots → n ≠ 15 → (s.entry n).dirty = true → .writeRegister n (s.entry n).value (.ok ()) ∈ new) ∧
      (∀ e ∈ (resumePhase req s).cache, e.valid = false ∧ e.dirty = false) ∧
      resumePhase req s = { s with
        cache := (resumePhase req s).cache, transport := (resumePhase req s).transport, free := s.free + 1,
        phase := .await }) ∧
    (∀ t e, flush u = (.err e, t) →
      resumePhase req s = { t with primary := some (.failed (.transportError e)), phase := .cleanup } ∧
      ∀ n, (t.entry n).valid = (u.entry n).valid ∧ (t.entry n).value = (u.entry n).value) ∧
    ∀ t e, flush u = (.ok (), t) → t.transport.resume.1 = .err e →
      resumePhase req s = { t with
        transport := t.transport.resume.2, primary := some (.failed (.transportError e)), phase := .cleanup } ∧
      ∀ n, (t.entry n).valid = (u.entry n).valid ∧ (t.entry n).value = (u.entry n).value

/-- R176: the three outcomes of Await: a halt at the exit breakpoint is a success, any other halt a target fault, no halt a
timeout, after which the target is forcibly halted. -/
def Obligations.AwaitHasThreeOutcomes : Prop :=
  ∀ (req : RunRequest) (s : State),
    (∀ h, (s.transport.pollHalted req.timeout).1 = .halted (.breakpoint h) → s.bp = some h →
      awaitPhase req s = { s with
        transport := (s.transport.pollHalted req.timeout).2, primary := some .success, phase := .harvest }) ∧
    (∀ c, (s.transport.pollHalted req.timeout).1 = .halted c → (∀ h, s.bp = some h → c ≠ .breakpoint h) →
      awaitPhase req s = { s with
        transport := (s.transport.pollHalted req.timeout).2, primary := some (.targetFault c), phase := .cleanup }) ∧
    ((s.transport.pollHalted req.timeout).1 = .timeout →
      (awaitPhase req s).primary = some .executionTimeout ∧ (awaitPhase req s).phase = .cleanup ∧
      (awaitPhase req s).transport = (s.transport.pollHalted req.timeout).2.halt.2 ∧
      (awaitPhase req s).cache = s.cache ∧ (awaitPhase req s).bp = s.bp ∧
      (awaitPhase req s).diag = s.diag ++ (match (s.transport.pollHalted req.timeout).2.halt.1 with
        | .ok _ => []
        | .err e => [{ what := .forcedHalt, error := .transportError e }]))

/-- R177: Harvest attempts every output parameter, memory first, then registers, each in the state that the earlier attempts left:
the result of a memory parameter is the answer of `MemRead`, that of a register parameter the answer of `read_register`, error or
not. The calls in the record are one memory read with that answer per output memory parameter of non-zero size (size 0 gives no
byte and no call), then register reads of output parameters' slots, one at least for a slot whose entry was invalid and none for
one that was valid. Then the run goes on to Cleanup. -/
def Obligations.HarvestAttemptsEveryOutput : Prop :=
  ∀ (req : RunRequest) (s : State), s.harvest = [] → s.regSlots.length = req.regParams.length →
    let mems := req.memParams.filter fun p => p.dir.reads
    let regs := (req.regParams.zip s.regSlots).filter fun x => x.1.dir.reads
    let m := mems.foldl (fun t p => { t with
      transport := (t.transport.memRead p.addr p.size).2,
      harvest := t.harvest ++ [.mem p (t.transport.memRead p.addr p.size).1] }) s
    harvestPhase req s =
      { regs.foldl (fun t x => { (readSlot x.2 t).2 with harvest := t.harvest ++ [.reg x.1 (readSlot x.2 t).1] }) m with
        phase := .cleanup } ∧
    harvestPhase req s = { s with
      cache := (harvestPhase req s).cache, transport := (harvestPhase req s).transport,
      harvest := (harvestPhase req s).harvest, phase := .cleanup } ∧
    ((harvestPhase req s).harvest.map fun x => match x with
      | .mem p _ => Sum.inl p
      | .reg p _ => Sum.inr p) =
      (mems.map Sum.inl) ++ ((req.regParams.filter fun p => p.dir.reads).map Sum.inr) ∧
    (∀ p r, .mem p r ∈ (harvestPhase req s).harvest → p.size = 0 → r = .ok []) ∧
    ∃ regCalls, (harvestPhase req s).transport.log = s.transport.log ++
        ((harvestPhase req s).harvest.filterMap fun x => match x with
          | .mem p r => if p.size = 0 then none else
              some (.readMemory p.addr (accessWidth p.addr p.size) (p.size / accessWidth p.addr p.size) r)
          | .reg _ _ => none) ++ regCalls ∧
      (∀ c ∈ regCalls, ∃ x ∈ regs, ∃ a, c = .readRegister x.2 a ∧ .reg x.1 a ∈ (harvestPhase req s).harvest) ∧
      ∀ x ∈ regs, ((s.entry x.2).valid = false ↔ ∃ a, .readRegister x.2 a ∈ regCalls)

/-- R178, R179: Cleanup is four steps in order, each whatever the earlier ones did. The breakpoint's removal: a failure is a
diagnostic, and none is held afterwards. The restore loop: one write call per save-list entry, in its order, whatever the answers,
each with the saved value; a failed one is a diagnostic and leaves the entry dirty, and every restored entry ends valid with its
saved value. The refresh: a failure is a diagnostic. The resynchronisation: mode and state follow the CPSR entry, whose
dirty flag stays, or, on an illegal mode field, stay themselves, with a diagnostic. -/
def Obligations.RestoreAttemptsEveryEntry : Prop :=
  (∀ s : State, cleanup s = resync (cleanupRefresh (restoreAll s.saveList (removeExitBreakpoint s)))) ∧
  (∀ s : State, (s.bp = none → removeExitBreakpoint s = s) ∧
    ∀ h, s.bp = some h → removeExitBreakpoint s = { s with
      bp := none, transport := (s.transport.removeBreakpoint h).2,
      diag := s.diag ++ (match (s.transport.removeBreakpoint h).1 with
        | .ok _ => []
        | .err e => [{ what := .removeBreakpoint, error := .transportError e }]) }) ∧
  (∀ (l : List (Nat × Word)) (s : State), (l.map fun p => p.1).Nodup → (∀ p ∈ l, p.1 < s.cache.length) →
    ∃ answers : List (Answer Unit), answers.length = l.length ∧
      (restoreAll l s).transport.log = s.transport.log ++
        (l.zip answers).map (fun x => .writeRegister x.1.1 x.1.2 x.2) ∧
      (restoreAll l s).diag = s.diag ++ (l.zip answers).filterMap (fun x => match x.2 with
        | .ok _ => none
        | .err e => some { what := .restore x.1.1, error := .transportError e }) ∧
      ∀ x ∈ l.zip answers, ((restoreAll l s).entry x.1.1).valid = true ∧
        ((restoreAll l s).entry x.1.1).value = x.1.2 ∧
        (((restoreAll l s).entry x.1.1).dirty = true ↔ ∃ e, x.2 = .err e)) ∧
  (∀ s : State, (∀ vals, (s.transport.refreshHook s.slots).1 = .ok vals → cleanupRefresh s = (fullContextRefresh s).2) ∧
    ∀ e, (s.transport.refreshHook s.slots).1 = .err e → cleanupRefresh s = { s with
      transport := (s.transport.refreshHook s.slots).2,
      diag := s.diag ++ [{ what := .refresh, error := .transportError e }] }) ∧
  ∀ (s : State) (raw : Word), raw = (s.entry 31).value →
    (∀ m, m ≠ .any → modeCode m = raw &&& 0x1F#32 → modeSupported s.params.hasMon m = true →
      resync s = { s with
        coreMode := m,
        coreState := (match raw.getLsbD 5, raw.getLsbD 24 with
          | false, false => .arm
          | true, false => .thumb
          | false, true => .jazelle
          | true, true => .thumbEE),
        cache := s.cache.set 31 { s.entry 31 with valid := true } }) ∧
    ((∀ m, m ≠ .any → modeCode m = raw &&& 0x1F#32 → modeSupported s.params.hasMon m = false) →
      resync s = { s with diag := s.diag ++ [{ what := .resync, error := .invalidMode }] })

/-- R180: the result carries the outcome, the harvest and the diagnostics, and is fatal exactly when the parameter says so and a
restore or a breakpoint removal failed; every sequencer register goes back to its reset value (R171). A run whose outcome is not
Success has no outputs. -/
def Obligations.FinishReportsAndResets : Prop :=
  (∀ (o : RunOutcome) (s : State), (finish o s).quiet ∧
    ∃ r, (finish o s).reply = some (.run r) ∧ r.outcome = o ∧ r.outputs = s.harvest ∧ r.diagnostics = s.diag ∧
      (r.fatal = true ↔ s.params.cleanupFailureFatal = true ∧
        ∃ d ∈ s.diag, d.what = .removeBreakpoint ∨ ∃ n, d.what = .restore n)) ∧
  ∀ (s t : State) (cs : List Command) (req : RunRequest) (r : AlgorithmResult), s.phase = .idle →
    s.inbox = .runAlgorithm req :: cs → step s = .next t → t.reply = some (.run r) → r.outcome ≠ .success → r.outputs = []

/-- R181: "Cleanup always executes": from a sound state, whatever the step and the transport's answers, every breakpoint that
was set has had its removal attempted when the step ends. -/
def Obligations.NoBreakpointLeftBehind : Prop :=
  ∀ (s t : State), s.Inv → step s = .next t →
    t.bp = none ∧ ∃ new, t.transport.log = s.transport.log ++ new ∧ leftSet new [] = []

/-- R182, R50 (3): the restoration property: after any outcome of a run that passed Prepare, every register of the save-list reads
back, without a call, as its pre-run value, provided the run's refresh tells the truth about what the run's own calls wrote. -/
def Obligations.RunRestoresSavedRegisters : Prop :=
  ∀ (s t p : State) (cs : List Command) (req : RunRequest), s.Inv → s.built = true →
    s.inbox = .runAlgorithm req :: cs → step s = .next t →
    prepare req (beginRun req { s with inbox := cs }) = (.ok (), p) →
    ∃ new, t.transport.log = s.transport.log ++ new ∧
      (RefreshTruthful new → ∀ n v, (n, v) ∈ p.saveList → readSlot n t = (.ok v, t))

/-- R42, R45: every memory call that a step makes has width 1, 2 or 4, an address that is a multiple of it, at least one access,
and stays inside the 32-bit address space; a write carries exactly its bytes. -/
def Obligations.MemoryCallsWellFormed : Prop :=
  ∀ (s t : State), s.Inv → step s = .next t →
    ∃ new, t.transport.log = s.transport.log ++ new ∧ ∀ x ∈ new, x.memoryOk = true

/-- R18, R19: the mode and the state are mutated only by explicit transition operations: `set_mode`, `set_state`, `set_cpsr`, and
the two operations that contain one of them or start afresh, a run (its Cleanup, R178) and construction (R230). After a run that
reached Await, mode and state are those of the CPSR entry, or as they were, and then the result says that they could not follow. -/
def Obligations.ModeChangesOnlyExplicitly : Prop :=
  ∀ (s t : State), s.Inv → step s = .next t →
    (t.coreMode ≠ s.coreMode → ∃ c cs, s.inbox = c :: cs ∧
      ((∃ m, c = .setMode m) ∨ (∃ raw, c = .setCpsr raw) ∨ (∃ b, c = .buildRegisterCache b) ∨ ∃ req, c = .runAlgorithm req)) ∧
    (t.coreState ≠ s.coreState → ∃ c cs, s.inbox = c :: cs ∧
      ((∃ st, c = .setState st) ∨ (∃ raw, c = .setCpsr raw) ∨ (∃ b, c = .buildRegisterCache b) ∨
        ∃ req, c = .runAlgorithm req)) ∧
    ∀ cs req r, s.inbox = .runAlgorithm req :: cs → t.reply = some (.run r) → (∀ e, r.outcome ≠ .failed e) →
      ((∀ d ∈ r.diagnostics, d.what ≠ .resync) ∧ t.coreMode ≠ .any ∧
        modeCode t.coreMode = (t.entry 31).value &&& 0x1F#32 ∧
        t.coreState = (match (t.entry 31).value.getLsbD 5, (t.entry 31).value.getLsbD 24 with
          | false, false => .arm
          | true, false => .thumb
          | false, true => .jazelle
          | true, true => .thumbEE)) ∨
      ({ what := .resync, error := .invalidMode } ∈ r.diagnostics ∧ t.coreMode = s.coreMode ∧ t.coreState = s.coreState)

/-- The operations whose rules say "Transport: none" issue no transport or hook call, and leave the record of calls and the
oracle as they were. -/
def Obligations.BookkeepingMakesNoCall : Prop :=
  ∀ (s t : State) (c : Command) (cs : List Command), s.phase = .idle → s.inbox = c :: cs → c.mayCall = false →
    step s = .next t → t.transport = s.transport

/-- R18, R11 to R14, R216: AN INVARIANT THAT EVERY STEP KEEPS: the current mode is one the target has, the cache has the entries
of R12 and none is dirty without being valid, and between steps the sequencer stands at its reset values. -/
def Obligations.StepKeepsInvariant : Prop :=
  ∀ (s t : State), s.Inv → step s = .next t → t.Inv

/-- The state after reset meets the invariant. -/
def Obligations.ResetMeetsInvariant : Prop := State.reset.Inv
end

