-- ==== Sys2Proof/Laws/State.lean ====
section
/-! SUPPORT. One lemma per field of State and per named update of it, each true by definition, so that no proof unfolds a
record update. -/

namespace Sys2Proof.Machine

variable (s : State)

@[simp] theorem State.answer_params (r : Reply) : (s.answer r).params = s.params := rfl
@[simp] theorem State.answer_cache (r : Reply) : (s.answer r).cache = s.cache := rfl
@[simp] theorem State.answer_coreMode (r : Reply) : (s.answer r).coreMode = s.coreMode := rfl
@[simp] theorem State.answer_coreState (r : Reply) : (s.answer r).coreState = s.coreState := rfl
@[simp] theorem State.answer_phase (r : Reply) : (s.answer r).phase = s.phase := rfl
@[simp] theorem State.answer_req (r : Reply) : (s.answer r).req = s.req := rfl
@[simp] theorem State.answer_regSlots (r : Reply) : (s.answer r).regSlots = s.regSlots := rfl
@[simp] theorem State.answer_saveList (r : Reply) : (s.answer r).saveList = s.saveList := rfl
@[simp] theorem State.answer_bp (r : Reply) : (s.answer r).bp = s.bp := rfl
@[simp] theorem State.answer_primary (r : Reply) : (s.answer r).primary = s.primary := rfl
@[simp] theorem State.answer_harvest (r : Reply) : (s.answer r).harvest = s.harvest := rfl
@[simp] theorem State.answer_diag (r : Reply) : (s.answer r).diag = s.diag := rfl
@[simp] theorem State.answer_built (r : Reply) : (s.answer r).built = s.built := rfl
@[simp] theorem State.answer_inbox (r : Reply) : (s.answer r).inbox = s.inbox := rfl
@[simp] theorem State.answer_reply (r : Reply) : (s.answer r).reply = some r := rfl
@[simp] theorem State.answer_transport (r : Reply) : (s.answer r).transport = s.transport := rfl
@[simp] theorem State.answer_free (r : Reply) : (s.answer r).free = s.free := rfl

@[simp] theorem State.raise_params (e : Error) : (s.raise e).params = s.params := rfl
@[simp] theorem State.raise_cache (e : Error) : (s.raise e).cache = s.cache := rfl
@[simp] theorem State.raise_coreMode (e : Error) : (s.raise e).coreMode = s.coreMode := rfl
@[simp] theorem State.raise_coreState (e : Error) : (s.raise e).coreState = s.coreState := rfl
@[simp] theorem State.raise_phase (e : Error) : (s.raise e).phase = s.phase := rfl
@[simp] theorem State.raise_req (e : Error) : (s.raise e).req = s.req := rfl
@[simp] theorem State.raise_regSlots (e : Error) : (s.raise e).regSlots = s.regSlots := rfl
@[simp] theorem State.raise_saveList (e : Error) : (s.raise e).saveList = s.saveList := rfl
@[simp] theorem State.raise_bp (e : Error) : (s.raise e).bp = s.bp := rfl
@[simp] theorem State.raise_primary (e : Error) : (s.raise e).primary = s.primary := rfl
@[simp] theorem State.raise_harvest (e : Error) : (s.raise e).harvest = s.harvest := rfl
@[simp] theorem State.raise_diag (e : Error) : (s.raise e).diag = s.diag := rfl
@[simp] theorem State.raise_built (e : Error) : (s.raise e).built = s.built := rfl
@[simp] theorem State.raise_inbox (e : Error) : (s.raise e).inbox = s.inbox := rfl
@[simp] theorem State.raise_reply (e : Error) : (s.raise e).reply = some (.error e) := rfl
@[simp] theorem State.raise_transport (e : Error) : (s.raise e).transport = s.transport := rfl
@[simp] theorem State.raise_free (e : Error) : (s.raise e).free = s.free := rfl

@[simp] theorem State.withTransport_params (t : Transport) : (s.withTransport t).params = s.params := rfl
@[simp] theorem State.withTransport_cache (t : Transport) : (s.withTransport t).cache = s.cache := rfl
@[simp] theorem State.withTransport_coreMode (t : Transport) : (s.withTransport t).coreMode = s.coreMode := rfl
@[simp] theorem State.withTransport_coreState (t : Transport) : (s.withTransport t).coreState = s.coreState := rfl
@[simp] theorem State.withTransport_phase (t : Transport) : (s.withTransport t).phase = s.phase := rfl
@[simp] theorem State.withTransport_req (t : Transport) : (s.withTransport t).req = s.req := rfl
@[simp] theorem State.withTransport_regSlots (t : Transport) : (s.withTransport t).regSlots = s.regSlots := rfl
@[simp] theorem State.withTransport_saveList (t : Transport) : (s.withTransport t).saveList = s.saveList := rfl
@[simp] theorem State.withTransport_bp (t : Transport) : (s.withTransport t).bp = s.bp := rfl
@[simp] theorem State.withTransport_primary (t : Transport) : (s.withTransport t).primary = s.primary := rfl
@[simp] theorem State.withTransport_harvest (t : Transport) : (s.withTransport t).harvest = s.harvest := rfl
@[simp] theorem State.withTransport_diag (t : Transport) : (s.withTransport t).diag = s.diag := rfl
@[simp] theorem State.withTransport_built (t : Transport) : (s.withTransport t).built = s.built := rfl
@[simp] theorem State.withTransport_inbox (t : Transport) : (s.withTransport t).inbox = s.inbox := rfl
@[simp] theorem State.withTransport_reply (t : Transport) : (s.withTransport t).reply = s.reply := rfl
@[simp] theorem State.withTransport_transport (t : Transport) : (s.withTransport t).transport = t := rfl
@[simp] theorem State.withTransport_free (t : Transport) : (s.withTransport t).free = s.free := rfl

@[simp] theorem State.setEntry_params (n : Nat) (e : CacheEntry) : (s.setEntry n e).params = s.params := rfl
@[simp] theorem State.setEntry_cache (n : Nat) (e : CacheEntry) : (s.setEntry n e).cache = s.cache.set n e := rfl
@[simp] theorem State.setEntry_coreMode (n : Nat) (e : CacheEntry) : (s.setEntry n e).coreMode = s.coreMode := rfl
@[simp] theorem State.setEntry_coreState (n : Nat) (e : CacheEntry) : (s.setEntry n e).coreState = s.coreState := rfl
@[simp] theorem State.setEntry_phase (n : Nat) (e : CacheEntry) : (s.setEntry n e).phase = s.phase := rfl
@[simp] theorem State.setEntry_req (n : Nat) (e : CacheEntry) : (s.setEntry n e).req = s.req := rfl
@[simp] theorem State.setEntry_regSlots (n : Nat) (e : CacheEntry) : (s.setEntry n e).regSlots = s.regSlots := rfl
@[simp] theorem State.setEntry_saveList (n : Nat) (e : CacheEntry) : (s.setEntry n e).saveList = s.saveList := rfl
@[simp] theorem State.setEntry_bp (n : Nat) (e : CacheEntry) : (s.setEntry n e).bp = s.bp := rfl
@[simp] theorem State.setEntry_primary (n : Nat) (e : CacheEntry) : (s.setEntry n e).primary = s.primary := rfl
@[simp] theorem State.setEntry_harvest (n : Nat) (e : CacheEntry) : (s.setEntry n e).harvest = s.harvest := rfl
@[simp] theorem State.setEntry_diag (n : Nat) (e : CacheEntry) : (s.setEntry n e).diag = s.diag := rfl
@[simp] theorem State.setEntry_built (n : Nat) (e : CacheEntry) : (s.setEntry n e).built = s.built := rfl
@[simp] theorem State.setEntry_inbox (n : Nat) (e : CacheEntry) : (s.setEntry n e).inbox = s.inbox := rfl
@[simp] theorem State.setEntry_reply (n : Nat) (e : CacheEntry) : (s.setEntry n e).reply = s.reply := rfl
@[simp] theorem State.setEntry_transport (n : Nat) (e : CacheEntry) : (s.setEntry n e).transport = s.transport := rfl
@[simp] theorem State.setEntry_free (n : Nat) (e : CacheEntry) : (s.setEntry n e).free = s.free := rfl

@[simp] theorem State.sequencerReset_params : (s.sequencerReset).params = s.params := rfl
@[simp] theorem State.sequencerReset_cache : (s.sequencerReset).cache = s.cache := rfl
@[simp] theorem State.sequencerReset_coreMode : (s.sequencerReset).coreMode = s.coreMode := rfl
@[simp] theorem State.sequencerReset_coreState : (s.sequencerReset).coreState = s.coreState := rfl
@[simp] theorem State.sequencerReset_phase : (s.sequencerReset).phase = .idle := rfl
@[simp] theorem State.sequencerReset_req : (s.sequencerReset).req = none := rfl
@[simp] theorem State.sequencerReset_regSlots : (s.sequencerReset).regSlots = [] := rfl
@[simp] theorem State.sequencerReset_saveList : (s.sequencerReset).saveList = [] := rfl
@[simp] theorem State.sequencerReset_bp : (s.sequencerReset).bp = none := rfl
@[simp] theorem State.sequencerReset_primary : (s.sequencerReset).primary = none := rfl
@[simp] theorem State.sequencerReset_harvest : (s.sequencerReset).harvest = [] := rfl
@[simp] theorem State.sequencerReset_diag : (s.sequencerReset).diag = [] := rfl
@[simp] theorem State.sequencerReset_built : (s.sequencerReset).built = s.built := rfl
@[simp] theorem State.sequencerReset_inbox : (s.sequencerReset).inbox = s.inbox := rfl
@[simp] theorem State.sequencerReset_reply : (s.sequencerReset).reply = s.reply := rfl
@[simp] theorem State.sequencerReset_transport : (s.sequencerReset).transport = s.transport := rfl
@[simp] theorem State.sequencerReset_free : (s.sequencerReset).free = s.free := rfl

end Sys2Proof.Machine
end

