-- ==== Sys2Proof/Laws/Transport.lean ====
section
/-! SUPPORT. What a transport call can do, said once: it answers, it is recorded after the earlier calls, and it is counted.
And how a record of calls grows. -/

namespace Sys2Proof.Machine

@[simp] theorem Transport.record_log (t : Transport) (c : Transaction) : (t.record c).log = t.log ++ [c] := rfl

@[simp] theorem Transport.record_draws (t : Transport) (c : Transaction) : (t.record c).draws = t.draws + 1 := rfl

@[simp] theorem Transport.readRegister_log (t : Transport) (n : Nat) :
    (t.readRegister n).2.log = t.log ++ [.readRegister n (t.readRegister n).1] := rfl

@[simp] theorem Transport.writeRegister_log (t : Transport) (n : Nat) (v : Word) :
    (t.writeRegister n v).2.log = t.log ++ [.writeRegister n v (t.writeRegister n v).1] := rfl

@[simp] theorem Transport.readMemory_log (t : Transport) (a : Word) (w n : Nat) :
    (t.readMemory a w n).2.log = t.log ++ [.readMemory a w n (t.readMemory a w n).1] := rfl

@[simp] theorem Transport.writeMemory_log (t : Transport) (a : Word) (w n : Nat) (bs : List Byte) :
    (t.writeMemory a w n bs).2.log = t.log ++ [.writeMemory a w n bs (t.writeMemory a w n bs).1] := rfl

@[simp] theorem Transport.setBreakpoint_log (t : Transport) (a : Word) :
    (t.setBreakpoint a).2.log = t.log ++ [.setBreakpoint a (t.setBreakpoint a).1] := rfl

@[simp] theorem Transport.removeBreakpoint_log (t : Transport) (h : Nat) :
    (t.removeBreakpoint h).2.log = t.log ++ [.removeBreakpoint h (t.removeBreakpoint h).1] := rfl

@[simp] theorem Transport.resume_log (t : Transport) : t.resume.2.log = t.log ++ [.resume t.resume.1] := rfl

@[simp] theorem Transport.halt_log (t : Transport) : t.halt.2.log = t.log ++ [.halt t.halt.1] := rfl

@[simp] theorem Transport.pollHalted_log (t : Transport) (k : Nat) :
    (t.pollHalted k).2.log = t.log ++ [.pollHalted k (t.pollHalted k).1] := rfl

@[simp] theorem Transport.refreshHook_log (t : Transport) (n : Nat) :
    (t.refreshHook n).2.log = t.log ++ [.refreshHook (t.refreshHook n).1] := rfl

@[simp] theorem Transport.cpRead_log (t : Transport) (cp op1 op2 crn crm : Word) :
    (t.cpRead cp op1 op2 crn crm).2.log = t.log ++ [.cpRead cp op1 op2 crn crm (t.cpRead cp op1 op2 crn crm).1] := rfl

@[simp] theorem Transport.cpWrite_log (t : Transport) (cp op1 op2 crn crm v : Word) :
    (t.cpWrite cp op1 op2 crn crm v).2.log =
      t.log ++ [.cpWrite cp op1 op2 crn crm v (t.cpWrite cp op1 op2 crn crm v).1] := rfl

@[simp] theorem fitTo_length {α : Type} (n : Nat) (given : List α) (free : Nat → α) :
    (fitTo n given free).length = n := by simp [fitTo]

/-- The hook's answer has one value per slot. R162. -/
theorem Transport.refreshHook_length {t : Transport} {n : Nat} {vals : List Word}
    (h : (t.refreshHook n).1 = .ok vals) : vals.length = n := by
  unfold Transport.refreshHook at h
  simp only at h
  split at h
  · cases h; simp
  · cases h

/-- A memory answer has `size * count` bytes. R41. -/
theorem Transport.readMemory_length {t : Transport} {a : Word} {w n : Nat} {bs : List Byte}
    (h : (t.readMemory a w n).1 = .ok bs) : bs.length = w * n := by
  unfold Transport.readMemory at h
  simp only at h
  split at h
  · cases h; simp
  · cases h

/-- The record of calls grew, and every new call satisfies `P`. -/
def Grew (P : Transaction → Prop) (before after : List Transaction) : Prop :=
  ∃ new, after = before ++ new ∧ ∀ c ∈ new, P c

theorem Grew.refl (P : Transaction → Prop) (l : List Transaction) : Grew P l l := ⟨[], by simp⟩

theorem Grew.one {P : Transaction → Prop} {l : List Transaction} {c : Transaction} (h : P c) : Grew P l (l ++ [c]) :=
  ⟨[c], by simp [h]⟩

theorem Grew.trans {P : Transaction → Prop} {a b c : List Transaction} (h : Grew P a b) (h' : Grew P b c) : Grew P a c := by
  obtain ⟨n, rfl, hn⟩ := h
  obtain ⟨m, rfl, hm⟩ := h'
  refine ⟨n ++ m, by simp, fun c hc => ?_⟩
  rcases List.mem_append.1 hc with h | h
  · exact hn c h
  · exact hm c h

theorem Grew.mono {P Q : Transaction → Prop} {a b : List Transaction} (h : Grew P a b) (hpq : ∀ c, P c → Q c) : Grew Q a b := by
  obtain ⟨n, rfl, hn⟩ := h
  exact ⟨n, rfl, fun c hc => hpq c (hn c hc)⟩

end Sys2Proof.Machine
end

