-- ==== Sys2Proof/Laws/CoreOps.lean ====
section
/-! SUPPORT. What each cache operation can do, said once: the shape of the state after it, the calls it makes, and that it
keeps the cache sound. -/

namespace Sys2Proof.Machine

/-- `t` differs from `s` in the cache and the transport only. -/
def CacheAndBusOnly (s t : State) : Prop := t = { s with cache := t.cache, transport := t.transport }

theorem CacheAndBusOnly.refl (s : State) : CacheAndBusOnly s s := rfl

theorem CacheAndBusOnly.trans {a b c : State} (h : CacheAndBusOnly a b) (h' : CacheAndBusOnly b c) : CacheAndBusOnly a c := by
  unfold CacheAndBusOnly at *
  rw [h', h]

/-- What every operation on the cache keeps of it: names, widths, and that dirty implies valid. R11, R14. -/
def CacheKept (a b : List CacheEntry) : Prop :=
  (b.map fun e => e.name) = (a.map fun e => e.name) ∧ ((∀ e ∈ a, e.ok) → ∀ e ∈ b, e.ok)

theorem CacheKept.refl (a : List CacheEntry) : CacheKept a a := ⟨rfl, id⟩

theorem CacheKept.trans {a b c : List CacheEntry} (h : CacheKept a b) (h' : CacheKept b c) : CacheKept a c :=
  ⟨h'.1.trans h.1, fun ha => h'.2 (h.2 ha)⟩

theorem CacheKept.length {a b : List CacheEntry} (h : CacheKept a b) : b.length = a.length := by
  simpa using congrArg List.length h.1

/-- Updating one entry by a change that keeps its name, and its soundness, keeps the cache sound. -/
theorem CacheKept.set {s : State} {n : Nat} {e : CacheEntry} (hname : e.name = (s.entry n).name)
    (hok : (s.entry n).ok → e.ok) : CacheKept s.cache (s.setEntry n e).cache := by
  by_cases hn : n < s.cache.length
  · have he : s.entry n = s.cache[n] := by simp [State.entry, hn]
    refine ⟨?_, fun h x hx => ?_⟩
    · simp only [State.setEntry_cache, List.map_set]
      apply List.ext_getElem (by simp)
      intro i h1 h2
      by_cases hi : n = i
      · subst hi; simp [hname, he]
      · simp [List.getElem_set_ne hi]
    · rcases List.mem_or_eq_of_mem_set (by simpa using hx) with h' | h'
      · exact h x h'
      · subst h'; exact hok (he ▸ h _ (List.getElem_mem hn))
  · simp only [State.setEntry_cache, List.set_eq_of_length_le (Nat.le_of_not_lt hn)]
    exact CacheKept.refl _

theorem State.entry_setEntry_self {s : State} {n : Nat} {e : CacheEntry} (h : n < s.cache.length) :
    (s.setEntry n e).entry n = e := by simp [State.entry, h]

theorem State.entry_setEntry_ne {s : State} {n k : Nat} {e : CacheEntry} (h : n ≠ k) :
    (s.setEntry n e).entry k = s.entry k := by
  simp [State.entry, List.getD_eq_getElem?_getD, List.getElem?_set_ne h]

@[simp] theorem State.entry_withTransport (s : State) (t : Transport) (n : Nat) : (s.withTransport t).entry n = s.entry n := rfl

@[simp] theorem State.entry_answer (s : State) (r : Reply) (n : Nat) : (s.answer r).entry n = s.entry n := rfl

@[simp] theorem CacheEntry.agree_name (e : CacheEntry) (v : Word) : (e.agree v).name = e.name := rfl
@[simp] theorem CacheEntry.pending_name (e : CacheEntry) (v : Word) : (e.pending v).name = e.name := rfl
@[simp] theorem CacheEntry.clean_name (e : CacheEntry) : e.clean.name = e.name := rfl
@[simp] theorem CacheEntry.filled_name (e : CacheEntry) (v : Word) : (e.filled v).name = e.name := rfl
@[simp] theorem CacheEntry.refreshed_name (e : CacheEntry) (v : Word) : (e.refreshed v).name = e.name := rfl
@[simp] theorem CacheEntry.forgotten_name (e : CacheEntry) (v : Word) : (e.forgotten v).name = e.name := rfl

theorem CacheEntry.agree_ok {e : CacheEntry} {v : Word} (h : e.ok) : (e.agree v).ok := ⟨h.1, by simp [agree]⟩
theorem CacheEntry.pending_ok {e : CacheEntry} {v : Word} (h : e.ok) : (e.pending v).ok := ⟨h.1, by simp [pending]⟩
theorem CacheEntry.clean_ok {e : CacheEntry} (h : e.ok) : e.clean.ok := ⟨h.1, by simp [clean]⟩
theorem CacheEntry.filled_ok {e : CacheEntry} {v : Word} (h : e.ok) : (e.filled v).ok := ⟨h.1, by simp [filled]⟩
theorem CacheEntry.refreshed_ok {e : CacheEntry} {v : Word} (h : e.ok) : (e.refreshed v).ok := ⟨h.1, by simp [refreshed]⟩
theorem CacheEntry.forgotten_ok {e : CacheEntry} {v : Word} (h : e.ok) : (e.forgotten v).ok := ⟨h.1, by simp [forgotten]⟩

/-- The calls of a register read or write. -/
def Transaction.isRegisterCall : Transaction → Prop
  | .readRegister _ _ => True
  | .writeRegister _ _ _ => True
  | _ => False

/-- `read_register`, case by case. R154. -/
theorem readSlot_cases (n : Nat) (s : State) :
    ((s.entry n).valid = true ∧ readSlot n s = (.ok (s.entry n).value, s)) ∨
    ((s.entry n).valid = false ∧ ∃ v, (s.transport.readRegister n).1 = .ok v ∧
      readSlot n s = (.ok v, (s.withTransport (s.transport.readRegister n).2).setEntry n ((s.entry n).filled v))) ∨
    ((s.entry n).valid = false ∧ ∃ e, (s.transport.readRegister n).1 = .err e ∧
      readSlot n s = (.err e, s.withTransport (s.transport.readRegister n).2)) := by
  unfold readSlot
  split
  · rename_i h; exact .inl ⟨h, rfl⟩
  · rename_i h
    split <;> rename_i heq
    · exact .inr (.inl ⟨by simpa using h, _, by rw [heq], by rw [heq]⟩)
    · exact .inr (.inr ⟨by simpa using h, _, by rw [heq], by rw [heq]⟩)

/-- `write_register`, case by case. R155. -/
theorem writeSlot_cases (n : Nat) (v : Word) (s : State) :
    ((s.entry n).valid = true ∧ writeSlot n v s = (.ok (), s.setEntry n ((s.entry n).pending v))) ∨
    ((s.entry n).valid = false ∧ (s.transport.writeRegister n v).1 = .ok () ∧
      writeSlot n v s = (.ok (), (s.withTransport (s.transport.writeRegister n v).2).setEntry n ((s.entry n).pending v))) ∨
    ((s.entry n).valid = false ∧ ∃ e, (s.transport.writeRegister n v).1 = .err e ∧
      writeSlot n v s = (.err e, s.withTransport (s.transport.writeRegister n v).2)) := by
  unfold writeSlot
  split
  · rename_i h; exact .inl ⟨h, rfl⟩
  · rename_i h
    split <;> rename_i heq
    · exact .inr (.inl ⟨by simpa using h, by rw [heq], by rw [heq]⟩)
    · exact .inr (.inr ⟨by simpa using h, _, by rw [heq], by rw [heq]⟩)

/-- `flush_slot`, case by case. R156. -/
theorem flushSlot_cases (n : Nat) (s : State) :
    ((s.transport.writeRegister n (s.entry n).value).1 = .ok () ∧
      flushSlot n s =
        (.ok (), (s.withTransport (s.transport.writeRegister n (s.entry n).value).2).setEntry n (s.entry n).clean)) ∨
    (∃ e, (s.transport.writeRegister n (s.entry n).value).1 = .err e ∧
      flushSlot n s = (.err e, s.withTransport (s.transport.writeRegister n (s.entry n).value).2)) := by
  unfold flushSlot
  split <;> rename_i heq
  · exact .inl ⟨by rw [heq], by rw [heq]⟩
  · exact .inr ⟨_, by rw [heq], by rw [heq]⟩

/-- What an operation keeps: everything but cache and transport, the cache's soundness, and a record that grows by register
calls. -/
structure RegisterOp (s t : State) : Prop where
  frame : CacheAndBusOnly s t
  cache : CacheKept s.cache t.cache
  log : Grew Transaction.isRegisterCall s.transport.log t.transport.log

theorem RegisterOp.refl (s : State) : RegisterOp s s := ⟨.refl s, .refl _, .refl _ _⟩

theorem RegisterOp.trans {a b c : State} (h : RegisterOp a b) (h' : RegisterOp b c) : RegisterOp a c :=
  ⟨h.frame.trans h'.frame, h.cache.trans h'.cache, h.log.trans h'.log⟩

theorem readSlot_op (n : Nat) (s : State) : RegisterOp s (readSlot n s).2 := by
  rcases readSlot_cases n s with ⟨_, h⟩ | ⟨_, v, _, h⟩ | ⟨_, e, _, h⟩ <;> rw [h]
  · exact .refl s
  · exact ⟨rfl, CacheKept.set (s := s) rfl CacheEntry.filled_ok, .one trivial⟩
  · exact ⟨rfl, .refl _, .one trivial⟩

theorem writeSlot_op (n : Nat) (v : Word) (s : State) : RegisterOp s (writeSlot n v s).2 := by
  rcases writeSlot_cases n v s with ⟨_, h⟩ | ⟨_, _, h⟩ | ⟨_, e, _, h⟩ <;> rw [h]
  · exact ⟨rfl, CacheKept.set rfl CacheEntry.pending_ok, .refl _ _⟩
  · exact ⟨rfl, CacheKept.set (s := s) rfl CacheEntry.pending_ok, .one trivial⟩
  · exact ⟨rfl, .refl _, .one trivial⟩

theorem flushSlot_op (n : Nat) (s : State) : RegisterOp s (flushSlot n s).2 := by
  rcases flushSlot_cases n s with ⟨_, h⟩ | ⟨e, _, h⟩ <;> rw [h]
  · exact ⟨rfl, CacheKept.set (s := s) rfl CacheEntry.clean_ok, .one trivial⟩
  · exact ⟨rfl, .refl _, .one trivial⟩

theorem flushSlots_op (l : List Nat) (s : State) : RegisterOp s (flushSlots l s).2 := by
  induction l generalizing s with
  | nil => exact .refl s
  | cons n l ih =>
    unfold flushSlots
    split
    · have h := flushSlot_op n s
      split <;> rename_i heq <;> rw [heq] at h
      · exact h.trans (ih _)
      · exact h
    · exact ih s

theorem flush_op (s : State) : RegisterOp s (flush s).2 := flushSlots_op _ s

theorem CacheKept.mapIdx {a : List CacheEntry} {f : Nat → CacheEntry → CacheEntry} (hname : ∀ i e, (f i e).name = e.name)
    (hok : ∀ i e, e.ok → (f i e).ok) : CacheKept a (a.mapIdx f) := by
  refine ⟨?_, fun h x hx => ?_⟩
  · apply List.ext_getElem (by simp)
    intro i h1 h2
    simp [hname]
  · obtain ⟨i, hi, rfl⟩ := List.mem_mapIdx.1 hx
    exact hok _ _ (h _ (List.getElem_mem hi))

/-- `full_context_refresh`, case by case. R157. -/
theorem fullContextRefresh_cases (s : State) :
    (∃ vals, (s.transport.refreshHook s.slots).1 = .ok vals ∧
      fullContextRefresh s = (.ok (), { s.withTransport (s.transport.refreshHook s.slots).2 with
        cache := s.cache.mapIdx fun i e => e.refreshed (vals.getD i e.value) })) ∨
    (∃ e, (s.transport.refreshHook s.slots).1 = .err e ∧
      fullContextRefresh s = (.err e, s.withTransport (s.transport.refreshHook s.slots).2)) := by
  unfold fullContextRefresh
  split <;> rename_i heq
  · exact .inl ⟨_, by rw [heq], by rw [heq]⟩
  · exact .inr ⟨_, by rw [heq], by rw [heq]⟩

/-- What a refresh keeps, and that it is one hook call. R157. -/
theorem fullContextRefresh_op (s : State) :
    CacheAndBusOnly s (fullContextRefresh s).2 ∧ CacheKept s.cache (fullContextRefresh s).2.cache ∧
      (fullContextRefresh s).2.transport = (s.transport.refreshHook s.slots).2 := by
  rcases fullContextRefresh_cases s with ⟨vals, _, h⟩ | ⟨e, _, h⟩ <;> rw [h]
  · exact ⟨rfl, .mapIdx (fun _ _ => rfl) (fun _ _ h => CacheEntry.refreshed_ok h), rfl⟩
  · exact ⟨rfl, .refl _, rfl⟩

/-- What `invalidate_all` keeps. R158. -/
theorem invalidateAll_cache (s : State) : CacheKept s.cache (invalidateAll s).cache :=
  .mapIdx (fun _ _ => rfl) (fun _ _ h => CacheEntry.forgotten_ok h)

/-- `set_cpsr`, case by case: all three pieces of state, or none. R153. -/
theorem setCpsr_cases (raw : Word) (s : State) :
    (∃ m, modeOfCode (cpsrModeField raw) = some m ∧ modeSupported s.params.hasMon m = true ∧
      setCpsr raw s = (.ok (),
        { s with coreMode := m, coreState := stateOfBits (cpsrT raw) (cpsrJ raw) }.setEntry cpsrSlot
          ((s.entry cpsrSlot).agree raw))) ∨
    setCpsr raw s = (.err .invalidMode, s) := by
  unfold setCpsr
  simp only
  split
  · exact .inr rfl
  · split
    · exact .inr rfl
    · split
      · exact .inr rfl
      · rename_i m hm h
        exact .inl ⟨m, hm, by simpa using h, rfl⟩

end Sys2Proof.Machine
end

