-- ==== Sys2Proof/Laws/Decode.lean ====
section
/-! SUPPORT. The decoding tables are unambiguous: two rows fix some bit differently, but for the two no-ops, which are words
of the moves (R71). -/

namespace Sys2Proof

/-- Two A32 rows fix some bit differently. -/
def Row32.apart (a b : Row32) : Prop := (a.mask &&& b.mask) &&& (a.value ^^^ b.value) ≠ 0

/-- Two T16x2 rows fix some bit differently. -/
def Row16.apart (a b : Row16) : Prop := (a.mask &&& b.mask) &&& (a.value ^^^ b.value) ≠ 0

/-- A word that belongs to two masks agrees with both values where both masks look. -/
theorem masked_agree {n : Nat} {w m m' v v' : BitVec n} (h : w &&& m = v) (h' : w &&& m' = v') :
    (m &&& m') &&& (v ^^^ v') = 0 := by
  subst h h'
  ext i hi
  cases w[i] <;> cases m[i] <;> cases m'[i] <;> simp_all

/-- Rows that fix some bit differently share no word. R70. -/
theorem Row32.apart_hits {a b : Row32} (h : a.apart b) {w : Word} (ha : a.hits w = true) : b.hits w = false := by
  by_contra hb
  rw [Bool.not_eq_false] at hb
  exact h (masked_agree (of_decide_eq_true ha) (of_decide_eq_true hb))

/-- Rows that fix some bit differently share no halfword. R70. -/
theorem Row16.apart_hits {a b : Row16} (h : a.apart b) {w : Half} (ha : a.hits w = true) : b.hits w = false := by
  by_contra hb
  rw [Bool.not_eq_false] at hb
  exact h (masked_agree (of_decide_eq_true ha) (of_decide_eq_true hb))

/-- No two A32 rows but the no-op's share a word; the no-op's shares one with the move's only. R71. -/
theorem rows32_apart : rows32.tail.Pairwise Row32.apart ∧ ∀ r ∈ rows32.drop 2, Row32.apart ⟨0xFFFFFFFF, 0xE1A08008, fun _ => .armNop⟩ r := by
  constructor
  · simp only [rows32, rowsArmCore, rowsArmOther, rowsArmPostIndexed, List.cons_append, List.nil_append, List.tail_cons]
    unfold Row32.apart
    decide
  · simp only [rows32, rowsArmCore, rowsArmOther, rowsArmPostIndexed, List.cons_append, List.nil_append]
    unfold Row32.apart
    decide

/-- No two T16x2 rows but the no-op's share a halfword. R71. -/
theorem rows16_apart : rows16.tail.Pairwise Row16.apart ∧ ∀ r ∈ rows16.drop 2, Row16.apart ⟨0xFFFF, 0x46C0, fun _ => .tNop⟩ r := by
  constructor
  · simp only [rows16, List.tail_cons]
    unfold Row16.apart
    decide
  · unfold rows16 Row16.apart
    decide

end Sys2Proof
end

