-- ==== Sys2Proof/Laws/Flush.lean ====
section
/-! SUPPORT. The loop of `flush`, said once for success and once for failure, and the number of entries of a sound cache. -/

namespace Sys2Proof.Machine

/-- With an instance and a sound cache there is one entry per slot. R11. -/
theorem State.cache_length {s : State} (hb : s.built = true) (hc : s.cacheOk) : s.cache.length = s.slots := by
  have := congrArg List.length hc.1
  simp only [hb, if_true, List.length_map] at this
  rw [this]; unfold State.slots; cases s.params.hasMon <;> rfl

/-- What the loop of `flush` does when it succeeds, over slots without repeats. R156. -/
theorem flushSlots_ok (l : List Nat) : ∀ (s t : State), l.Nodup → flushSlots l s = (.ok (), t) →
    CacheAndBusOnly s t ∧
    t.transport.log = s.transport.log ++ (l.filter fun n => (s.entry n).dirty).map (fun n => .writeRegister n (s.entry n).value (.ok ())) ∧
    (∀ n, n < s.cache.length → t.entry n = if n ∈ l then (s.entry n).clean else s.entry n) := by
  induction l with
  | nil => intro s t _ h; simp only [flushSlots] at h; cases h; exact ⟨rfl, by simp, by simp⟩
  | cons k l ih =>
    intro s t hd h
    simp only [List.nodup_cons] at hd
    unfold flushSlots at h
    split at h
    · rename_i hk
      rcases flushSlot_cases k s with ⟨h1, h2⟩ | ⟨e, h1, h2⟩ <;> rw [h2] at h <;> dsimp only at h
      · obtain ⟨i1, i2, i3⟩ := ih _ _ hd.2 h
        set u := ((s.withTransport (s.transport.writeRegister k (s.entry k).value).2).setEntry k (s.entry k).clean) with hu
        have hne : ∀ n, n ≠ k → u.entry n = s.entry n := fun n hn => State.entry_setEntry_ne (Ne.symm hn)
        refine ⟨CacheAndBusOnly.trans (b := u) rfl i1, ?_, ?_⟩
        · rw [i2, List.filter_cons_of_pos (by simpa using hk)]
          have : u.transport.log = s.transport.log ++ [.writeRegister k (s.entry k).value (.ok ())] := by
            simp only [hu, State.setEntry_transport, State.withTransport_transport, Transport.writeRegister_log, h1]
          rw [this]
          simp only [List.append_assoc, List.map_cons, List.cons_append, List.nil_append]
          congr 2
          rw [List.filter_congr (q := fun n => (s.entry n).dirty) (fun n hn => by rw [hne n (by rintro rfl; exact hd.1 hn)])]
          refine List.map_congr_left fun n hn => ?_
          rw [hne n (by rintro rfl; exact hd.1 (List.mem_filter.1 hn).1)]
        · intro n hn
          rw [i3 n (by simpa [hu] using hn)]
          by_cases hnk : n = k
          · subst hnk; simp only [hd.1, if_false, List.mem_cons, true_or, if_true]
            exact State.entry_setEntry_self (by simpa using hn)
          · simp [hne n hnk, hnk]
      · cases h
    · rename_i hk
      obtain ⟨i1, i2, i3⟩ := ih _ _ hd.2 h
      refine ⟨i1, by rw [i2, List.filter_cons_of_neg (by simpa using hk)], fun n hn => ?_⟩
      rw [i3 n hn]
      by_cases hnk : n = k
      · subst hnk
        simp only [hd.1, if_false, List.mem_cons, true_or, if_true]
        simp only [CacheEntry.clean]
        simp at hk; rw [← hk]
      · simp [hnk]

theorem ext_entry {s : State} {c : List CacheEntry} (hl : c.length = s.cache.length) (h : ∀ n, n < s.cache.length → s.entry n = c.getD n (freshEntry "")) : s.cache = c := by
  apply List.ext_getElem hl.symm
  intro i h1 h2
  have := h i h1
  simp [State.entry, h1, h2] at this
  exact this

/-- What the loop of `flush` does when it fails: the dirty slots before some dirty slot are written and cleaned, that one's call fails. R156. -/
theorem flushSlots_err (l : List Nat) : ∀ (s t : State) e, l.Nodup → flushSlots l s = (.err e, t) →
    ∃ l1 k l2, l = l1 ++ k :: l2 ∧ (s.entry k).dirty = true ∧ CacheAndBusOnly s t ∧
    t.transport.log = s.transport.log ++ (l1.filter fun n => (s.entry n).dirty).map (fun n => .writeRegister n (s.entry n).value (.ok ())) ++ [.writeRegister k (s.entry k).value (.err e)] ∧
    (∀ n, n < s.cache.length → t.entry n = if n ∈ l1 then (s.entry n).clean else s.entry n) ∧ (∀ n, n ∉ l1 → t.entry n = s.entry n) := by
  induction l with
  | nil => intro s t e _ h; simp only [flushSlots] at h; cases h
  | cons k l ih =>
    intro s t e hd h
    simp only [List.nodup_cons] at hd
    unfold flushSlots at h
    split at h
    · rename_i hk
      rcases flushSlot_cases k s with ⟨h1, h2⟩ | ⟨e, h1, h2⟩ <;> rw [h2] at h <;> dsimp only at h
      · obtain ⟨l1, k', l2, hl, hk', i1, i2, i3, i4⟩ := ih _ _ _ hd.2 h
        have hkl : k ∉ l1 := by intro hh; apply hd.1; rw [hl]; simp [hh]
        have hkk : k' ≠ k := by rintro rfl; apply hd.1; rw [hl]; simp
        set u := ((s.withTransport (s.transport.writeRegister k (s.entry k).value).2).setEntry k (s.entry k).clean) with hu
        have hne : ∀ n, n ≠ k → u.entry n = s.entry n := fun n hn => State.entry_setEntry_ne (Ne.symm hn)
        refine ⟨k :: l1, k', l2, by rw [hl]; rfl, by rw [← hne k' hkk]; exact hk', CacheAndBusOnly.trans (b := u) rfl i1, ?_, ?_, ?_⟩
        · rw [i2, List.filter_cons_of_pos (by simpa using hk), hne k' hkk]
          have : u.transport.log = s.transport.log ++ [.writeRegister k (s.entry k).value (.ok ())] := by
            simp only [hu, State.setEntry_transport, State.withTransport_transport, Transport.writeRegister_log, h1]
          rw [this]
          simp only [List.append_assoc, List.map_cons, List.cons_append, List.nil_append]
          congr 3
          rw [List.filter_congr (q := fun n => (s.entry n).dirty) (fun n hn => by rw [hne n (by rintro rfl; exact hkl hn)])]
          refine List.map_congr_left fun n hn => ?_
          rw [hne n (by rintro rfl; exact hkl (List.mem_filter.1 hn).1)]
        · intro n hn
          rw [i3 n (by simpa [hu] using hn)]
          by_cases hnk : n = k
          · subst hnk; simp only [hkl, if_false, List.mem_cons, true_or, if_true]
            exact State.entry_setEntry_self (by simpa using hn)
          · simp [hne n hnk, hnk]
        · intro n hn
          simp at hn
          rw [i4 n hn.2, hne n hn.1]
      · cases h
        refine ⟨[], k, l, rfl, hk, rfl, ?_, ?_, fun _ _ => rfl⟩
        · simp only [List.filter_nil, List.map_nil, List.append_nil, State.withTransport_transport, Transport.writeRegister_log, h1]
        · intro n hn; simp
    · rename_i hk
      obtain ⟨l1, k', l2, hl, hk', i1, i2, i3, i4⟩ := ih _ _ _ hd.2 h
      have hkl : k ∉ l1 := by intro hh; apply hd.1; rw [hl]; simp [hh]
      refine ⟨k :: l1, k', l2, by rw [hl]; rfl, hk', i1, by rw [i2, List.filter_cons_of_neg (by simpa using hk)], fun n hn => ?_, fun n hn => i4 n (by simp at hn; exact hn.2)⟩
      rw [i3 n hn]
      by_cases hnk : n = k
      · subst hnk
        simp only [hkl, if_false, List.mem_cons, true_or, if_true]
        simp only [CacheEntry.clean]
        simp at hk; rw [← hk]
      · simp [hnk]

end Sys2Proof.Machine
end

