-- ==== Sys2Proof/Laws/PerInstr.lean ====
section
/-! SUPPORT. What is said of every template call as syntax, one lemma per constructor of Instr. -/

namespace Sys2Proof.Laws.EncodedShape

/-- The shape of an encoded word: "always" in bits 31 to 28 of an A32 word (R64), equal halves in a T16x2 word (R63). -/
def Statement (i : Instr) : Prop :=
  match i.format with
  | .a32 => (encode i).extractLsb' 28 4 = 0b1110#4
  | .t16x2 => highHalf (encode i) = lowHalf (encode i)

/-- The two halves of a doubled halfword are equal. R63. -/
theorem twice_halves (h : Half) : highHalf (twice h) = lowHalf (twice h) := by
  unfold highHalf lowHalf twice
  ext i hi
  simp only [BitVec.getElem_extractLsb', BitVec.getLsbD_append]
  simp [hi]

/-! The condition field of each A32 format of R65. -/

theorem dpReg_always (rd rm) : (encDpReg rd rm).extractLsb' 28 4 = 0b1110#4 := by
  unfold encDpReg
  ext i hi
  simp only [BitVec.getElem_extractLsb', BitVec.getLsbD_append]
  interval_cases i <;> simp

theorem dpImm_always (rd rotate imm8) : (encDpImm rd rotate imm8).extractLsb' 28 4 = 0b1110#4 := by
  unfold encDpImm
  ext i hi
  simp only [BitVec.getElem_extractLsb', BitVec.getLsbD_append]
  interval_cases i <;> simp

theorem lsImm_always (p u b w l rn rd imm12) : (encLsImm p u b w l rn rd imm12).extractLsb' 28 4 = 0b1110#4 := by
  unfold encLsImm
  ext i hi
  simp only [BitVec.getElem_extractLsb', BitVec.getLsbD_append]
  interval_cases i <;> simp

theorem lsHalf_always (p u w l rn rd immH immL) : (encLsHalf p u w l rn rd immH immL).extractLsb' 28 4 = 0b1110#4 := by
  unfold encLsHalf
  ext i hi
  simp only [BitVec.getElem_extractLsb', BitVec.getLsbD_append]
  interval_cases i <;> simp

theorem lsMult_always (s w l rn list) : (encLsMult s w l rn list).extractLsb' 28 4 = 0b1110#4 := by
  unfold encLsMult
  ext i hi
  simp only [BitVec.getElem_extractLsb', BitVec.getLsbD_append]
  interval_cases i <;> simp

theorem branch_always (l imm24) : (encBranch l imm24).extractLsb' 28 4 = 0b1110#4 := by
  unfold encBranch
  ext i hi
  simp only [BitVec.getElem_extractLsb', BitVec.getLsbD_append]
  interval_cases i <;> simp

theorem bx_always (rm) : (encBx rm).extractLsb' 28 4 = 0b1110#4 := by
  unfold encBx
  ext i hi
  simp only [BitVec.getElem_extractLsb', BitVec.getLsbD_append]
  interval_cases i <;> simp

theorem mrs_always (r rd) : (encMrs r rd).extractLsb' 28 4 = 0b1110#4 := by
  unfold encMrs
  ext i hi
  simp only [BitVec.getElem_extractLsb', BitVec.getLsbD_append]
  interval_cases i <;> simp

theorem msrReg_always (r fieldMask rm) : (encMsrReg r fieldMask rm).extractLsb' 28 4 = 0b1110#4 := by
  unfold encMsrReg
  ext i hi
  simp only [BitVec.getElem_extractLsb', BitVec.getLsbD_append]
  interval_cases i <;> simp

theorem msrImm_always (r fieldMask rotate imm8) : (encMsrImm r fieldMask rotate imm8).extractLsb' 28 4 = 0b1110#4 := by
  unfold encMsrImm
  ext i hi
  simp only [BitVec.getElem_extractLsb', BitVec.getLsbD_append]
  interval_cases i <;> simp

theorem cprt_always (op1 l crn rd cp op2 crm) : (encCprt op1 l crn rd cp op2 crm).extractLsb' 28 4 = 0b1110#4 := by
  unfold encCprt
  ext i hi
  simp only [BitVec.getElem_extractLsb', BitVec.getLsbD_append]
  interval_cases i <;> simp

theorem bkpt_always (imm12 imm4) : (encBkpt imm12 imm4).extractLsb' 28 4 = 0b1110#4 := by
  unfold encBkpt
  ext i hi
  simp only [BitVec.getElem_extractLsb', BitVec.getLsbD_append]
  interval_cases i <;> simp

theorem armNop : Statement .armNop := dpReg_always _ _

theorem armMov (rd rm : Word) : Statement (.armMov rd rm) := dpReg_always _ _

theorem armLdmia (rn list s w : Word) : Statement (.armLdmia rn list s w) := lsMult_always _ _ _ _ _

theorem armStmia (rn list s w : Word) : Statement (.armStmia rn list s w) := lsMult_always _ _ _ _ _

theorem armLdr (rd rn : Word) : Statement (.armLdr rd rn) := lsImm_always _ _ _ _ _ _ _ _

theorem armStr (rd rn : Word) : Statement (.armStr rd rn) := lsImm_always _ _ _ _ _ _ _ _

theorem armBkpt (im : Word) : Statement (.armBkpt im) := bkpt_always _ _

theorem armMovIm (rd rotate im : Word) : Statement (.armMovIm rd rotate im) := dpImm_always _ _ _

theorem armB (im l : Word) : Statement (.armB im l) := branch_always _ _

theorem armBx (rm : Word) : Statement (.armBx rm) := bx_always _

theorem armMrs (rd r : Word) : Statement (.armMrs rd r) := mrs_always _ _

theorem armMsrGp (rm field r : Word) : Statement (.armMsrGp rm field r) := msrReg_always _ _ _

theorem armMsrIm (im rotate field r : Word) : Statement (.armMsrIm im rotate field r) := msrImm_always _ _ _ _

theorem armMrc (cp op1 rd crn crm op2 : Word) : Statement (.armMrc cp op1 rd crn crm op2) := cprt_always _ _ _ _ _ _ _

theorem armMcr (cp op1 rd crn crm op2 : Word) : Statement (.armMcr cp op1 rd crn crm op2) := cprt_always _ _ _ _ _ _ _

theorem armLdrwIp (rd rn : Word) : Statement (.armLdrwIp rd rn) := lsImm_always _ _ _ _ _ _ _ _

theorem armLdrhIp (rd rn : Word) : Statement (.armLdrhIp rd rn) := lsHalf_always _ _ _ _ _ _ _ _

theorem armLdrbIp (rd rn : Word) : Statement (.armLdrbIp rd rn) := lsImm_always _ _ _ _ _ _ _ _

theorem armStrwIp (rd rn : Word) : Statement (.armStrwIp rd rn) := lsImm_always _ _ _ _ _ _ _ _

theorem armStrhIp (rd rn : Word) : Statement (.armStrhIp rd rn) := lsHalf_always _ _ _ _ _ _ _ _

theorem armStrbIp (rd rn : Word) : Statement (.armStrbIp rd rn) := lsImm_always _ _ _ _ _ _ _ _

theorem tNop : Statement .tNop := twice_halves _

theorem tMov (rd rm h1 h2 : Word) : Statement (.tMov rd rm h1 h2) := twice_halves _

theorem tMovIm (rd im : Word) : Statement (.tMovIm rd im) := twice_halves _

theorem tLdmia (rn list : Word) : Statement (.tLdmia rn list) := twice_halves _

theorem tStmia (rn list : Word) : Statement (.tStmia rn list) := twice_halves _

theorem tLdr (rd rn : Word) : Statement (.tLdr rd rn) := twice_halves _

theorem tStr (rd rn : Word) : Statement (.tStr rd rn) := twice_halves _

theorem tLdrPcrel (rd : Word) : Statement (.tLdrPcrel rd) := twice_halves _

theorem tBx (rm : Word) : Statement (.tBx rm) := twice_halves _

theorem tB (imm : Word) : Statement (.tB imm) := twice_halves _

theorem tBkpt (im : Word) : Statement (.tBkpt im) := twice_halves _

end Sys2Proof.Laws.EncodedShape
end

