-- ==== Sys2Proof/Laws/Sequencer.lean ====
section
/-! SUPPORT. What each part of the sequencer keeps, said once: the parameters, the inbox and a sound cache; how the record
of calls grows; and that every transition of R171 goes on towards IDLE, which is reached with the sequencer at its reset
values. -/

namespace Sys2Proof.Machine

/-- What a run keeps of the state at every point. -/
structure Steady (s t : State) : Prop where
  params : t.params = s.params
  built : t.built = s.built
  inbox : t.inbox = s.inbox
  cache : CacheKept s.cache t.cache
  mode : s.modeOk → t.modeOk

theorem Steady.refl (s : State) : Steady s s := ⟨rfl, rfl, rfl, .refl _, id⟩

theorem Steady.trans {a b c : State} (h : Steady a b) (h' : Steady b c) : Steady a c :=
  ⟨h'.params.trans h.params, h'.built.trans h.built, h'.inbox.trans h.inbox, h.cache.trans h'.cache, fun m => h'.mode (h.mode m)⟩

/-- A state that differs in other fields only is as steady. -/
theorem Steady.same {s t u : State} (h : Steady s t) (hp : u.params = t.params) (hb : u.built = t.built)
    (hi : u.inbox = t.inbox) (hc : u.cache = t.cache) (hm : u.coreMode = t.coreMode) : Steady s u :=
  ⟨hp.trans h.params, hb.trans h.built, hi.trans h.inbox, hc ▸ h.cache, fun m => by
    have := h.mode m
    unfold State.modeOk at *
    rw [hp, hm]; exact this⟩

theorem CacheAndBusOnly.steady {s t : State} (h : CacheAndBusOnly s t) (hc : CacheKept s.cache t.cache) : Steady s t := by
  unfold CacheAndBusOnly at h
  exact ⟨by rw [h], by rw [h], by rw [h], hc, fun m => by unfold State.modeOk at *; rw [h]; exact m⟩

theorem RegisterOp.steady {s t : State} (h : RegisterOp s t) : Steady s t := h.frame.steady h.cache

/-! The snapshot. -/

theorem snapshot_op (l : List Nat) (s : State) : RegisterOp s (snapshot l s).2 := by
  induction l generalizing s with
  | nil => exact .refl s
  | cons n l ih =>
    have h := readSlot_op n s
    unfold snapshot
    split <;> rename_i heq <;> rw [heq] at h
    · exact h
    · have h' := ih (by assumption)
      split <;> rename_i heq' <;> rw [heq'] at h' <;> exact h.trans h'

theorem prepare_steady (req : RunRequest) (s : State) : Steady s (prepare req s).2 := by
  have h0 : Steady s { s with diag := [], harvest := [], bp := none, primary := none } :=
    (Steady.refl s).same rfl rfl rfl rfl rfl
  unfold prepare
  simp only
  split
  · exact h0
  · split
    · exact h0
    · split
      · exact h0
      · rename_i slots _
        have h := snapshot_op (saveSlots slots) { s with diag := [], harvest := [], bp := none, primary := none }
        split <;> rename_i heq <;> rw [heq] at h <;> exact (h0.trans h.steady).same rfl rfl rfl rfl rfl

/-! Install. -/

/-- The calls of Install's memory loop. R173. -/
def Transaction.isMemoryWrite : Transaction → Prop
  | .writeMemory _ _ _ _ _ => True
  | _ => False

theorem memWrite_log (t : Transport) (a : Word) (n : Nat) (v : List Byte) :
    Grew Transaction.isMemoryWrite t.log (t.memWrite a n v).2.log := by
  unfold Transport.memWrite
  split
  · exact .refl _ _
  · exact .one trivial

theorem installMemory_op (l : List MemParam) (s : State) :
    (installMemory l s).2 = s.withTransport (installMemory l s).2.transport ∧
      Grew Transaction.isMemoryWrite s.transport.log (installMemory l s).2.transport.log := by
  induction l generalizing s with
  | nil => exact ⟨rfl, .refl _ _⟩
  | cons p l ih =>
    unfold installMemory
    split
    · have h := memWrite_log s.transport p.addr p.size p.value
      split <;> rename_i heq <;> rw [heq] at h
      · rename_i t
        have h' := ih (s.withTransport t)
        exact ⟨by rw [h'.1]; rfl, h.trans h'.2⟩
      · exact ⟨rfl, h⟩
    · exact ih s

theorem installRegisters_op (l : List (RegParam × Nat)) (s : State) : RegisterOp s (installRegisters l s) := by
  induction l generalizing s with
  | nil => exact .refl s
  | cons p l ih =>
    obtain ⟨p, n⟩ := p
    unfold installRegisters
    split
    · exact (writeSlot_op n p.value s).trans (ih _)
    · exact ih s

/-! Restore and Rollback. -/

/-- `t` differs from `s` in the cache, the transport and the diagnostics only. -/
def RestoreFrame (s t : State) : Prop := t = { s with cache := t.cache, transport := t.transport, diag := t.diag }

theorem RestoreFrame.trans {a b c : State} (h : RestoreFrame a b) (h' : RestoreFrame b c) : RestoreFrame a c := by
  unfold RestoreFrame at *
  rw [h', h]

/-- `Restore`, case by case. R179. -/
theorem restore_cases (n : Nat) (v : Word) (s : State) :
    ((s.transport.writeRegister n ((s.setEntry n ((s.entry n).pending v)).entry n).value).1 = .ok () ∧
      restore n v s = (((s.setEntry n ((s.entry n).pending v)).withTransport
        (s.transport.writeRegister n ((s.setEntry n ((s.entry n).pending v)).entry n).value).2).setEntry n
          ((s.setEntry n ((s.entry n).pending v)).entry n).clean)) ∨
    (∃ e, (s.transport.writeRegister n ((s.setEntry n ((s.entry n).pending v)).entry n).value).1 = .err e ∧
      restore n v s = { (s.setEntry n ((s.entry n).pending v)).withTransport
        (s.transport.writeRegister n ((s.setEntry n ((s.entry n).pending v)).entry n).value).2 with
          diag := s.diag ++ [{ what := .restore n, error := .transportError e }] }) := by
  have h := flushSlot_cases n (s.setEntry n ((s.entry n).pending v))
  rw [State.setEntry_transport] at h
  unfold restore
  rcases h with ⟨h1, h2⟩ | ⟨e, h1, h2⟩
  · exact .inl ⟨h1, by rw [h2]⟩
  · exact .inr ⟨e, h1, by rw [h2]; rfl⟩

theorem restore_op (n : Nat) (v : Word) (s : State) :
    RestoreFrame s (restore n v s) ∧ CacheKept s.cache (restore n v s).cache ∧
      ∃ w a, (restore n v s).transport.log = s.transport.log ++ [.writeRegister n w a] := by
  have hp : CacheKept s.cache (s.setEntry n ((s.entry n).pending v)).cache := .set rfl CacheEntry.pending_ok
  rcases restore_cases n v s with ⟨_, h⟩ | ⟨e, _, h⟩ <;> rw [h]
  · exact ⟨rfl, hp.trans (CacheKept.set (s := s.setEntry n ((s.entry n).pending v)) rfl CacheEntry.clean_ok), _, _, rfl⟩
  · exact ⟨rfl, hp, _, _, rfl⟩

theorem restoreAll_op (l : List (Nat × Word)) (s : State) :
    RestoreFrame s (restoreAll l s) ∧ CacheKept s.cache (restoreAll l s).cache ∧
      Grew Transaction.isRegisterCall s.transport.log (restoreAll l s).transport.log := by
  induction l generalizing s with
  | nil => exact ⟨rfl, .refl _, .refl _ _⟩
  | cons p l ih =>
    obtain ⟨n, v⟩ := p
    obtain ⟨h1, h2, w, a, h3⟩ := restore_op n v s
    obtain ⟨i1, i2, i3⟩ := ih (restore n v s)
    exact ⟨h1.trans i1, h2.trans i2, Grew.trans (h3 ▸ .one trivial) i3⟩

theorem RestoreFrame.steady {s t : State} (h : RestoreFrame s t) (hc : CacheKept s.cache t.cache) : Steady s t := by
  unfold RestoreFrame at h
  exact ⟨by rw [h], by rw [h], by rw [h], hc, fun m => by unfold State.modeOk at *; rw [h]; exact m⟩

theorem rollback_steady (s : State) : Steady s (rollback s) :=
  (restoreAll_op s.saveList s).1.steady (restoreAll_op s.saveList s).2.1

theorem finish_steady {s t : State} (o : RunOutcome) (h : Steady s t) : Steady s (finish o t) := h.same rfl rfl rfl rfl rfl

theorem finish_quiet (o : RunOutcome) (s : State) : (finish o s).quiet := ⟨rfl, rfl, rfl, rfl, rfl, rfl, rfl, rfl⟩

@[simp] theorem finish_reply (o : RunOutcome) (s : State) : (finish o s).reply = some (.run (runResult o s)) := rfl

@[simp] theorem finish_transport (o : RunOutcome) (s : State) : (finish o s).transport = s.transport := rfl

@[simp] theorem finish_cache (o : RunOutcome) (s : State) : (finish o s).cache = s.cache := rfl

/-! Harvest and Cleanup. -/

theorem harvestMemory_frame (l : List MemParam) (s : State) :
    harvestMemory l s =
      { s with transport := (harvestMemory l s).transport, harvest := (harvestMemory l s).harvest } := by
  induction l generalizing s with
  | nil => rfl
  | cons p l ih =>
    unfold harvestMemory
    split
    · split
      rw [ih]; rfl
    · exact ih s

theorem harvestRegisters_steady (l : List (RegParam × Nat)) (s : State) : Steady s (harvestRegisters l s) := by
  induction l generalizing s with
  | nil => exact .refl s
  | cons p l ih =>
    obtain ⟨p, n⟩ := p
    unfold harvestRegisters
    split
    · have h := readSlot_op n s
      split
      rename_i a s' heq
      rw [heq] at h
      have h' : Steady s { s' with harvest := s'.harvest ++ [.reg p a] } := h.steady.same rfl rfl rfl rfl rfl
      exact h'.trans (ih _)
    · exact ih s

theorem removeExitBreakpoint_steady (s : State) : Steady s (removeExitBreakpoint s) := by
  unfold removeExitBreakpoint
  split
  · exact .refl s
  · split <;> exact (Steady.refl s).same rfl rfl rfl rfl rfl

theorem cleanupRefresh_steady (s : State) : Steady s (cleanupRefresh s) := by
  have h := fullContextRefresh_op s
  unfold cleanupRefresh
  split <;> rename_i heq <;> rw [heq] at h
  · exact h.1.steady h.2.1
  · exact (h.1.steady h.2.1).same rfl rfl rfl rfl rfl

theorem resync_steady (s : State) : Steady s (resync s) := by
  unfold resync
  rcases setCpsr_cases (s.entry cpsrSlot).value s with ⟨m, _, hm, h⟩ | h <;> rw [h]
  · refine ⟨rfl, rfl, rfl, ?_, fun _ => hm⟩
    have h1 : CacheKept s.cache (s.setEntry cpsrSlot ((s.entry cpsrSlot).agree (s.entry cpsrSlot).value)).cache :=
      .set rfl CacheEntry.agree_ok
    refine h1.trans (CacheKept.set
      (s := s.setEntry cpsrSlot ((s.entry cpsrSlot).agree (s.entry cpsrSlot).value)) rfl fun h => ⟨h.1, fun _ => ?_⟩)
    by_cases hl : cpsrSlot < s.cache.length
    · change (State.entry (s.setEntry cpsrSlot ((s.entry cpsrSlot).agree (s.entry cpsrSlot).value)) cpsrSlot).valid = true
      rw [State.entry_setEntry_self hl]; rfl
    · rename_i hd
      simp [State.entry, List.getD_eq_getElem?_getD, List.getElem?_eq_none (Nat.le_of_not_lt hl), freshEntry] at hd
  · exact (Steady.refl s).same rfl rfl rfl rfl rfl

theorem cleanup_steady (s : State) : Steady s (cleanup s) :=
  (((removeExitBreakpoint_steady s).trans (rollback_steady _)).trans (cleanupRefresh_steady _)).trans (resync_steady _)

/-! The phases. -/

/-- How far a phase is from IDLE in the table of R171. -/
def Phase.rank : Phase → Nat
  | .idle => 0
  | .cleanup => 1
  | .harvest => 2
  | .await => 3
  | .resume => 4
  | .armExit => 5
  | .install => 6
  | .prepare => 7

/-- A transition goes on: to a later phase with the same request, or to IDLE with the sequencer at its reset values and the
run's result as the reply. -/
def Onward (s t : State) : Prop :=
  (t.phase.rank < s.phase.rank ∧ t.phase ≠ .idle ∧ t.req = s.req ∧ ((t.phase = .harvest ∨ t.phase = .cleanup) → t.primary.isSome = true)) ∨
    (t.quiet ∧ ∃ r, t.reply = some (.run r))

theorem preparePhase_steady (req : RunRequest) (s : State) : Steady s (preparePhase req s) := by
  have h := prepare_steady req s
  unfold preparePhase
  split <;> rename_i heq <;> rw [heq] at h
  · exact h.same rfl rfl rfl rfl rfl
  · exact finish_steady _ h

theorem prepare_req (req : RunRequest) (s : State) : (prepare req s).2.req = s.req := by
  unfold prepare
  simp only
  split
  · rfl
  · split
    · rfl
    · split
      · rfl
      · rename_i slots _
        have h := (snapshot_op (saveSlots slots) { s with diag := [], harvest := [], bp := none, primary := none }).frame
        split <;> rename_i heq <;> rw [heq] at h <;> (unfold CacheAndBusOnly at h; dsimp only at h ⊢; rw [h])

theorem preparePhase_onward (req : RunRequest) {s : State} (hp : s.phase = .prepare) : Onward s (preparePhase req s) := by
  have h := prepare_req req s
  unfold preparePhase
  split <;> rename_i heq <;> rw [heq] at h
  · exact .inl ⟨by simp [hp, Phase.rank], by simp, h, by simp⟩
  · exact .inr ⟨finish_quiet _ _, _, rfl⟩

theorem installPhase_steady (req : RunRequest) (s : State) : Steady s (installPhase req s) := by
  have h := (installMemory_op req.memParams s).1
  have h0 : Steady s (installMemory req.memParams s).2 := by rw [h]; exact (Steady.refl s).same rfl rfl rfl rfl rfl
  unfold installPhase
  split <;> rename_i heq <;> rw [heq] at h0
  · exact finish_steady _ (h0.trans (rollback_steady _))
  · exact (h0.trans (installRegisters_op _ _).steady).same rfl rfl rfl rfl rfl

theorem installPhase_onward (req : RunRequest) {s : State} (hp : s.phase = .install) : Onward s (installPhase req s) := by
  have h := (installMemory_op req.memParams s).1
  unfold installPhase
  split <;> rename_i heq <;> rw [heq] at h
  · exact .inr ⟨finish_quiet _ _, _, rfl⟩
  · rename_i t
    have h' := (installRegisters_op (req.regParams.zip t.regSlots) t).frame
    unfold CacheAndBusOnly at h'
    refine .inl ⟨by simp [hp, Phase.rank], by simp, ?_, by simp⟩
    change (installRegisters (req.regParams.zip t.regSlots) t).req = s.req
    rw [h']; dsimp only at h; rw [h]; rfl

theorem armExitPhase_steady (req : RunRequest) (s : State) : Steady s (armExitPhase req s) := by
  unfold armExitPhase
  split
  · exact (Steady.refl s).same rfl rfl rfl rfl rfl
  · rename_i t _
    have h : Steady s (s.withTransport t) := (Steady.refl s).same rfl rfl rfl rfl rfl
    exact finish_steady _ (h.trans (rollback_steady _))

theorem armExitPhase_onward (req : RunRequest) {s : State} (hp : s.phase = .armExit) : Onward s (armExitPhase req s) := by
  unfold armExitPhase
  split
  · exact .inl ⟨by simp [hp, Phase.rank], by simp, rfl, by simp⟩
  · exact .inr ⟨finish_quiet _ _, _, rfl⟩

theorem resumePhase_steady (req : RunRequest) (s : State) : Steady s (resumePhase req s) := by
  unfold resumePhase
  simp only
  have h1 := writeSlot_op pcSlot (pcEntry s.params.pcEntry s.coreState req.entry) s
  have h2 := flush_op (writeSlot pcSlot (pcEntry s.params.pcEntry s.coreState req.entry) s).2
  split <;> rename_i heq <;> rw [heq] at h2
  · exact (h1.steady.trans h2.steady).same rfl rfl rfl rfl rfl
  · split
    · exact (h1.steady.trans h2.steady).same rfl rfl rfl rfl rfl
    · refine (h1.steady.trans h2.steady).trans ⟨rfl, rfl, rfl, ?_, id⟩
      exact invalidateAll_cache _

theorem resumePhase_onward (req : RunRequest) {s : State} (hp : s.phase = .resume) : Onward s (resumePhase req s) := by
  unfold resumePhase
  simp only
  have h1 := (writeSlot_op pcSlot (pcEntry s.params.pcEntry s.coreState req.entry) s).frame
  have h2 := (flush_op (writeSlot pcSlot (pcEntry s.params.pcEntry s.coreState req.entry) s).2).frame
  have h := h1.trans h2
  unfold CacheAndBusOnly at h
  split <;> rename_i heq <;> rw [heq] at h <;> dsimp only at h
  · exact .inl ⟨by simp [hp, Phase.rank], by simp, by dsimp only; rw [h], by simp⟩
  · split
    · exact .inl ⟨by simp [hp, Phase.rank], by simp, by dsimp only [State.withTransport]; rw [h], by simp⟩
    · exact .inl ⟨by simp [hp, Phase.rank], by simp, by dsimp only [State.withTransport, invalidateAll]; rw [h], by simp⟩

theorem awaitPhase_steady (req : RunRequest) (s : State) : Steady s (awaitPhase req s) := by
  unfold awaitPhase
  split
  · split <;> exact (Steady.refl s).same rfl rfl rfl rfl rfl
  · split <;> exact (Steady.refl s).same rfl rfl rfl rfl rfl

theorem awaitPhase_onward (req : RunRequest) {s : State} (hp : s.phase = .await) : Onward s (awaitPhase req s) := by
  unfold awaitPhase
  split
  · split <;> exact .inl ⟨by simp [hp, Phase.rank], by simp, rfl, by simp⟩
  · split <;> exact .inl ⟨by simp [hp, Phase.rank], by simp, rfl, by simp⟩

theorem harvestPhase_steady (req : RunRequest) (s : State) : Steady s (harvestPhase req s) := by
  unfold harvestPhase
  have h : Steady s (harvestMemory req.memParams s) := by
    rw [harvestMemory_frame]; exact (Steady.refl s).same rfl rfl rfl rfl rfl
  exact (h.trans (harvestRegisters_steady _ _)).same rfl rfl rfl rfl rfl

theorem harvestRegisters_seq (l : List (RegParam × Nat)) (s : State) :
    (harvestRegisters l s).req = s.req ∧ (harvestRegisters l s).primary = s.primary := by
  induction l generalizing s with
  | nil => exact ⟨rfl, rfl⟩
  | cons p l ih =>
    obtain ⟨p, n⟩ := p
    unfold harvestRegisters
    split
    · have h := (readSlot_op n s).frame
      unfold CacheAndBusOnly at h
      split
      rename_i heq
      rw [heq] at h
      dsimp only at h
      rw [(ih _).1, (ih _).2]
      dsimp only
      rw [h]
      exact ⟨rfl, rfl⟩
    · exact ih s

theorem harvestPhase_onward (req : RunRequest) {s : State} (hp : s.phase = .harvest) (ho : s.primary.isSome = true) :
    Onward s (harvestPhase req s) := by
  have h := harvestRegisters_seq (req.regParams.zip s.regSlots) (harvestMemory req.memParams s)
  rw [harvestMemory_frame] at h
  refine .inl ⟨by simp [hp, harvestPhase, Phase.rank], by simp [harvestPhase], ?_, fun _ => ?_⟩
  · change (harvestRegisters _ (harvestMemory _ _)).req = s.req
    rw [harvestMemory_frame]; exact h.1
  · change (harvestRegisters _ (harvestMemory _ _)).primary.isSome = true
    rw [harvestMemory_frame, h.2]; exact ho

theorem phaseStep_steady {s t : State} (h : phaseStep s = .next t) : Steady s t := by
  unfold phaseStep at h
  split at h
  · cases h; exact .refl s
  · cases h
  · cases h; exact preparePhase_steady _ s
  · cases h; exact installPhase_steady _ s
  · cases h; exact armExitPhase_steady _ s
  · cases h; exact resumePhase_steady _ s
  · cases h; exact awaitPhase_steady _ s
  · cases h; exact harvestPhase_steady _ s
  · split at h
    · cases h
    · cases h; exact finish_steady _ (cleanup_steady s)

/-- The sequencer can go on: it holds a request, and in the last two phases an outcome. -/
def Ready (s : State) : Prop := s.req.isSome = true ∧ ((s.phase = .harvest ∨ s.phase = .cleanup) → s.primary.isSome = true)

/-- From a ready state in a phase other than IDLE one transition goes on. R171. -/
theorem phaseStep_onward {s : State} (hn : s.phase ≠ .idle) (hr : Ready s) : ∃ t, phaseStep s = .next t ∧ Onward s t := by
  obtain ⟨hq, ho⟩ := hr
  obtain ⟨req, hreq⟩ := Option.isSome_iff_exists.1 hq
  cases hp : s.phase with
  | idle => exact absurd hp hn
  | prepare => exact ⟨_, by simp only [phaseStep, hp, hreq], preparePhase_onward req hp⟩
  | install => exact ⟨_, by simp only [phaseStep, hp, hreq], installPhase_onward req hp⟩
  | armExit => exact ⟨_, by simp only [phaseStep, hp, hreq], armExitPhase_onward req hp⟩
  | resume => exact ⟨_, by simp only [phaseStep, hp, hreq], resumePhase_onward req hp⟩
  | await => exact ⟨_, by simp only [phaseStep, hp, hreq], awaitPhase_onward req hp⟩
  | harvest => exact ⟨_, by simp only [phaseStep, hp, hreq], harvestPhase_onward req hp (ho (.inl hp))⟩
  | cleanup =>
    obtain ⟨o, hpo⟩ := Option.isSome_iff_exists.1 (ho (.inr hp))
    exact ⟨finish o (cleanup s), by simp only [phaseStep, hp, hreq, hpo], .inr ⟨finish_quiet _ _, _, rfl⟩⟩

/-- A walk along the table of R171 keeps what each transition keeps. -/
theorem runPhases_steady {n : Nat} {s t : State} (h : runPhases n s = .next t) : Steady s t := by
  induction n generalizing s with
  | zero => cases h; exact .refl _
  | succ n ih =>
    unfold runPhases at h
    split at h
    · cases h; exact .refl _
    · split at h
      · rename_i heq
        exact (phaseStep_steady heq).trans (ih h)
      · cases h
      · cases h

/-- With a transition left for each phase still ahead, the walk ends with the sequencer at its reset values. R171. -/
theorem runPhases_ends {n : Nat} {s : State} (hn : s.phase ≠ .idle) (hr : Ready s) (hrank : s.phase.rank ≤ n) :
    ∃ t r, runPhases n s = .next t ∧ t.quiet ∧ t.reply = some (.run r) := by
  induction n generalizing s with
  | zero => cases hp : s.phase <;> simp_all [Phase.rank]
  | succ n ih =>
    obtain ⟨u, hu, ⟨h1, h2, h3, h4⟩ | ⟨h1, r, h2⟩⟩ := phaseStep_onward hn hr
    · have hru : Ready u := ⟨by rw [h3]; exact hr.1, h4⟩
      obtain ⟨t, r, ht, hq, hrep⟩ := ih h2 hru (by omega)
      exact ⟨t, r, by simp only [runPhases, hn, if_false, hu, ht], hq, hrep⟩
    · refine ⟨u, r, ?_, h1, h2⟩
      cases n with
      | zero => simp only [runPhases, hn, if_false, hu]
      | succ n => simp only [runPhases, hn, if_false, hu, h1.1, if_true]

end Sys2Proof.Machine
end

