-- ==== Sys2Proof/Laws/Prepare.lean ====
section
/-! SUPPORT. The multiplexer stays inside the cache, and what Prepare resolves, reads and saves. -/

namespace Sys2Proof.Machine

/-- The list has no repeats. R172. -/
theorem dedupKeepFirst_nodup (l : List Nat) : (dedupKeepFirst l).Nodup := by
  induction l with
  | nil => simp [dedupKeepFirst]
  | cons x l ih => simp only [dedupKeepFirst, List.nodup_cons]; exact ⟨by simp, ih.filter _⟩

/-- No slot is lost. R172. -/
theorem mem_dedupKeepFirst (l : List Nat) (x) : x ∈ dedupKeepFirst l ↔ x ∈ l := by
  induction l with
  | nil => simp [dedupKeepFirst]
  | cons y l ih => simp only [dedupKeepFirst, List.mem_cons, List.mem_filter, ih]; by_cases h : x = y <;> simp [h]

/-- Removing later occurrences and filtering commute. R172. -/
theorem dedupKeepFirst_filter (p : Nat → Bool) (l : List Nat) :
    dedupKeepFirst (l.filter p) = (dedupKeepFirst l).filter p := by
  induction l with
  | nil => rfl
  | cons x l ih =>
    by_cases h : p x
    · simp [dedupKeepFirst, h, ih, List.filter_filter, Bool.and_comm]
    · rw [dedupKeepFirst, List.filter_cons_of_neg h, List.filter_cons_of_neg h, ih, List.filter_filter]
      exact List.filter_congr fun y _ => by by_cases hy : y = x <;> simp_all

/-- It is the library's list without later occurrences. R172. -/
theorem dedupKeepFirst_eq_eraseDups (l : List Nat) : dedupKeepFirst l = l.eraseDups := by
  induction hn : l.length using Nat.strongRecOn generalizing l with
  | _ n ih =>
    cases l with
    | nil => rfl
    | cons x l =>
      rw [List.eraseDups_cons, dedupKeepFirst, ← dedupKeepFirst_filter,
        ih _ (by subst hn; exact Nat.lt_succ_of_le (List.length_filter_le _ _)) _ rfl]
      congr 2
      apply List.filter_congr
      intro y _; by_cases h : y = x <;> simp [h]

/-- The snapshot names the slots it was given, in their order. R172. -/
theorem snapshot_slots {l s saved t} (h : snapshot l s = (.ok saved, t)) : (saved.map fun p => p.1) = l := by
  induction l generalizing s saved with
  | nil => simp only [snapshot] at h; cases h; rfl
  | cons n l ih =>
    unfold snapshot at h
    split at h
    · cases h
    · split at h
      · cases h
      · rename_i heq; cases h; simp [ih heq]

/-- What a successful snapshot of slots of the cache, none twice, does: one read per slot whose entry was invalid, in order,
which fills that entry; each saved value is the entry's. R172. -/
theorem snapshot_ok {l s saved t} (h : snapshot l s = (.ok saved, t)) (hn : l.Nodup) (hl : ∀ n ∈ l, n < s.cache.length) :
    t.transport.log = s.transport.log ++
      (saved.filter fun p => !(s.entry p.1).valid).map (fun p => .readRegister p.1 (.ok p.2)) ∧
    (∀ n v, (n, v) ∈ saved → t.entry n = (s.entry n).filled v ∧ ((s.entry n).valid = true → v = (s.entry n).value)) ∧
    ∀ n, n ∉ l → t.entry n = s.entry n := by
  induction l generalizing s saved with
  | nil => simp only [snapshot] at h; cases h; simp
  | cons n l ih =>
    have ⟨hnl, hn'⟩ := List.nodup_cons.1 hn
    unfold snapshot at h
    split at h
    · cases h
    · rename_i v s' hr
      split at h
      · cases h
      · rename_i rest t' hs
        cases h
        have hlen : ∀ k ∈ l, k < s'.cache.length := by
          have hc := (readSlot_op n s).cache.length
          rw [hr] at hc
          intro k hk
          exact hc ▸ hl k (List.mem_cons_of_mem _ hk)
        have ⟨i1, i2, i3⟩ := ih hs hn' hlen
        have hk : ∀ k, k ≠ n → s'.entry k = s.entry k := by
          intro k hne
          rcases readSlot_cases n s with ⟨_, h⟩ | ⟨_, _, _, h⟩ | ⟨_, _, _, h⟩ <;> rw [hr] at h <;> cases h
          · rfl
          · exact State.entry_setEntry_ne (Ne.symm hne)
        have hne : ∀ q ∈ rest, q.1 ≠ n := fun q hq he =>
          hnl (he ▸ (snapshot_slots hs) ▸ List.mem_map_of_mem hq)
        have hf : (rest.filter fun p => !(s'.entry p.1).valid) = rest.filter fun p => !(s.entry p.1).valid :=
          List.filter_congr fun q hq => by rw [hk _ (hne q hq)]
        rw [hf] at i1
        have hself : s'.entry n = (s.entry n).filled v ∧ ((s.entry n).valid = true → v = (s.entry n).value) ∧
            s'.transport.log = s.transport.log ++ (if (s.entry n).valid then [] else [.readRegister n (.ok v)]) := by
          rcases readSlot_cases n s with ⟨hv, h⟩ | ⟨hv, v', ha, h⟩ | ⟨_, _, _, h⟩ <;> rw [hr] at h <;> cases h
          · refine ⟨?_, fun _ => rfl, by simp [hv]⟩
            generalize s.entry n = e at *
            cases e; simp_all [CacheEntry.filled]
          · refine ⟨State.entry_setEntry_self (hl n (List.mem_cons_self ..)), fun h => by simp [hv] at h, ?_⟩
            rw [hv]
            change (s.transport.readRegister n).2.log = _
            rw [← ha]; rfl
        refine ⟨?_, ?_, ?_⟩
        · rw [i1, hself.2.2, List.filter_cons]
          cases (s.entry n).valid <;> simp
        · intro k w hkw
          rcases List.mem_cons.1 hkw with he | hkw
          · cases he; rw [i3 n hnl]; exact ⟨hself.1, hself.2.1⟩
          · have := i2 k w hkw
            rwa [hk k (hne _ hkw)] at this
        · intro k hkn
          rw [List.mem_cons, not_or] at hkn
          rw [i3 k hkn.2, hk k hkn.1]

/-- A snapshot fails by the first read that answers an error. R172. -/
theorem snapshot_err {l s e t} (h : snapshot l s = (.err e, t)) :
    ∃ n reads, t.transport.log = s.transport.log ++ reads ++ [.readRegister n (.err e)] ∧
      ∀ c ∈ reads, ∃ k v, c = .readRegister k (.ok v) := by
  induction l generalizing s with
  | nil => simp only [snapshot] at h; cases h
  | cons n l ih =>
    unfold snapshot at h
    split at h
    · rename_i hr
      cases h
      rcases readSlot_cases n s with ⟨_, h⟩ | ⟨_, _, _, h⟩ | ⟨_, _, ha, h⟩ <;> rw [hr] at h <;> cases h
      refine ⟨n, [], ?_, by simp⟩
      rw [← ha, List.append_nil]; rfl
    · rename_i v s' hr
      split at h
      · rename_i hs
        cases h
        obtain ⟨k, reads, i1, i2⟩ := ih hs
        rcases readSlot_cases n s with ⟨_, h⟩ | ⟨_, _, ha, h⟩ | ⟨_, _, _, h⟩ <;> rw [hr] at h <;> cases h
        · exact ⟨k, reads, i1, i2⟩
        · refine ⟨k, .readRegister n (.ok v) :: reads, ?_, ?_⟩
          · rw [i1]
            change (s.transport.readRegister n).2.log ++ _ ++ _ = _
            have : (s.transport.readRegister n).2.log = s.transport.log ++ [.readRegister n (.ok v)] := by rw [← ha]; rfl
            rw [this]; simp
          · intro c hc
            rcases List.mem_cons.1 hc with rfl | hc
            · exact ⟨n, v, rfl⟩
            · exact i2 c hc
      · cases h

/-- MAP resolves to a slot of the cache. R141. -/
theorem mapRegister_lt {hm cm m n slot} (h : mapRegister hm cm m n = .ok slot) : slot < nslot hm := by
  unfold mapRegister at h
  simp only at h
  generalize effectiveMode cm m = e at *
  split at h <;> try cases h
  split at h <;> try cases h
  rename_i hs hn
  have aux : ∀ n ≤ 16, ∀ i < 8, i ≠ 5 → bankSlot i n < 37 := by decide
  have aux2 : ∀ n ≤ 16, bankSlot 5 n < 40 := by decide
  cases e <;> simp [modeToIndex] at h <;> subst h <;> cases hm <;> simp [modeSupported] at hs <;> simp [nslot]
  all_goals first | exact aux2 n (by omega) | (exact aux n (by omega) _ (by decide) (by decide)) | (exact Nat.lt_trans (aux n (by omega) _ (by decide) (by decide)) (by decide))

/-- Every resolved slot is one of the cache. R172. -/
theorem resolveSlots_lt {hm cm l slots} (h : resolveSlots hm cm l = .ok slots) : ∀ x ∈ slots, x < nslot hm := by
  induction l generalizing slots with
  | nil => simp only [resolveSlots] at h; cases h; simp
  | cons p l ih =>
    unfold resolveSlots at h
    split at h
    · cases h
    · split at h
      · cases h
      · rename_i h1 _ _ h2; cases h
        intro x hx
        rcases List.mem_cons.1 hx with rfl | hx
        · exact mapRegister_lt h1
        · exact ih h2 x hx

/-- The resolved slots are MAP's, one per parameter. R172. -/
theorem resolveSlots_map {hm cm l slots} (h : resolveSlots hm cm l = .ok slots) :
    slots.length = l.length ∧ ∀ x ∈ l.zip slots, mapRegister hm cm x.1.mode x.1.regnum = .ok x.2 := by
  induction l generalizing slots with
  | nil => simp only [resolveSlots] at h; cases h; simp
  | cons p l ih =>
    unfold resolveSlots at h
    split at h
    · cases h
    · split at h
      · cases h
      · rename_i h1 _ _ h2; cases h
        refine ⟨by simp [(ih h2).1], fun x hx => ?_⟩
        rcases List.mem_cons.1 hx with rfl | hx
        · exact h1
        · exact (ih h2).2 x hx

/-- Parameters that MAP resolves are resolved. R172. -/
theorem resolveSlots_ok {hm cm l} (h : ∀ q ∈ l, ∃ n, mapRegister hm cm q.mode q.regnum = .ok n) :
    ∃ slots, resolveSlots hm cm l = .ok slots := by
  induction l with
  | nil => exact ⟨_, rfl⟩
  | cons p l ih =>
    obtain ⟨n, hn⟩ := h p (List.mem_cons_self ..)
    obtain ⟨slots, hs⟩ := ih fun q hq => h q (List.mem_cons_of_mem _ hq)
    exact ⟨n :: slots, by simp [resolveSlots, hn, hs]⟩

/-- The first parameter that MAP refuses decides. R172, R205 (c). -/
theorem resolveSlots_first {hm cm before p after e}
    (hb : ∀ q ∈ before, ∃ n, mapRegister hm cm q.mode q.regnum = .ok n) (hp : mapRegister hm cm p.mode p.regnum = .err e) :
    resolveSlots hm cm (before ++ p :: after) = .err e := by
  induction before with
  | nil => simp [resolveSlots, hp]
  | cons q l ih =>
    obtain ⟨n, hn⟩ := hb q (List.mem_cons_self ..)
    simp [resolveSlots, hn, ih fun q hq => hb q (List.mem_cons_of_mem _ hq)]

/-- The save-list of a successful Prepare: no slot twice, each one of the cache. R172. -/
theorem prepare_saveList {req : RunRequest} {s p : State} (h : prepare req s = (.ok (), p)) :
   (p.saveList.map fun q => q.1).Nodup ∧ ∀ q ∈ p.saveList, q.1 < nslot s.params.hasMon := by
  unfold prepare at h
  simp only at h
  split at h
  · cases h
  · split at h
    · cases h
    · split at h
      · cases h
      · rename_i slots hsl
        split at h
        · rename_i saved u heq
          cases h
          have := snapshot_slots heq
          simp only
          rw [this]
          refine ⟨dedupKeepFirst_nodup _, fun q hq => ?_⟩
          have hm : q.1 ∈ saveSlots slots := by rw [← this]; exact List.mem_map_of_mem hq
          simp only [saveSlots, mem_dedupKeepFirst, List.mem_append, List.mem_cons, List.not_mem_nil, or_false] at hm
          rcases hm with hm | hm | hm
          · exact resolveSlots_lt hsl _ hm
          · rw [hm]; cases s.params.hasMon <;> decide
          · rw [hm]; cases s.params.hasMon <;> decide
        · cases h

end Sys2Proof.Machine
end

