-- ==== Sys2Proof/Laws/Restore.lean ====
section
/-! SUPPORT. The restore loop and Cleanup put the saved values back, and how a run that passed Prepare ends. -/

namespace Sys2Proof.Machine

/-- After `Restore` of a slot its entry holds the saved value. R179. -/
theorem restore_self {n : Nat} {v : Word} {s : State} (h : n < s.cache.length) :
    ((restore n v s).entry n).valid = true ∧ ((restore n v s).entry n).value = v := by
  have he : (s.setEntry n ((s.entry n).pending v)).entry n = (s.entry n).pending v := State.entry_setEntry_self h
  rcases restore_cases n v s with ⟨ha, hr⟩ | ⟨e, ha, hr⟩ <;> rw [hr]
  · rw [State.entry_setEntry_self (by simpa using h), he]; exact ⟨rfl, rfl⟩
  · change (State.entry (s.setEntry n ((s.entry n).pending v)) n).valid = true ∧ _ = v
    rw [he]; exact ⟨rfl, congrArg CacheEntry.value he⟩

/-- `Restore` of one slot leaves the entry of every other alone. R179. -/
theorem restore_other {n k : Nat} {v : Word} {s : State} (h : n ≠ k) : (restore n v s).entry k = s.entry k := by
  have he : (s.setEntry n ((s.entry n).pending v)).entry k = s.entry k := State.entry_setEntry_ne h
  rcases restore_cases n v s with ⟨ha, hr⟩ | ⟨e, ha, hr⟩ <;> rw [hr]
  · rw [State.entry_setEntry_ne h]; exact he
  · exact he

/-- What the one call of `Restore` fixes: nothing of another slot, and, unless the entry stayed dirty, the saved value of its
own. R179, R50 (3). -/
theorem restore_noted (n : Nat) (v : Word) (s : State) :
    ∃ c, (restore n v s).transport.log = s.transport.log ++ [c] ∧ (∀ k, n ≠ k → ∀ known, noteCall k known c = known) ∧
      (n < s.cache.length → ((restore n v s).entry n).dirty = false → ∀ known, noteCall n known c = some v) := by
  rcases restore_cases n v s with ⟨ha, hr⟩ | ⟨e, ha, hr⟩ <;>
    refine ⟨.writeRegister n ((s.setEntry n ((s.entry n).pending v)).entry n).value
      (s.transport.writeRegister n ((s.setEntry n ((s.entry n).pending v)).entry n).value).1, ?_, ?_, ?_⟩
  · rw [hr]; simp
  · intro k hk known; rw [ha]; simp [noteCall, hk]
  · intro hn _ known; rw [ha, State.entry_setEntry_self hn]; simp [noteCall, CacheEntry.pending]
  · rw [hr]; simp [State.withTransport]
  · intro k hk known; rw [ha]; simp [noteCall, hk]
  · intro hn hd
    rw [hr] at hd
    change (State.entry (s.setEntry n ((s.entry n).pending v)) n).dirty = false at hd
    rw [State.entry_setEntry_self hn] at hd
    simp [CacheEntry.pending] at hd

/-- `Restore` keeps the number of entries. -/
theorem restore_cacheLength (n v s) : (restore n v s).cache.length = s.cache.length := (restore_op n v s).2.1.length

/-- A slot outside the save-list is left alone. R179. -/
theorem restoreAll_other {k : Nat} {l : List (Nat × Word)} {s : State} (h : k ∉ l.map fun p => p.1) :
    (restoreAll l s).entry k = s.entry k := by
  induction l generalizing s with
  | nil => rfl
  | cons p l ih =>
    obtain ⟨n, v⟩ := p
    simp only [List.map_cons, List.mem_cons, not_or] at h
    exact (ih (s := restore n v s) h.2).trans (restore_other (Ne.symm h.1))

/-- A slot of the save-list holds its saved value after the restore loop. R179. -/
theorem restoreAll_self {l : List (Nat × Word)} {s : State} (hd : (l.map fun p => p.1).Nodup)
    (hr : ∀ p ∈ l, p.1 < s.cache.length) {n : Nat} {v : Word} (hm : (n, v) ∈ l) :
    ((restoreAll l s).entry n).valid = true ∧ ((restoreAll l s).entry n).value = v := by
  induction l generalizing s with
  | nil => cases hm
  | cons p l ih =>
    obtain ⟨k, w⟩ := p
    simp only [List.map_cons, List.nodup_cons] at hd
    rcases List.mem_cons.1 hm with h | h
    · cases h
      rw [restoreAll, restoreAll_other hd.1]
      exact restore_self (hr _ List.mem_cons_self)
    · exact ih hd.2 (fun p hp => by rw [restore_cacheLength]; exact hr p (List.mem_cons_of_mem _ hp)) h

/-- What the calls of the restore loop fix: nothing of a slot outside the save-list, and the saved value of a slot of it whose
entry is clean afterwards. R179, R50 (3). -/
theorem restoreAll_noted (l : List (Nat × Word)) (s : State) (hd : (l.map fun p => p.1).Nodup)
    (hr : ∀ p ∈ l, p.1 < s.cache.length) :
    ∃ new, (restoreAll l s).transport.log = s.transport.log ++ new ∧
      (∀ k, k ∉ (l.map fun p => p.1) → ∀ known, new.foldl (noteCall k) known = known) ∧
      ∀ n v, (n, v) ∈ l → ((restoreAll l s).entry n).dirty = false → ∀ known, new.foldl (noteCall n) known = some v := by
  induction l generalizing s with
  | nil => exact ⟨[], by simp [restoreAll], by simp, by simp⟩
  | cons p l ih =>
    obtain ⟨k, w⟩ := p
    simp only [List.map_cons, List.nodup_cons] at hd
    obtain ⟨c, h1, h2, h3⟩ := restore_noted k w s
    obtain ⟨new, i1, i2, i3⟩ := ih (restore k w s) hd.2 (fun p hp => by
      rw [restore_cacheLength]; exact hr p (List.mem_cons_of_mem _ hp))
    refine ⟨c :: new, by rw [restoreAll, i1, h1]; simp, ?_, ?_⟩
    · intro j hj known
      simp only [List.map_cons, List.mem_cons, not_or] at hj
      rw [List.foldl_cons, h2 j (Ne.symm hj.1), i2 j hj.2]
    · intro n v hm hdirty known
      rcases List.mem_cons.1 hm with h | h
      · cases h
        rw [restoreAll, restoreAll_other hd.1] at hdirty
        rw [List.foldl_cons, i2 _ hd.1, h3 (hr _ List.mem_cons_self) hdirty]
      · exact i3 n v h hdirty _

/-- Step 1 of Cleanup leaves cache and save-list alone. R178. -/
theorem removeExitBreakpoint_frame (s : State) : (removeExitBreakpoint s).cache = s.cache ∧ (removeExitBreakpoint s).saveList = s.saveList := by
  unfold removeExitBreakpoint
  split
  · exact ⟨rfl, rfl⟩
  · split <;> exact ⟨rfl, rfl⟩

/-- Step 4 of Cleanup changes no entry that is valid and makes no call. R178. -/
theorem resync_entry (s : State) (n : Nat) (hv : (s.entry n).valid = true) : (resync s).entry n = s.entry n ∧ (resync s).transport = s.transport := by
  unfold resync
  rcases setCpsr_cases (s.entry cpsrSlot).value s with ⟨m, _, hm, h⟩ | h <;> rw [h]
  · refine ⟨?_, rfl⟩
    by_cases hn : cpsrSlot = n
    · subst hn
      by_cases hl : cpsrSlot < s.cache.length
      · rw [State.entry_setEntry_self (by simpa using hl)]
        change { (State.entry (s.setEntry cpsrSlot ((s.entry cpsrSlot).agree (s.entry cpsrSlot).value)) cpsrSlot) with dirty := (s.entry cpsrSlot).dirty } = _
        rw [State.entry_setEntry_self hl]
        simp only [CacheEntry.agree]
        rw [← hv]
      · simp [State.entry, List.getD_eq_getElem?_getD, List.getElem?_eq_none (Nat.le_of_not_lt hl), freshEntry] at hv
    · rw [State.entry_setEntry_ne hn]
      change State.entry (s.setEntry cpsrSlot ((s.entry cpsrSlot).agree (s.entry cpsrSlot).value)) n = _
      rw [State.entry_setEntry_ne hn]
  · exact ⟨rfl, rfl⟩

/-- Step 1 of Cleanup adds its one call, if any, to the record. R178. -/
theorem removeExitBreakpoint_log (s : State) :
    ∃ new, (removeExitBreakpoint s).transport.log = s.transport.log ++ new := by
  unfold removeExitBreakpoint
  split
  · exact ⟨[], by simp⟩
  · rename_i h _
    split <;> rename_i t heq <;>
      exact ⟨[.removeBreakpoint h (s.transport.removeBreakpoint h).1], by
        rw [← Transport.removeBreakpoint_log, heq]; rfl⟩

/-- Steps 3 and 4 of Cleanup put the saved values back, if the refresh answers what the record fixes. R178, R182. -/
theorem refresh_restores {b : State} {n : Nat} {v : Word} (hn : n < b.cache.length) (h : (b.entry n).valid = true ∧ (b.entry n).value = v)
    (hv : ∀ vals, (b.transport.refreshHook b.slots).1 = .ok vals → (b.entry n).dirty = false → vals[n]? = some v) :
    ((resync (cleanupRefresh b)).entry n).valid = true ∧ ((resync (cleanupRefresh b)).entry n).value = v := by
  have key : ((cleanupRefresh b).entry n).valid = true ∧ ((cleanupRefresh b).entry n).value = v := by
    unfold cleanupRefresh
    rcases fullContextRefresh_cases b with ⟨vals, ha, hf⟩ | ⟨e, _, hf⟩ <;> rw [hf]
    · have hen : (State.entry ({ b.withTransport (b.transport.refreshHook b.slots).2 with
        cache := b.cache.mapIdx fun i e => e.refreshed (vals.getD i e.value) } : State) n) = (b.entry n).refreshed (vals.getD n (b.entry n).value) := by
        simp [State.entry, hn]
      dsimp only
      rw [hen]
      refine ⟨rfl, ?_⟩
      simp only [CacheEntry.refreshed]
      split
      · exact h.2
      · rename_i hd
        simp [List.getD_eq_getElem?_getD, hv vals ha (by simpa using hd)]
    · exact h
  rw [(resync_entry _ n key.1).1]
  exact key

/-- Cleanup leaves every register of the save-list with its saved value, if its refresh is truthful about a record that ends
with its own calls. R178, R182. -/
theorem cleanup_restores {s : State} (hd : (s.saveList.map fun p => p.1).Nodup) (hr : ∀ p ∈ s.saveList, p.1 < s.cache.length) :
    ∃ new, (cleanup s).transport.log = s.transport.log ++ new ∧ ∀ before, RefreshTruthful (before ++ new) →
      ∀ n v, (n, v) ∈ s.saveList → ((cleanup s).entry n).valid = true ∧ ((cleanup s).entry n).value = v := by
  obtain ⟨hc, hsl⟩ := removeExitBreakpoint_frame s
  obtain ⟨new1, hl1⟩ := removeExitBreakpoint_log s
  set a := removeExitBreakpoint s with ha
  obtain ⟨new2, hl2, _, hn2⟩ := restoreAll_noted a.saveList a (by rw [hsl]; exact hd) (by rw [hsl, hc]; exact hr)
  set b := restoreAll a.saveList a with hb
  have hcl : cleanup s = resync (cleanupRefresh b) := rfl
  have hbl : b.cache.length = s.cache.length := by rw [← hc]; exact (restoreAll_op a.saveList a).2.1.length
  have hlog : (cleanup s).transport.log = s.transport.log ++ (new1 ++ new2 ++ [.refreshHook (b.transport.refreshHook b.slots).1]) := by
    have h1 : (resync (cleanupRefresh b)).transport = (cleanupRefresh b).transport := by
      unfold resync
      rcases setCpsr_cases ((cleanupRefresh b).entry cpsrSlot).value (cleanupRefresh b) with ⟨_, _, _, h⟩ | h
      · rw [h]; rfl
      · rw [h]
    have h2 : (cleanupRefresh b).transport = (b.transport.refreshHook b.slots).2 := by
      have := (fullContextRefresh_op b).2.2
      unfold cleanupRefresh
      split <;> rename_i heq <;> rw [heq] at this <;> exact this
    rw [hcl, h1, h2, Transport.refreshHook_log, hl2, hl1]; simp
  refine ⟨_, hlog, fun before ht n v hm => ?_⟩
  rw [hcl]
  refine refresh_restores (by rw [hbl]; exact hr _ hm) (restoreAll_self (by rw [hsl]; exact hd) (by rw [hsl, hc]; exact hr) (by rw [hsl]; exact hm)) ?_
  intro vals hv hdirty
  refine ht (before ++ (new1 ++ new2)) vals [] (by rw [hv]; simp) n v ?_
  unfold lastWritten
  rw [List.foldl_append, List.foldl_append]
  exact hn2 n v (by rw [hsl]; exact hm) hdirty _

/-- What every phase after Prepare carries along, `p` being the state Prepare left: the save-list, the number of entries, the
record up to there, mode and state; no diagnostic of the resynchronisation
yet; no outcome of Prepare; and outputs only on the way from Harvest, after a
success. -/
structure Carry (p s : State) : Prop where
  saved : s.saveList = p.saveList
  len : s.cache.length = p.cache.length
  log : ∃ new, s.transport.log = p.transport.log ++ new
  mode : s.coreMode = p.coreMode
  state : s.coreState = p.coreState
  params : s.params = p.params
  diag : ∀ d ∈ s.diag, d.what ≠ .resync
  prepared : ∀ c, s.primary ≠ some (.failed (.prepareFailed c))
  outputs : (s.harvest = [] ∧ s.phase ≠ .harvest) ∨ (s.primary = some .success ∧ (s.phase = .harvest ∨ s.phase = .cleanup))

/-- How a run that passed Prepare ends: `Finish` after a rollback with a failure, or after Cleanup. R171. -/
def Ended (p t : State) : Prop :=
  ∃ o x, Carry p x ∧ (o ≠ .success → x.harvest = []) ∧ (∀ c, o ≠ .failed (.prepareFailed c)) ∧
    ((t = finish o (rollback x) ∧ ∃ e, o = .failed e) ∨ t = finish o (cleanup x))

/-- A cache operation carries it along. -/
theorem Carry.regop {p s t} (h : Carry p s) (o : RegisterOp s t) : Carry p t := by
  have hf := o.frame; unfold CacheAndBusOnly at hf
  obtain ⟨n1, h1⟩ := h.log
  obtain ⟨n2, h2, _⟩ := o.log
  have hl := o.cache.length.trans h.len
  have hlog : ∃ new, t.transport.log = p.transport.log ++ new := ⟨n1 ++ n2, by rw [h2, h1, List.append_assoc]⟩
  rw [hf] at hl hlog ⊢
  exact ⟨h.saved, hl, hlog, h.mode, h.state, h.params, h.diag, h.prepared, h.outputs⟩

/-- A change of cache and oracle that adds calls carries it along, whatever phase and outcome follow, while nothing is
harvested. -/
theorem Carry.onward {p s t : State} (h : Carry p s) (hs : t.saveList = s.saveList) (hc : t.cache.length = s.cache.length)
    (hl : ∃ new, t.transport.log = s.transport.log ++ new) (hm : t.coreMode = s.coreMode) (hst : t.coreState = s.coreState)
    (hp : t.params = s.params) (hd : ∀ d ∈ t.diag, d.what ≠ .resync)
    (hpr : ∀ c, t.primary ≠ some (.failed (.prepareFailed c)))
    (ho : (t.harvest = [] ∧ t.phase ≠ .harvest) ∨ (t.primary = some .success ∧ (t.phase = .harvest ∨ t.phase = .cleanup))) : Carry p t := by
  obtain ⟨n1, h1⟩ := h.log
  obtain ⟨n2, h2⟩ := hl
  exact ⟨hs.trans h.saved, hc.trans h.len, ⟨n1 ++ n2, by rw [h2, h1, List.append_assoc]⟩, hm.trans h.mode, hst.trans h.state,
    hp.trans h.params, hd, hpr, ho⟩

/-- Harvest's memory loop adds calls to the record. R177. -/
theorem harvestMemory_log (l : List MemParam) (s : State) : ∃ new, (harvestMemory l s).transport.log = s.transport.log ++ new := by
  induction l generalizing s with
  | nil => exact ⟨[], by simp [harvestMemory]⟩
  | cons p l ih =>
    unfold harvestMemory
    split
    · split
      rename_i a t heq
      obtain ⟨new, h⟩ := ih { s.withTransport t with harvest := s.harvest ++ [.mem p a] }
      have : ∃ c, t.log = s.transport.log ++ c := by
        unfold Transport.memRead at heq
        split at heq
        · cases heq; exact ⟨[], by simp⟩
        · exact ⟨_, by rw [← Transport.readMemory_log, heq]⟩
      obtain ⟨c, hc⟩ := this
      exact ⟨c ++ new, by rw [h]; simp [State.withTransport, hc]⟩
    · exact ih s

/-- Harvest's register loop carries it along, after a success. R177. -/
theorem harvestRegisters_carry {p : State} (l : List (RegParam × Nat)) {s : State} (h : Carry p s) (hp : s.primary = some .success)
    (hph : s.phase = .harvest) : Carry p (harvestRegisters l s) := by
  induction l generalizing s with
  | nil => exact h
  | cons q l ih =>
    obtain ⟨q, n⟩ := q
    unfold harvestRegisters
    split
    · have h' := h.regop (readSlot_op n s)
      have hf := (readSlot_op n s).frame
      unfold CacheAndBusOnly at hf
      split
      rename_i a t heq
      rw [heq] at h' hf
      dsimp only at h' hf
      have hp' : t.primary = some .success := by rw [hf]; exact hp
      have hph' : t.phase = .harvest := by rw [hf]; exact hph
      exact ih (h'.onward rfl rfl ⟨[], by simp⟩ rfl rfl rfl h'.diag (by simp [hp']) (.inr ⟨hp', .inl hph'⟩)) hp' hph'
    · exact ih h hp hph

/-- A phase after Prepare carries it along, or ends the run. R171. -/
theorem phaseStep_carry {p s t : State} (hi : s.phase ≠ .idle) (hp : s.phase ≠ .prepare) (h : Carry p s) (hst : phaseStep s = .next t) :
    (t.phase ≠ .idle ∧ t.phase ≠ .prepare ∧ Carry p t) ∨ Ended p t := by
  have early : s.phase ≠ .harvest → s.phase ≠ .cleanup → s.harvest = [] := fun h1 h2 => by
    rcases h.outputs with ho | ⟨_, ho | ho⟩
    · exact ho.1
    · exact absurd ho h1
    · exact absurd ho h2
  unfold phaseStep at hst
  split at hst
  · exact absurd ‹_› hi
  · cases hst
  · exact absurd ‹_› hp
  · cases hst
    rename_i req hph _
    have hh := early (by simp [hph]) (by simp [hph])
    obtain ⟨h1, new, h2, _⟩ := installMemory_op req.memParams s
    have hc : Carry p (installMemory req.memParams s).2 := by
      refine h.onward ?_ ?_ ⟨new, h2⟩ ?_ ?_ ?_ ?_ ?_ ?_ <;> rw [h1]
      · rfl
      · rfl
      · rfl
      · rfl
      · rfl
      · exact h.diag
      · exact h.prepared
      · exact .inl ⟨hh, by simp [State.withTransport, hph]⟩
    have hh' : (installMemory req.memParams s).2.harvest = [] := by rw [h1]; exact hh
    unfold installPhase
    split <;> rename_i heq <;> rw [heq] at hc hh'
    · exact .inr ⟨_, _, hc, fun _ => hh', by simp, .inl ⟨rfl, _, rfl⟩⟩
    · rename_i u
      refine .inl ⟨by simp, by simp, ?_⟩
      have hr := installRegisters_op (req.regParams.zip u.regSlots) u
      have := hc.regop hr
      have hf := hr.frame; unfold CacheAndBusOnly at hf
      exact this.onward rfl rfl ⟨[], by simp⟩ rfl rfl rfl this.diag this.prepared (.inl ⟨by dsimp only; rw [hf]; exact hh', by simp⟩)
  · cases hst
    rename_i req hph _
    have hh := early (by simp [hph]) (by simp [hph])
    unfold armExitPhase
    split <;> rename_i t heq
    · exact .inl ⟨by simp, by simp, h.onward rfl rfl
        ⟨_, by rw [← Transport.setBreakpoint_log, heq]; rfl⟩ rfl rfl rfl h.diag h.prepared (.inl ⟨hh, by simp⟩)⟩
    · have hc : Carry p (s.withTransport t) := h.onward rfl rfl
        ⟨_, by rw [← Transport.setBreakpoint_log, heq]; rfl⟩ rfl rfl rfl h.diag h.prepared (.inl ⟨hh, by simp [hph]⟩)
      exact .inr ⟨_, _, hc, fun _ => hh, by simp, .inl ⟨rfl, _, rfl⟩⟩
  · cases hst
    rename_i req hph _
    have hh := early (by simp [hph]) (by simp [hph])
    unfold resumePhase
    simp only
    have o1 := writeSlot_op pcSlot (pcEntry s.params.pcEntry s.coreState req.entry) s
    have o2 := flush_op (writeSlot pcSlot (pcEntry s.params.pcEntry s.coreState req.entry) s).2
    have h2 := (h.regop o1).regop o2
    have hf := (o1.trans o2).frame; unfold CacheAndBusOnly at hf
    split <;> rename_i heq <;> rw [heq] at h2 hf <;> dsimp only at h2 hf <;> rename_i u
    · exact .inl ⟨by simp, by simp, h2.onward rfl rfl ⟨[], by simp⟩ rfl rfl rfl h2.diag (by simp) (.inl ⟨by dsimp only; rw [hf]; exact hh, by simp⟩)⟩
    · split <;> rename_i t hres
      · exact .inl ⟨by simp, by simp, h2.onward rfl rfl ⟨_, by rw [← Transport.resume_log, hres]; rfl⟩ rfl rfl rfl h2.diag (by simp)
          (.inl ⟨by dsimp only [State.withTransport]; rw [hf]; exact hh, by simp⟩)⟩
      · exact .inl ⟨by simp, by simp, h2.onward rfl (invalidateAll_cache _).length ⟨_, by rw [← Transport.resume_log, hres]; rfl⟩ rfl rfl rfl
          h2.diag h2.prepared (.inl ⟨by dsimp only [State.withTransport, invalidateAll]; rw [hf]; exact hh, by simp⟩)⟩
  · cases hst
    rename_i req hph _
    have hh := early (by simp [hph]) (by simp [hph])
    unfold awaitPhase
    split <;> rename_i t heq
    · have hl : ∃ new, t.log = s.transport.log ++ new := ⟨_, by rw [← Transport.pollHalted_log, heq]⟩
      split
      · exact .inl ⟨by simp, by simp, h.onward rfl rfl hl rfl rfl rfl h.diag (by simp) (.inr ⟨rfl, .inl rfl⟩)⟩
      · exact .inl ⟨by simp, by simp, h.onward rfl rfl hl rfl rfl rfl h.diag (by simp) (.inl ⟨hh, by simp⟩)⟩
    · have hl : ∀ u, t.halt.2 = u → ∃ new, u.log = s.transport.log ++ new := fun u hu => by
        have h1 : t.log = s.transport.log ++ [.pollHalted req.timeout (s.transport.pollHalted req.timeout).1] := by
          rw [← Transport.pollHalted_log, heq]
        exact ⟨_, by rw [← hu, Transport.halt_log, h1, List.append_assoc]⟩
      split <;> rename_i hu
      · exact .inl ⟨by simp, by simp, h.onward rfl rfl (hl _ (by rw [hu]; rfl)) rfl rfl rfl h.diag (by simp) (.inl ⟨hh, by simp⟩)⟩
      · refine .inl ⟨by simp, by simp, h.onward rfl rfl (hl _ (by rw [hu]; rfl)) rfl rfl rfl ?_ (by simp) (.inl ⟨hh, by simp⟩)⟩
        intro d hd
        rcases List.mem_append.1 hd with hd | hd
        · exact h.diag d hd
        · rw [List.mem_singleton.1 hd]; simp
  · cases hst
    rename_i req hph _
    have hsuc : s.primary = some .success := by
      rcases h.outputs with ho | ho
      · exact absurd hph ho.2
      · exact ho.1
    have h1 : Carry p (harvestMemory req.memParams s) := by
      obtain hlog := harvestMemory_log req.memParams s
      rw [harvestMemory_frame] at hlog ⊢
      exact h.onward rfl rfl hlog rfl rfl rfl h.diag h.prepared (.inr ⟨hsuc, .inl hph⟩)
    have h2 := harvestRegisters_carry (req.regParams.zip s.regSlots) h1 (by rw [harvestMemory_frame]; exact hsuc) (by rw [harvestMemory_frame]; exact hph)
    refine .inl ⟨by simp [harvestPhase], by simp [harvestPhase], ?_⟩
    have hsp : (harvestRegisters (req.regParams.zip s.regSlots) (harvestMemory req.memParams s)).primary = some .success := by
      rw [(harvestRegisters_seq _ _).2, harvestMemory_frame]; exact hsuc
    exact h2.onward rfl rfl ⟨[], by simp [harvestPhase]⟩ rfl rfl rfl h2.diag (fun c h => by rw [harvestPhase] at h; exact absurd (hsp.symm.trans h) (by simp)) (.inr ⟨hsp, .inr rfl⟩)
  · rename_i hph _
    split at hst
    · cases hst
    · rename_i o ho
      cases hst
      refine .inr ⟨o, s, h, fun hn => ?_, fun c hc => h.prepared c (by rw [ho, hc]), .inr rfl⟩
      rcases h.outputs with h' | h'
      · exact h'.1
      · rw [h'.1] at ho; cases ho; exact absurd rfl hn

/-- The walk from a phase after Prepare back to IDLE ends as said. R171. -/
theorem runPhases_ended {p} {n} {s t : State} (hi : s.phase ≠ .idle) (hp : s.phase ≠ .prepare) (h : Carry p s) (ht : t.phase = .idle)
   (hst : runPhases n s = .next t) : Ended p t := by
  induction n generalizing s with
  | zero => cases hst; exact absurd ht hi
  | succ n ih =>
    rw [runPhases, if_neg hi] at hst
    split at hst
    · rename_i u hu
      rcases phaseStep_carry hi hp h hu with ⟨h1, h2, h3⟩ | he
      · exact ih h1 h2 h3 hst
      · have : u.phase = .idle := by obtain ⟨o, x, _, _, _, ⟨rfl, _⟩ | rfl⟩ := he <;> rfl
        cases n <;> simp only [runPhases, this, if_true] at hst <;> cases hst <;> exact he
    · cases hst
    · cases hst

/-- Prepare clears what an earlier run could have left, and writes neither mode, state nor phase. R172. -/
theorem prepare_frame (req : RunRequest) (s : State) :
    (prepare req s).2.diag = [] ∧ (prepare req s).2.harvest = [] ∧ (prepare req s).2.primary = none ∧ (prepare req s).2.phase = s.phase ∧
      (prepare req s).2.coreMode = s.coreMode ∧ (prepare req s).2.coreState = s.coreState := by
  unfold prepare
  simp only
  split
  · exact ⟨rfl, rfl, rfl, rfl, rfl, rfl⟩
  · split
    · exact ⟨rfl, rfl, rfl, rfl, rfl, rfl⟩
    · split
      · exact ⟨rfl, rfl, rfl, rfl, rfl, rfl⟩
      · rename_i slots _
        have h := (snapshot_op (saveSlots slots) { s with diag := [], harvest := [], bp := none, primary := none }).frame
        split <;> rename_i heq <;> rw [heq] at h <;> (unfold CacheAndBusOnly at h; dsimp only at h ⊢; rw [h]; exact ⟨rfl, rfl, rfl, rfl, rfl, rfl⟩)

/-- Everything an accepted run can do: it fails in Prepare, or passes it and ends as said. R171. -/
theorem runAlgorithm_cases {req : RunRequest} {s t : State} (h : runAlgorithm req s = .next t) :
    (∃ c p, prepare req (beginRun req s) = (.error c, p) ∧ t = finish (.failed (.prepareFailed c)) p) ∨
      ∃ p, prepare req (beginRun req s) = (.ok (), p) ∧ Ended p t := by
  unfold runAlgorithm at h
  split at h
  · cases h
  · split at h
    · cases h
    · obtain ⟨t', _, ht', hq, _⟩ := runPhases_ends (n := phaseCount) (s := beginRun req s) (by simp [beginRun])
        ⟨rfl, by simp [beginRun]⟩ (by simp [beginRun, Phase.rank, phaseCount])
      rw [h] at ht'; cases ht'
      have hps : phaseStep (beginRun req s) = .next (preparePhase req (beginRun req s)) := rfl
      have hb : (beginRun req s).phase ≠ .idle := by simp [beginRun]
      rw [phaseCount, runPhases, if_neg hb, hps] at h
      simp only at h
      have hf := prepare_frame req (beginRun req s)
      unfold preparePhase at h
      split at h <;> rename_i heq <;> rw [heq] at hf
      · rename_i p
        refine .inr ⟨p, heq, runPhases_ended (s := { p with phase := .install }) (by simp) (by simp) ?_ hq.1 h⟩
        exact ⟨rfl, rfl, ⟨[], by simp⟩, rfl, rfl, rfl, by dsimp only at hf ⊢; rw [hf.1]; simp, fun c h => absurd (hf.2.2.1.symm.trans h) (by simp), .inl ⟨hf.2.1, by simp⟩⟩
      · rename_i c p
        refine .inl ⟨c, p, heq, ?_⟩
        have : (finish (.failed (.prepareFailed c)) p).phase = .idle := rfl
        simp only [runPhases, this, if_true] at h
        cases h; rfl

end Sys2Proof.Machine
end

