-- ==== Sys2Proof/Tests/Slice0.lean ====
section
/-! SUPPORT. Tests, each a named theorem. Expected words, calls and states are those of spec/95_test_vectors.md (its vector names are
quoted) or written out by hand from the field tables R65 and R66; the theorems named `witness_…` show that the
hypotheses of a statement can be met. -/

namespace Sys2Proof.Tests

open Sys2Proof Sys2Proof.Machine

/-! Helpers. -/

/-- The state a step answers, if it answers one. -/
def nextOf (o : Host.Outcome State Fault Refusal) : Option State :=
  match o with
  | .next s => some s
  | _ => none

/-- What a step returns to the caller. -/
def replyOf (o : Host.Outcome State Fault Refusal) : Option Reply := (nextOf o).bind fun s => s.reply

/-- Why a step refuses. -/
def refusalOf (o : Host.Outcome State Fault Refusal) : Option Refusal :=
  match o with
  | .refused r => some r
  | _ => none

/-- The state after reset with these commands issued. -/
def given (cs : List Command) : State := { State.reset with inbox := cs }

/-- The word a template call emits. -/
def emitted (i : Instr) : Option Reply := replyOf (exec i State.reset)

/-! Operand ranges (R73): each list has, for one template, a term per field, that field just past its range. -/

theorem test_arm_title_ill_formed :
    (([ .armMov 0x10 0, .armMov 0 0x10, .armLdmia 0x10 0 0 0, .armLdmia 0 0x10000 0 0, .armLdmia 0 0 2 0,
      .armLdmia 0 0 0 2, .armStmia 0x10 0 0 0, .armStmia 0 0x10000 0 0, .armStmia 0 0 2 0, .armStmia 0 0 0 2,
      .armLdr 0x10 0, .armLdr 0 0x10, .armStr 0x10 0, .armStr 0 0x10, .armBkpt 0x10000 ] : List Instr).all fun i => !i.inRange) = true := by decide

theorem test_arm_title_largest_operands :
    (([ .armMov 0xf 0xf, .armLdmia 0xf 0xffff 1 1, .armStmia 0xf 0xffff 1 1, .armLdr 0xf 0xf, .armStr 0xf 0xf,
      .armBkpt 0xffff ] : List Instr).all fun i => i.inRange) = true := by decide

theorem test_arm_move_branch_ill_formed :
    (([ .armMovIm 0x10 0 0, .armMovIm 0 0x10 0, .armMovIm 0 0 0x100, .armB 0x1000000 0, .armB 0 2, .armBx 0x10 ] : List Instr).all fun i => !i.inRange) = true := by decide

theorem test_arm_move_branch_largest_operands :
    (([ .armMovIm 0xf 0xf 0xff, .armB 0xffffff 1, .armBx 0xf ] : List Instr).all fun i => i.inRange) = true := by decide

theorem test_arm_system_ill_formed :
    (([ .armMrs 0x10 0, .armMrs 0 2, .armMsrGp 0x10 0 0, .armMsrGp 0 0x10 0, .armMsrGp 0 0 2, .armMsrIm 0x100 0 0 0,
      .armMsrIm 0 0x10 0 0, .armMsrIm 0 0 0x10 0, .armMsrIm 0 0 0 2, .armMrc 0x10 0 0 0 0 0, .armMrc 0 8 0 0 0 0,
      .armMrc 0 0 0x10 0 0 0, .armMrc 0 0 0 0x10 0 0, .armMrc 0 0 0 0 0x10 0, .armMrc 0 0 0 0 0 8,
      .armMcr 0x10 0 0 0 0 0, .armMcr 0 8 0 0 0 0, .armMcr 0 0 0x10 0 0 0, .armMcr 0 0 0 0x10 0 0,
      .armMcr 0 0 0 0 0x10 0, .armMcr 0 0 0 0 0 8 ] : List Instr).all fun i => !i.inRange) = true := by decide

theorem test_arm_system_largest_operands :
    (([ .armMrs 0xf 1, .armMsrGp 0xf 0xf 1, .armMsrIm 0xff 0xf 0xf 1, .armMrc 0xf 7 0xf 0xf 0xf 7,
      .armMcr 0xf 7 0xf 0xf 0xf 7 ] : List Instr).all fun i => i.inRange) = true := by decide

theorem test_arm_post_indexed_ill_formed :
    (([ .armLdrwIp 0x10 0, .armLdrwIp 0 0x10, .armLdrhIp 0x10 0, .armLdrhIp 0 0x10, .armLdrbIp 0x10 0,
      .armLdrbIp 0 0x10, .armStrwIp 0x10 0, .armStrwIp 0 0x10, .armStrhIp 0x10 0, .armStrhIp 0 0x10,
      .armStrbIp 0x10 0, .armStrbIp 0 0x10 ] : List Instr).all fun i => !i.inRange) = true := by decide

theorem test_arm_post_indexed_largest_operands :
    (([ .armLdrwIp 0xf 0xf, .armLdrhIp 0xf 0xf, .armLdrbIp 0xf 0xf, .armStrwIp 0xf 0xf, .armStrhIp 0xf 0xf,
      .armStrbIp 0xf 0xf ] : List Instr).all fun i => i.inRange) = true := by decide

theorem test_thumb_ill_formed :
    (([ .tMov 8 0 0 0, .tMov 0 8 0 0, .tMov 0 0 2 0, .tMov 0 0 0 2, .tMovIm 8 0, .tMovIm 0 0x100, .tLdmia 8 0,
      .tLdmia 0 0x100, .tStmia 8 0, .tStmia 0 0x100, .tLdr 8 0, .tLdr 0 8, .tStr 8 0, .tStr 0 8, .tLdrPcrel 8,
      .tBx 0x10, .tB 0x800, .tBkpt 0x100 ] : List Instr).all fun i => !i.inRange) = true := by decide

theorem test_thumb_largest_operands :
    (([ .tMov 7 7 1 1, .tMovIm 7 0xff, .tLdmia 7 0xff, .tStmia 7 0xff, .tLdr 7 7, .tStr 7 7, .tLdrPcrel 7, .tBx 0xf,
      .tB 0x7ff, .tBkpt 0xff ] : List Instr).all fun i => i.inRange) = true := by decide

/-- R69 (b): combinations a template's own rule calls unpredictable on the target. -/
theorem test_unpredictable_operands :
    ([ Instr.armLdmia 0 0 0 0, .armLdmia 15 1 0 0, .armLdmia 1 2 0 1, .armLdmia 0 1 1 1, .armStmia 0 0 0 0, .armStmia 0 1 1 1,
        .armBx 15, .armMrs 15 0, .armMsrGp 15 1 0, .armMcr 15 0 15 1 0 0, .armLdrwIp 0 15, .armLdrwIp 3 3, .armLdrhIp 15 1,
        .armLdrbIp 3 3, .armLdrbIp 15 1, .armStrwIp 3 3, .armStrhIp 15 1, .armStrbIp 15 1, .tMov 1 2 0 0, .tLdmia 0 0,
        .tStmia 0 0 ].map Instr.operandClass).all (fun c => decide (c = .unpredictableOrSpecial)) = true := by decide

/-- R69 (b): combinations that behave specially, the base register in the list with write-back among them; R69 (a) and (c). -/
theorem test_special_operands :
    ([ Instr.armStmia 1 2 0 1, .tLdmia 1 2, .tStmia 1 2, .armStmia 0 0x8000 0 0, .armLdmia 0 0x7F00 1 0, .armMov 15 0, .armLdr 15 14,
        .armStr 15 15, .armMovIm 15 0 1, .armMrc 15 0 15 1 0 0, .armMsrGp 0 0 0, .armMsrIm 1 0 0 0, .tMov 7 0 1 0,
        .tBx 15 ].map Instr.operandClass).all (fun c => decide (c = .unpredictableOrSpecial)) = true ∧
      (Instr.armStmia 1 2 0 0).operandClass = .legal ∧ (Instr.tStmia 1 4).operandClass = .legal ∧
      (Instr.armLdrwIp 15 0).operandClass = .legal ∧ (Instr.armMov 16 0).operandClass = .malformed := by decide

/-! Decoding (R65, R66, R71): one word per template, written out field by field from bit 31 (15) down. -/

theorem test_decode_arm_nop : decodeA32 0b11100001101000001000000000001000#32 = .ok (.armNop) := by rfl

theorem test_decode_arm_mov : decodeA32 0b11100001101000000001000000001110#32 = .ok (.armMov 1 14) := by rfl

theorem test_decode_arm_ldmia : decodeA32 0b11101000101111011000000000000001#32 = .ok (.armLdmia 13 0x8001 0 1) := by rfl

theorem test_decode_arm_stmia : decodeA32 0b11101000110000100110000000000000#32 = .ok (.armStmia 2 0x6000 1 0) := by rfl

theorem test_decode_arm_ldr : decodeA32 0b11100101100100100001000000000000#32 = .ok (.armLdr 1 2) := by rfl

theorem test_decode_arm_str : decodeA32 0b11100101100000100011000000000000#32 = .ok (.armStr 3 2) := by rfl

theorem test_decode_arm_bkpt : decodeA32 0b11100001001000010010001101110100#32 = .ok (.armBkpt 0x1234) := by rfl

theorem test_decode_arm_mov_im : decodeA32 0b11100011101000000001010011111111#32 = .ok (.armMovIm 1 4 0xFF) := by rfl

theorem test_decode_arm_b : decodeA32 0b11101011111111111111111111111110#32 = .ok (.armB 0xFFFFFE 1) := by rfl

theorem test_decode_arm_bx : decodeA32 0b11100001001011111111111100010011#32 = .ok (.armBx 3) := by rfl

theorem test_decode_arm_mrs : decodeA32 0b11100001010011110001000000000000#32 = .ok (.armMrs 1 1) := by rfl

theorem test_decode_arm_msr_gp : decodeA32 0b11100001011010011111000000000010#32 = .ok (.armMsrGp 2 9 1) := by rfl

theorem test_decode_arm_msr_im : decodeA32 0b11100011001000011111001011010011#32 = .ok (.armMsrIm 0xD3 2 1 0) := by rfl

theorem test_decode_arm_mrc : decodeA32 0b11101110001100110010111110110100#32 = .ok (.armMrc 15 1 2 3 4 5) := by rfl

theorem test_decode_arm_mcr : decodeA32 0b11101110000001110000111110011010#32 = .ok (.armMcr 15 0 0 7 10 4) := by rfl

theorem test_decode_arm_ldrw_ip : decodeA32 0b11100100100100100001000000000100#32 = .ok (.armLdrwIp 1 2) := by rfl

theorem test_decode_arm_ldrh_ip : decodeA32 0b11100000110100100001000010110010#32 = .ok (.armLdrhIp 1 2) := by rfl

theorem test_decode_arm_ldrb_ip : decodeA32 0b11100100110100100001000000000001#32 = .ok (.armLdrbIp 1 2) := by rfl

theorem test_decode_arm_strw_ip : decodeA32 0b11100100100000100001000000000100#32 = .ok (.armStrwIp 1 2) := by rfl

theorem test_decode_arm_strh_ip : decodeA32 0b11100000110000100001000010110010#32 = .ok (.armStrhIp 1 2) := by rfl

theorem test_decode_arm_strb_ip : decodeA32 0b11100100110000100001000000000001#32 = .ok (.armStrbIp 1 2) := by rfl

theorem test_decode_t_nop : decodeT16x2 (0b0100011011000000#16 ++ 0b0100011011000000#16) = .ok (.tNop) := by rfl

theorem test_decode_t_mov : decodeT16x2 (0b0100011010010001#16 ++ 0b0100011010010001#16) = .ok (.tMov 1 2 1 0) := by rfl

theorem test_decode_t_mov_im : decodeT16x2 (0b0010001110100101#16 ++ 0b0010001110100101#16) = .ok (.tMovIm 3 0xA5) := by rfl

theorem test_decode_t_ldmia : decodeT16x2 (0b1100100100000110#16 ++ 0b1100100100000110#16) = .ok (.tLdmia 1 6) := by rfl

theorem test_decode_t_stmia : decodeT16x2 (0b1100000011111110#16 ++ 0b1100000011111110#16) = .ok (.tStmia 0 0xFE) := by rfl

theorem test_decode_t_ldr : decodeT16x2 (0b0110100000010001#16 ++ 0b0110100000010001#16) = .ok (.tLdr 1 2) := by rfl

theorem test_decode_t_str : decodeT16x2 (0b0110000000010001#16 ++ 0b0110000000010001#16) = .ok (.tStr 1 2) := by rfl

theorem test_decode_t_ldr_pcrel : decodeT16x2 (0b0100110100000000#16 ++ 0b0100110100000000#16) = .ok (.tLdrPcrel 5) := by rfl

theorem test_decode_t_bx : decodeT16x2 (0b0100011101011000#16 ++ 0b0100011101011000#16) = .ok (.tBx 11) := by rfl

theorem test_decode_t_b : decodeT16x2 (0b1110011111111110#16 ++ 0b1110011111111110#16) = .ok (.tB 0x7FE) := by rfl

theorem test_decode_t_bkpt : decodeT16x2 (0b1011111010101011#16 ++ 0b1011111010101011#16) = .ok (.tBkpt 0xAB) := by rfl

/-- Words that are no template's: another condition than "always", an unequal pair of halves, a reserved halfword. R63, R64. -/
theorem test_decode_refuses :
    decodeA32 0x01A01002 = .error .noA32Template ∧ decodeA32 0xE1A01012 = .error .noA32Template ∧
      decodeT16x2 0x47184710 = .error .halvesDiffer ∧ decodeT16x2 0xBF00BF00 = .error .noT16x2Template ∧
      decodeBytes .little .a32 [1, 2, 3] = .error .truncated := ⟨rfl, rfl, rfl, rfl, rfl⟩

/-- The table's numbering: a T16x2 row names its operands in the low halfword (log 11); bits above `nbits` are zero. -/
theorem test_table_words :
    decodeTableWord 32 0xE1A01002 = some (.armMov 1 2) ∧ decodeTableWord 32 0x46004651 = some (.tMov 1 2 0 1) ∧
      decodeTableWord 32 0x46C046C0 = some .tNop ∧ decodeTableWord 32 0 = none := ⟨rfl, rfl, rfl, rfl⟩

/-- What withFetchWord places is what the next step runs, in either byte order. -/
theorem test_fetch_runs :
    replyOf (step (State.reset.withFetchWord 32 0xE12FFF13)) = some (.word 0xE12FFF13) ∧
      replyOf (step ({ State.reset with params := { Params.defaults with endian := .big } }.withFetchWord 32 0x47004718)) =
        some (.word 0x47184718) := by decide

/-! Emission (R61): vectors of 2.1 to 2.3, at most two per template, operands past their range among them. -/

/-- A4, A9, A13, A18, A21, A24, A27, A30, A32, A35, A39, A43. -/
theorem test_emit_arm_title :
    emitted (.armMov 8 8) = some (.word 0xE1A08008) ∧
    emitted (.armMov 0x100000 0) = some (.word 0xE1A00000) ∧
    emitted (.armLdmia 0 0 0 0) = some (.word 0xE8900000) ∧
    emitted (.armLdmia 0 1 2 0) = some (.word 0xE8900001) ∧
    emitted (.armStmia 0 0x6000 1 0) = some (.word 0xE8C06000) ∧
    emitted (.armStmia 16 0 0 0) = some (.word 0xE8900000) ∧
    emitted (.armLdr 15 14) = some (.word 0xE59EF000) ∧
    emitted (.armLdr 0 16) = some (.word 0xE5900000) ∧
    emitted (.armStr 3 2) = some (.word 0xE5823000) ∧
    emitted (.armStr 16 0) = some (.word 0xE5810000) ∧
    emitted (.armBkpt 0xAB) = some (.word 0xE1200A7B) ∧
    emitted (.armBkpt 0x1FFFF) = some (.word 0xE12FFF7F) := by decide

/-- O3, O6, O9, O12, O14, O17. -/
theorem test_emit_arm_move_branch :
    emitted (.armMovIm 0 0 0xFF) = some (.word 0xE3A000FF) ∧
    emitted (.armMovIm 0 0 0x100) = some (.word 0xE3A00100) ∧
    emitted (.armB 0xFFFFFE 0) = some (.word 0xEAFFFFFE) ∧
    emitted (.armB 0x1000000 0) = some (.word 0xEB000000) ∧
    emitted (.armBx 3) = some (.word 0xE12FFF13) ∧
    emitted (.armBx 16) = some (.word 0xE12FFF10) := by decide

/-- O19, O21, O23, O26, O28, O30, O32, O34, O36, O38. -/
theorem test_emit_arm_system :
    emitted (.armMrs 0 1) = some (.word 0xE14F0000) ∧
    emitted (.armMrs 0 2) = some (.word 0xE18F0000) ∧
    emitted (.armMsrGp 0 15 1) = some (.word 0xE16FF000) ∧
    emitted (.armMsrGp 0 16 0) = some (.word 0xE130F000) ∧
    emitted (.armMsrIm 0xF0 4 8 0) = some (.word 0xE328F4F0) ∧
    emitted (.armMsrIm 0x100 0 0 0) = some (.word 0xE320F100) ∧
    emitted (.armMrc 15 0 0 0 0 0) = some (.word 0xEE100F10) ∧
    emitted (.armMrc 15 7 15 15 15 7) = some (.word 0xEEFFFFFF) ∧
    emitted (.armMcr 15 0 1 7 5 0) = some (.word 0xEE071F15) ∧
    emitted (.armMcr 15 7 15 15 15 7) = some (.word 0xEEEFFFFF) := by decide

/-- O39, O40, O41, O42, O43, O44, O45, O46, O47, O48, O49, O50. -/
theorem test_emit_arm_post_indexed :
    emitted (.armLdrwIp 1 0) = some (.word 0xE4901004) ∧
    emitted (.armLdrwIp 14 13) = some (.word 0xE49DE004) ∧
    emitted (.armLdrhIp 1 0) = some (.word 0xE0D010B2) ∧
    emitted (.armLdrhIp 3 4) = some (.word 0xE0D430B2) ∧
    emitted (.armLdrbIp 1 0) = some (.word 0xE4D01001) ∧
    emitted (.armLdrbIp 2 1) = some (.word 0xE4D12001) ∧
    emitted (.armStrwIp 1 0) = some (.word 0xE4801004) ∧
    emitted (.armStrwIp 0 16) = some (.word 0xE4900004) ∧
    emitted (.armStrhIp 1 0) = some (.word 0xE0C010B2) ∧
    emitted (.armStrhIp 3 4) = some (.word 0xE0C430B2) ∧
    emitted (.armStrbIp 1 0) = some (.word 0xE4C01001) ∧
    emitted (.armStrbIp 2 0) = some (.word 0xE4C02001) := by decide

/-- T4, T8, T10, T13, T15, T18, T20, T22, T24, T27, T29, T31, T33, T35, T38, T41, T43, T45, T47, T49. -/
theorem test_emit_thumb :
    emitted (.tMov 7 7 1 1) = some (.word 0x46FF46FF) ∧
    emitted (.tMov 0 0x2000 0 0) = some (.word 0x46014600) ∧
    emitted (.tMovIm 7 0x80) = some (.word 0x27802780) ∧
    emitted (.tMovIm 8 0) = some (.word 0x28002800) ∧
    emitted (.tLdmia 7 1) = some (.word 0xCF01CF01) ∧
    emitted (.tLdmia 0 0x100) = some (.word 0xC900C900) ∧
    emitted (.tStmia 0 0xFE) = some (.word 0xC0FEC0FE) ∧
    emitted (.tStmia 8 0x55) = some (.word 0xC855C855) ∧
    emitted (.tLdr 1 0) = some (.word 0x68016801) ∧
    emitted (.tLdr 0 8) = some (.word 0x68406840) ∧
    emitted (.tStr 1 0) = some (.word 0x60016001) ∧
    emitted (.tStr 0 32) = some (.word 0x61006100) ∧
    emitted (.tLdrPcrel 7) = some (.word 0x4F004F00) ∧
    emitted (.tLdrPcrel 16) = some (.word 0x58005800) ∧
    emitted (.tBx 3) = some (.word 0x47184718) ∧
    emitted (.tBx 16) = some (.word 0x47804780) ∧
    emitted (.tB 0x7FE) = some (.word 0xE7FEE7FE) ∧
    emitted (.tB 0x800) = some (.word 0xE800E800) ∧
    emitted (.tBkpt 0xAB) = some (.word 0xBEABBEAB) ∧
    emitted (.tBkpt 0x100) = some (.word 0xBF00BF00) := by decide

/-- O1, T36. -/
theorem test_emit_nops :
    emitted (.armNop) = some (.word 0xE1A08008) ∧
    emitted (.tNop) = some (.word 0x46C046C0) := by decide

/-! Unit U2: vectors of 2.4 and 2.5. -/

/-- M9, M10, M11, M13, M14 as commands. -/
theorem test_mode_model :
    replyOf (step (given [.modeToIndex (.known .any)])) = some (.error .invalidMode) ∧
    replyOf (step (given [.modeToIndex (.raw 0x14)])) = some (.error .invalidMode) ∧
    replyOf (step (given [.indexToMode 0xFFFFFFFF])) = some (.error .invalidIndex) ∧
    replyOf (step (given [.isValidMode 0xD3])) = some (.bool false) ∧
    replyOf (step (given [.modeName (.known .mon)])) = some (.name "Secure Monitor") := by decide

/-- B4, B5, B9, B10, B11, B12: the ends of the banked ranges, and the order of the two tests. -/
theorem test_map :
    mapRegister false .usr .und 16 = .ok 36 ∧ mapRegister true .usr .mon 16 = .ok 39 ∧
    mapRegister false .usr .fiq 8 = .ok 16 ∧ mapRegister false .usr .fiq 14 = .ok 22 ∧
    mapRegister true .usr .mon 8 = .ok 8 ∧ mapRegister true .usr .mon 13 = .ok 37 ∧
    mapRegister false .usr .mon 0 = .err .invalidMode ∧ mapRegister false .usr .mon 17 = .err .invalidMode ∧
    mapRegister false .usr .usr 17 = .err .invalidIndex := by decide

/-- B13, B14: `ANY` and current_register follow the current mode. -/
theorem test_current_register :
    replyOf (step { given [.currentRegister 13] with coreMode := .svc }) = some (.view ⟨25, 13, .svc⟩) ∧
    replyOf (step { given [.map (.known .any) 13] with coreMode := .fiq }) = some (.slot 21) := by decide

/-! Unit U3: vectors of 2.6 to 2.8. -/

/-- V2, V8: mode, state and entry 31 after set_cpsr; V10: nothing written. -/
theorem test_set_cpsr :
    ((nextOf (step (given [.setCpsr 0x60000031]))).map fun t => (t.coreMode, t.coreState, (t.entry 31).value)) =
      some (.fiq, .thumb, 0x60000031) ∧
    ((nextOf (step (given [.setCpsr 0xFFFFFFFF]))).map fun t => (t.coreMode, t.coreState, (t.entry 31).value)) =
      some (.sys, .thumbEE, 0xFFFFFFFF) ∧
    ((nextOf (step (given [.setCpsr 0xDA]))).map fun t => (t.coreMode, (t.entry 31).valid, t.reply)) =
      some (.usr, false, some (.error .invalidMode)) := by decide

/-- K7: a write to an invalid entry goes through the hook and still leaves the entry dirty. -/
theorem test_write_register :
    ((nextOf (step { given [.writeRegister ⟨5, 5, .usr⟩ 7] with
      transport := { Transport.initial with registerWrites := [.ok ()] } })).map fun t =>
        (t.entry 5, t.transport.log)) =
      some (⟨"r5", 32, 7, true, true⟩, [.writeRegister 5 7 (.ok ())]) := by decide

/-- W1 to W5, and the byte images W7, W8 of ARM_MOV(1, 2) and T_NOP. -/
theorem test_memory_parameters :
    accessWidth 0x20000000 20 = 4 ∧ accessWidth 0x20000002 6 = 2 ∧ accessWidth 0x20000001 4 = 1 ∧
    accessWidth 0x20000000 3 = 1 ∧ accessWidth 0x20000004 2 = 2 ∧
    wordsToBytes .little [0xE1A01002, 0x46C046C0] = [0x02, 0x10, 0xA0, 0xE1, 0xC0, 0x46, 0xC0, 0x46] ∧
    wordsToBytes .big [0xE1A01002, 0x46C046C0] = [0xE1, 0xA0, 0x10, 0x02, 0x46, 0xC0, 0x46, 0xC0] := by decide

/-! The sequencer: program P3 as one step. -/

/-- An answer `ok` for every call that writes. -/
def willing : Transport :=
  { Transport.initial with
    registerWrites := List.replicate 12 (.ok ()), memoryWrites := [.ok ()], breakpointSets := [.ok 9],
    breakpointRemovals := [.ok ()], resumes := [.ok ()] }

/-- The code bytes of P3. -/
def codeP3 : List Byte :=
  wordsToBytes .little [0xE5902000, 0xE1A03002, 0xE1A08008, 0xE1A08008, 0xE1200070]

/-- The request of P3. -/
def requestP3 : RunRequest :=
  { entry := 0x20000000, exit := 0x20000010, memParams := [⟨0x20000000, 20, .input, codeP3⟩],
    regParams := [⟨.any, 0, .input, 0x08000000⟩, ⟨.any, 1, .input, 0x100⟩, ⟨.any, 2, .output, 0⟩], timeout := 50 }

/-- The pre-run values of P3 by slot. -/
def preRun (slot : Nat) : Word :=
  match slot with
  | 0 => 0x11111111
  | 1 => 0x22222222
  | 2 => 0x33333333
  | 15 => 0x8000
  | 31 => 0xD3
  | _ => 0

/-- The start of P3, with the oracle it describes. -/
def startP3 : State :=
  { given [.runAlgorithm requestP3] with
    coreMode := .svc
    cache := (freshCache false).set 31 ⟨"cpsr", 32, 0xD3, true, false⟩
    transport := { willing with
      registerReads := [.ok 0x11111111, .ok 0x22222222, .ok 0x33333333, .ok 0x8000, .ok 1]
      polls := [.halted (.breakpoint 9)]
      refreshes := [.ok ((List.range 37).map preRun)] } }

/-- The state that the step from `startP3` answers. -/
def endP3 : State := (nextOf (step startP3)).getD State.reset

theorem test_p3_step : step startP3 = .next endP3 := rfl

theorem test_p3_result :
    endP3.reply = some (.run {
      outcome := .success, outputs := [.reg ⟨.any, 2, .output, 0⟩ (.ok 1)], diagnostics := [], fatal := false }) := by decide

/-- The calls of Install, Arm exit, Resume, Await and Harvest, after the four of Prepare; 19 in all. -/
theorem test_p3_calls :
    (endP3.transport.log.take 12).drop 4 =
      [.writeMemory 0x20000000 4 5 codeP3 (.ok ()), .setBreakpoint 0x20000010 (.ok 9),
        .writeRegister 0 0x08000000 (.ok ()), .writeRegister 1 0x100 (.ok ()), .writeRegister 15 0x20000000 (.ok ()),
        .resume (.ok ()), .pollHalted 50 (.halted (.breakpoint 9)), .readRegister 2 (.ok 1)] ∧
      endP3.transport.log.length = 19 := by decide

/-! ## Witnesses: the hypotheses of the statements can be met, clause by clause -/

/-- EmittedWordFollowsFieldTable, DecodeEncodeAgree, ArmWordsAreUnconditional, ThumbHalvesEqual, ThumbByteImagesRepeat: largest
operands, in range, of either format. -/
theorem witness_operands_in_range :
    (Instr.armMcr 15 7 15 15 15 7).format = .a32 ∧ (Instr.armMcr 15 7 15 15 15 7).inRange = true ∧
      (Instr.tBkpt 0xFF).format = .t16x2 ∧ (Instr.tBkpt 0xFF).inRange = true := by decide

/-- EncodeDecodeAgree. -/
theorem witness_EncodeDecodeAgree :
    decodeWord .a32 0xEFFFFFFF = .error .noA32Template ∧ decodeWord .a32 0xEBFFFFFF = .ok (.armB 0xFFFFFF 1) ∧
      decodeWord .t16x2 0xBEFFBEFF = .ok (.tBkpt 0xFF) := ⟨rfl, rfl, rfl⟩

/-- A state whose next command is the byte image of two words. -/
def twoWords : State := given [.image .a32 (wordsToBytes .little [0xE12FFF13, 0xE1A08008])]

theorem witness_StepRunsDecodedInstruction :
    twoWords.phase = .idle ∧ twoWords.inbox = .image .a32 (wordsToBytes .little [0xE12FFF13, 0xE1A08008]) :: [] ∧
      decodeBytes twoWords.params.endian .a32 (wordsToBytes .little [0xE12FFF13, 0xE1A08008]) =
        .ok (.armBx 3, wordsToBytes .little [0xE1A08008]) := ⟨rfl, rfl, rfl⟩

theorem witness_StepRunsTemplateCall :
    (given [.template (.armMov 16 0)]).phase = .idle ∧
      (given [.template (.armMov 16 0)]).inbox = .template (.armMov 16 0) :: [] := ⟨rfl, rfl⟩

/-- A request with one memory parameter of four bytes at the very top of the address space, or past it, or with a byte too
few. -/
def requestAt (addr : Word) (bytes : List Byte) : RunRequest := ⟨0, 0, [⟨addr, 4, .input, bytes⟩], [], 0⟩

/-- A state without an instance. -/
def unbuilt : State := { State.reset with built := false, cache := [] }

/-- Each way of RefusedByName: bytes that are no word, no instance (MAP for ANY by its raw code), the first slot past the cache,
a range one byte past the top, and one that ends at the top with a byte too few. -/
theorem witness_RefusedByName :
    (given [.image .a32 [0, 0, 0, 0]]).phase = .idle ∧ (given [.image .a32 [0, 0, 0, 0]]).inbox = .image .a32 [0, 0, 0, 0] :: [] ∧
      decodeBytes State.reset.params.endian .a32 [0, 0, 0, 0] = .error .noA32Template ∧
      unbuilt.built = false ∧ (Command.map (.raw 0xFFFFFFFF) 0).needsInstance = true ∧
      State.reset.built = true ∧ (Command.readRegister ⟨37, 0, .usr⟩).viewSlot? = some 37 ∧ State.reset.slots ≤ 37 ∧
      memParamsInSpace (requestAt 0xFFFFFFFD [1, 2, 3, 4]) = false ∧
      memParamsInSpace (requestAt 0xFFFFFFFC [1, 2, 3]) = true ∧
      memParamsSized (requestAt 0xFFFFFFFC [1, 2, 3]) = false := by decide

/-- The neighbours of those commands are not refused: MAP for a named mode without an instance, the last slot, the top. -/
theorem test_not_refused :
    refusalOf (step { unbuilt with inbox := [.map (.known .fiq) 13] }) = none ∧
      refusalOf (step { unbuilt with inbox := [.map (.raw 0xFFFFFFFF) 13] }) = some .noInstance ∧
      refusalOf (serve (.writeRegister ⟨36, 0, .usr⟩ 7) { State.reset with transport :=
        { Transport.initial with registerWrites := [.ok ()] } }) = none ∧
      memParamsInSpace (requestAt 0xFFFFFFFC [1, 2, 3, 4]) = true := by decide

theorem witness_ModeIndexInverse : ProcessorMode.mon ≠ .any ∧ 7 ≤ 7 ∧ 7 < 8 ∧ isValidMode 0x14 = false := by decide

theorem witness_ValidModesAndNames : modeOfCode 0x16 = some .mon ∧ modeOfCode 0x14 = none ∧ modeCode .mon = 0x16 := by decide

/-- Every command of ModeCommandsAnswer at the head of an inbox in phase IDLE; a raw value that is no mode's code. -/
theorem witness_ModeCommandsAnswer :
    (given [.modeToIndex (.raw 0)]).phase = .idle ∧ (given [.modeToIndex (.raw 0)]).inbox = .modeToIndex (.raw 0) :: [] ∧
      (given [.indexToMode 8]).inbox = .indexToMode 8 :: [] ∧
      (given [.modeName (.known .any)]).inbox = .modeName (.known .any) :: [] ∧
      (given [.isValidMode 0]).inbox = .isValidMode 0 :: [] ∧ ∀ m, modeCode m ≠ 0x14 := by
  refine ⟨rfl, rfl, rfl, rfl, rfl, ?_⟩
  intro m; cases m <;> decide

theorem witness_BankTableIsFunction :
    (7 : Nat) < 8 ∧ (16 : Nat) ≤ 16 ∧ ProcessorMode.mon ≠ .any ∧ hasSpsr .mon = true ∧ modeSupported true .mon = true ∧
      hasSpsr .sys = false := by decide

/-- Each clause of MapResolvesInBounds: a mode the target lacks, register 17, register 16. -/
theorem witness_MapResolvesInBounds :
    modeSupported false (effectiveMode .usr .mon) = false ∧ modeSupported false (effectiveMode .und .any) = true ∧
      16 < 17 ∧ (16 : Nat) ≤ 16 := by decide

/-- Each clause of BankingFollowsHardware. -/
theorem witness_BankingFollowsHardware :
    ProcessorMode.fiq ≠ .any ∧ modeSupported false .fiq = true ∧ ((7 : Nat) ≤ 7 ∨ 7 = 15) ∧ ProcessorMode.svc ≠ .fiq ∧
      modeSupported false .svc = true ∧ hasSpsr .svc = true ∧ mapRegister false .usr .svc 16 = .ok 34 ∧
      mapRegister false .usr .fiq 8 = .ok 16 ∧ mapRegister false .usr .fiq 14 = .ok 22 := by decide

theorem witness_BankingReachesEverySlotOnce :
    36 < nslot false ∧ 39 < nslot true ∧ mapRegister false .und .any 16 = .ok 36 := by decide

/-- With an instance, and MAP for a named mode without one. -/
theorem witness_BankingCommandsAnswer :
    (given [.map (.known .any) 16]).phase = .idle ∧ (given [.map (.known .any) 16]).built = true ∧
      (given [.map (.known .any) 16]).inbox = .map (.known .any) 16 :: [] ∧ (given [.currentRegister 16]).modeOk ∧
      (given [.currentRegister 16]).inbox = .currentRegister 16 :: [] ∧
      (given [.currentRegister 17]).inbox = .currentRegister 17 :: [] ∧
      unbuilt.phase = .idle ∧ ModeOperand.known .fiq ≠ .known .any ∧ ModeOperand.known .fiq ≠ .raw (modeCode .any) := by decide

/-- Construction with and without memory. -/
theorem witness_ConstructionAllOrNothing :
    (given [.buildRegisterCache true]).inbox = .buildRegisterCache true :: [] ∧
      (given [.buildRegisterCache true]).params.allocOk = true ∧
      ({ given [.buildRegisterCache true] with params := { Params.defaults with allocOk := false } } : State).params.allocOk =
        false := by decide

/-- A mode the target has, and operands that name none it has. -/
theorem witness_ModeAndStateAreBookkeeping :
    (given [.setMode (.raw 0x1F)]).inbox = .setMode (.raw 0x1F) :: [] ∧ (ModeOperand.raw 0x1F).mode? = some .sys ∧
      modeSupported State.reset.params.hasMon .sys = true ∧ (ModeOperand.raw 0x14).mode? = none ∧
      (ModeOperand.known .mon).mode? = some .mon ∧ modeSupported State.reset.params.hasMon .mon = false ∧
      (given [.setState .thumb]).inbox = .setState .thumb :: [] := by decide

/-- A legal mode field, one that is no mode's, and MON on a target without it. -/
theorem witness_SetCpsrAllOrNothing :
    (given [.setCpsr 0x60000031]).inbox = .setCpsr 0x60000031 :: [] ∧ modeCode .fiq = 0x60000031 &&& 0x1F#32 ∧
      modeSupported State.reset.params.hasMon .fiq = true ∧
      (∀ m, m ≠ .any → modeCode m = 0xDA &&& 0x1F#32 → modeSupported State.reset.params.hasMon m = false) ∧
      ∀ m, m ≠ .any → modeCode m = 0x16 &&& 0x1F#32 → modeSupported State.reset.params.hasMon m = false := by
  refine ⟨by decide, by decide, by decide, ?_, ?_⟩ <;> intro m <;> cases m <;> decide

/-- A state for reads and writes of slots 0 (valid, dirty) and 36 (invalid), with scripted answers. -/
def halfCached (reads : List (Answer Word)) (writes : List (Answer Unit)) (cs : List Command) : State :=
  { given cs with
    cache := (freshCache false).set 0 ⟨"r0", 32, 5, true, true⟩
    transport := { Transport.initial with registerReads := reads, registerWrites := writes } }

/-- Each clause of ReadRegisterIsLazy. -/
theorem witness_ReadRegisterIsLazy :
    let s := halfCached [.ok 7] [] [.readRegister ⟨36, 16, .und⟩]
    let u := halfCached [.err ⟨1⟩] [] [.readRegister ⟨0, 0, .usr⟩]
    s.phase = .idle ∧ s.built = true ∧ 36 < s.slots ∧ s.inbox = .readRegister ⟨36, 16, .und⟩ :: [] ∧
      (s.entry 36).valid = false ∧ (s.transport.readRegister 36).1 = .ok 7 ∧ (u.transport.readRegister 36).1 = .err ⟨1⟩ ∧
      u.inbox = .readRegister ⟨0, 0, .usr⟩ :: [] ∧ (u.entry 0).valid = true := by decide

/-- Each clause of WriteRegisterMarksDirty. -/
theorem witness_WriteRegisterMarksDirty :
    let s := halfCached [] [.ok ()] [.writeRegister ⟨36, 16, .und⟩ 7]
    let u := halfCached [] [.err ⟨1⟩] [.writeRegister ⟨0, 0, .usr⟩ 7]
    s.phase = .idle ∧ s.built = true ∧ 36 < s.slots ∧ s.inbox = .writeRegister ⟨36, 16, .und⟩ 7 :: [] ∧
      (s.entry 36).valid = false ∧ (s.transport.writeRegister 36 7).1 = .ok () ∧
      (u.transport.writeRegister 36 7).1 = .err ⟨1⟩ ∧ u.inbox = .writeRegister ⟨0, 0, .usr⟩ 7 :: [] ∧
      (u.entry 0).valid = true := by decide

/-- A banked write that succeeds, and a register that resolves elsewhere. -/
theorem witness_BankedWriteReadsBack :
    let s := halfCached [] [.ok ()] []
    s.built = true ∧ s.cacheOk ∧ writeBanked .fiq 13 7 s = (.ok (), (writeBanked .fiq 13 7 s).2) ∧
      mapRegister s.params.hasMon s.coreMode .usr 13 ≠ mapRegister s.params.hasMon s.coreMode .fiq 13 ∧
      mapRegister s.params.hasMon s.coreMode .usr 13 = .ok 13 := by decide

/-- A flush of the one dirty entry that succeeds. -/
theorem witness_FlushWritesDirtyInOrder :
    let s := halfCached [] [.ok ()] []
    s.built = true ∧ s.cacheOk ∧ flush s = (.ok (), (flush s).2) := by decide

/-- A flush whose first call fails. -/
theorem witness_FlushStopsAtFirstFailure :
    let s := halfCached [] [.err ⟨1⟩] []
    s.built = true ∧ s.cacheOk ∧ flush s = (.err ⟨1⟩, (flush s).2) := by decide

/-- A state whose entry 0 is dirty, with scripted refreshes. -/
def refreshing (answers : List (Answer (List Word))) (cs : List Command) : State :=
  { given cs with
    cache := (freshCache false).set 0 ⟨"r0", 32, 5, true, true⟩
    transport := { Transport.initial with refreshes := answers } }

theorem witness_FlushAndRefreshComplete :
    let s := halfCached [] [.ok ()] [.flush]
    let u := refreshing [.ok []] [.fullContextRefresh]
    s.phase = .idle ∧ s.built = true ∧ s.inbox = .flush :: [] ∧ u.inbox = .fullContextRefresh :: [] := by decide

/-- Each clause of RefreshKeepsPendingValues: entry 0 dirty, entry 1 clean. -/
theorem witness_RefreshKeepsPendingValues :
    let s := refreshing [.ok (List.replicate 37 9)] []
    let u := refreshing [.err ⟨1⟩] []
    s.built = true ∧ s.cacheOk ∧ (s.transport.refreshHook s.slots).1 = .ok (List.replicate 37 9) ∧
      (s.entry 0).dirty = true ∧ (s.entry 1).dirty = false ∧ (u.transport.refreshHook u.slots).1 = .err ⟨1⟩ := by decide

/-- Two refreshes that answer the same values. -/
theorem witness_RefreshIsIdempotent :
    let s := refreshing [.ok (List.replicate 37 9), .ok (List.replicate 37 9)] []
    let t := (fullContextRefresh s).2
    fullContextRefresh s = (.ok (), t) ∧ fullContextRefresh t = (.ok (), (fullContextRefresh t).2) ∧
      (s.transport.refreshHook s.slots).1 = .ok (List.replicate 37 9) ∧
      (t.transport.refreshHook t.slots).1 = .ok (List.replicate 37 9) := by decide

theorem witness_CoprocessorPassThrough :
    (given [.mrc 15 0 0 1 0]).inbox = .mrc 15 0 0 1 0 :: [] ∧ (given [.mcr 15 0 0 7 5 0]).inbox = .mcr 15 0 0 7 5 0 :: [] ∧
      (given []).phase = .idle ∧ (given []).built = true := by decide

theorem witness_RegisterListFollowsSlots :
    (given [.registerList]).inbox = .registerList :: [] ∧ (given [.registerList]).cacheOk ∧ 36 < (given []).slots := by decide

/-- The widths a call may have, at an address and length that all of them divide. -/
theorem witness_AccessWidthIsLargest : (0xFFFFFFFC#32).toNat % 4 = 0 ∧ 4 % 4 = 0 ∧ (0xFFFFFFFF#32).toNat % 1 = 0 := by decide

theorem witness_RunReturnsToIdle :
    startP3.phase = .idle ∧ startP3.built = true ∧ startP3.inbox = .runAlgorithm requestP3 :: [] ∧
      memParamsInSpace requestP3 = true ∧ memParamsSized requestP3 = true := by decide

/-- Each clause of PrepareChecksInOrder: both errors of MAP, the second behind a parameter that MAP resolves; a request all of whose
parameters it resolves, which succeeds (`witness_SaveListHoldsPreRunValues`) or not (`witness_PrepareFailureLeavesTarget`). -/
theorem witness_PrepareChecksInOrder :
    (0x20000002#32).toNat % 4 ≠ 0 ∧ startP3.coreState = .arm ∧ requestP3.entry.toNat % 4 = 0 ∧ requestP3.exit.toNat % 4 = 0 ∧
      mapRegister startP3.params.hasMon startP3.coreMode .mon 13 = .err .invalidMode ∧
      mapRegister startP3.params.hasMon startP3.coreMode .fiq 13 = .ok 21 ∧
      mapRegister startP3.params.hasMon startP3.coreMode .any 17 = .err .invalidIndex ∧
      ∀ q ∈ requestP3.regParams, ∃ n, mapRegister startP3.params.hasMon startP3.coreMode q.mode q.regnum = .ok n := by
  refine ⟨by decide, by decide, by decide, by decide, by decide, by decide, by decide, fun q hq => ?_⟩
  simp only [requestP3, List.mem_cons, List.not_mem_nil, or_false] at hq
  rcases hq with rfl | rfl | rfl <;> exact ⟨_, rfl⟩

/-- The first of two parameters that MAP refuses decides. R172, R205 (c). -/
theorem test_prepare_first_decides :
    (prepare { requestP3 with regParams := [⟨.fiq, 13, .input, 0⟩, ⟨.any, 17, .output, 0⟩, ⟨.mon, 13, .input, 0⟩] } startP3).1 =
      .error .invalidIndex := rfl

/-- Q10: a run whose second snapshot read fails. -/
def startQ10 : State :=
  { startP3 with transport := { willing with registerReads := [.ok 0x11111111, .err ⟨1⟩] } }

/-- The run fails in Prepare with an entry that was valid and one that a read has filled. -/
theorem witness_PrepareFailureLeavesTarget :
    startQ10.phase = .idle ∧ startQ10.inbox = .runAlgorithm requestP3 :: [] ∧
      replyOf (step startQ10) = some (.run ⟨.failed (.prepareFailed (.transportError ⟨1⟩)), [], [], false⟩) ∧
      (startQ10.entry 31).valid = true ∧ (startQ10.entry 0).valid = false ∧
      ((nextOf (step startQ10)).map fun t => (t.entry 0, t.transport.log)) =
        some (⟨"r0", 32, 0x11111111, true, false⟩, [.readRegister 0 (.ok 0x11111111), .readRegister 1 (.err ⟨1⟩)]) := by decide

/-- The state at the head of P3's Prepare, and its result. -/
def preparedP3 : State := (prepare requestP3 (beginRun requestP3 { startP3 with inbox := [] })).2

theorem witness_prepare :
    startP3.built = true ∧ startP3.modeOk ∧ startP3.cacheOk ∧
      (15, 0x8000) ∈ preparedP3.saveList ∧ (31, 0xD3) ∈ preparedP3.saveList := by decide

theorem witness_SaveListHoldsPreRunValues :
    prepare requestP3 (beginRun requestP3 { startP3 with inbox := [] }) = (.ok (), preparedP3) := rfl

/-- The example of R172: (FIQ, 13) IN and (ANY, 15) IN give save-list slots 21, 15, 31; the slots whose entries were invalid are read,
and only those. -/
theorem test_save_list_example :
    let p := prepare { requestP3 with regParams := [⟨.fiq, 13, .input, 0⟩, ⟨.any, 15, .input, 0⟩] } startP3
    p.2.regSlots = [21, 15] ∧ (p.2.saveList.map fun q => q.1) = [21, 15, 31] ∧
      (p.2.transport.log.map fun c => match c with
        | .readRegister n _ => some n
        | _ => none) = [some 21, some 15] := by decide

/-- A memory loop that succeeds, one whose first call fails, and register parameters whose entries are valid. -/
theorem witness_InstallWritesMemoryInOrder :
    let u := { preparedP3 with transport := { Transport.initial with memoryWrites := [.err ⟨1⟩] } }
    installMemory requestP3.memParams preparedP3 = (.ok (), (installMemory requestP3.memParams preparedP3).2) ∧
      installMemory requestP3.memParams u = (.err ⟨1⟩, (installMemory requestP3.memParams u).2) ∧
      (∀ p ∈ requestP3.regParams.zip preparedP3.regSlots, p.1.dir.writes = true →
        p.2 < preparedP3.cache.length ∧ (preparedP3.entry p.2).valid = true) ∧
      (requestP3.regParams.zip preparedP3.regSlots).length = 3 := by decide

/-- Two parameters on one slot: the later value wins, without a call (R173). -/
theorem test_install_later_wins :
    let s := installRegisters [(⟨.any, 0, .input, 1⟩, 0), (⟨.any, 0, .inout, 2⟩, 0), (⟨.any, 0, .output, 3⟩, 0)] preparedP3
    s.entry 0 = ⟨"r0", 32, 2, true, true⟩ ∧ s.transport = preparedP3.transport := by decide

/-- A memory write fails: the registers of the save-list are rolled back, in order, and the run ends (R173, R179). -/
theorem test_install_rolls_back :
    let u := { preparedP3 with transport := { willing with memoryWrites := [.err ⟨1⟩] } }
    (installPhase requestP3 u).reply = some (.run ⟨.failed (.transportError ⟨1⟩), [], [], false⟩) ∧
      ((installPhase requestP3 u).transport.log.drop 1 =
        [.writeRegister 0 0x11111111 (.ok ()), .writeRegister 1 0x22222222 (.ok ()), .writeRegister 2 0x33333333 (.ok ()),
          .writeRegister 15 0x8000 (.ok ()), .writeRegister 31 0xD3 (.ok ())]) := by decide

/-- Both answers to set_breakpoint, in Thumb state and not. -/
theorem witness_EntryAndExitAddresses :
    (startP3.transport.setBreakpoint 0x20000010).1 = .ok 9 ∧
      (({ Transport.initial with breakpointSets := [.err ⟨7⟩] } : Transport).setBreakpoint 0x20000108).1 = .err ⟨7⟩ := by decide

/-- The state before P3's Resume. -/
def armedP3 : State := armExitPhase requestP3 (installPhase requestP3 preparedP3)

/-- The state with the entry address in the PC's entry, as Resume flushes it. -/
def enteredP3 (t : Transport) : State :=
  { armedP3 with transport := t, cache := armedP3.cache.set 15 { armedP3.entry 15 with value := 0x20000000, valid := true, dirty := true } }

/-- Resume succeeds, the flush fails, the resume call fails. -/
theorem witness_ResumeFlushesThenForgets :
    let u := enteredP3 { willing with registerWrites := [.ok (), .err ⟨1⟩] }
    let w := enteredP3 { willing with resumes := [.err ⟨2⟩] }
    armedP3.built = true ∧ armedP3.cacheOk ∧ (armedP3.entry 15).valid = true ∧
      enteredP3 armedP3.transport = { armedP3 with cache := armedP3.cache.set 15 { armedP3.entry 15 with
        value := pcEntry armedP3.params.pcEntry armedP3.coreState requestP3.entry, valid := true, dirty := true } } ∧
      (resumePhase requestP3 armedP3).phase = .await ∧ 1 < armedP3.slots ∧ (armedP3.entry 1).dirty = true ∧
      flush u = (.err ⟨1⟩, (flush u).2) ∧ flush w = (.ok (), (flush w).2) ∧ (flush w).2.transport.resume.1 = .err ⟨2⟩ := by decide

/-- The three answers of poll_halted. -/
theorem witness_AwaitHasThreeOutcomes :
    armedP3.bp = some 9 ∧ (armedP3.transport.pollHalted 50).1 = .halted (.breakpoint 9) ∧
      (({ Transport.initial with polls := [.halted (.other 4)] } : Transport).pollHalted 50).1 = .halted (.other 4) ∧
      (({ Transport.initial with polls := [.timeout] } : Transport).pollHalted 50).1 = .timeout ∧
      HaltCause.other 4 ≠ .breakpoint 9 := by decide

theorem witness_HarvestAttemptsEveryOutput :
    preparedP3.harvest = [] ∧ preparedP3.regSlots.length = requestP3.regParams.length := by decide

/-- A failed memory read does not stop the register read, an output of size 0 makes no call, and an entry read once is not read
again (R177). -/
theorem test_harvest :
    let req : RunRequest := ⟨0, 0, [⟨8, 4, .output, []⟩, ⟨12, 0, .output, []⟩], [⟨.any, 2, .output, 0⟩, ⟨.any, 2, .inout, 5⟩], 0⟩
    let s := { given [] with regSlots := [2, 2], transport := { Transport.initial with
      memoryReads := [.err ⟨1⟩], registerReads := [.ok 7] } }
    (harvestPhase req s).harvest = [.mem ⟨8, 4, .output, []⟩ (.err ⟨1⟩), .mem ⟨12, 0, .output, []⟩ (.ok []),
        .reg ⟨.any, 2, .output, 0⟩ (.ok 7), .reg ⟨.any, 2, .inout, 5⟩ (.ok 7)] ∧
      (harvestPhase req s).transport.log = [.readMemory 8 4 1 (.err ⟨1⟩), .readRegister 2 (.ok 7)] := by decide

/-- Each clause: a breakpoint held, a save-list, both answers of the refresh, a CPSR entry with a legal mode and one without. -/
theorem witness_RestoreAttemptsEveryEntry :
    armedP3.bp = some 9 ∧ preparedP3.bp = none ∧
      ((preparedP3.saveList).map fun p => p.1).Nodup ∧ (∀ p ∈ preparedP3.saveList, p.1 < preparedP3.cache.length) ∧
      ((refreshing [.ok (List.replicate 37 9)] []).transport.refreshHook 37).1 = .ok (List.replicate 37 9) ∧
      ((refreshing [.err ⟨1⟩] []).transport.refreshHook 37).1 = .err ⟨1⟩ ∧
      ProcessorMode.svc ≠ .any ∧ modeCode .svc = (preparedP3.entry 31).value &&& 0x1F#32 ∧
      modeSupported preparedP3.params.hasMon .svc = true ∧
      ∀ m, m ≠ .any → modeCode m = (State.reset.entry 31).value &&& 0x1F#32 → modeSupported State.reset.params.hasMon m = false := by
  refine ⟨by decide, by decide, by decide, by decide, by decide, by decide, by decide, by decide, by decide, ?_⟩
  intro m; cases m <;> decide

/-- Removal, refresh and resynchronisation fail: three diagnostics in order, the dirty flag of the CPSR entry kept (R178, R208). -/
theorem test_cleanup_diagnostics :
    let s := { given [] with
      bp := some 9, cache := (freshCache false).set 31 ⟨"cpsr", 32, 0xDA, true, true⟩,
      transport := { Transport.initial with breakpointRemovals := [.err ⟨1⟩], refreshes := [.err ⟨2⟩] } }
    (cleanup s).diag = [⟨.removeBreakpoint, .transportError ⟨1⟩⟩, ⟨.refresh, .transportError ⟨2⟩⟩, ⟨.resync, .invalidMode⟩] ∧
      (cleanup s).bp = none ∧ (cleanup s).entry 31 = ⟨"cpsr", 32, 0xDA, true, true⟩ ∧
      (resync { s with cache := (freshCache false).set 31 ⟨"cpsr", 32, 0x60000031, true, true⟩ }).coreMode = .fiq ∧
      (resync { s with cache := (freshCache false).set 31 ⟨"cpsr", 32, 0x60000031, true, true⟩ }).entry 31 =
        ⟨"cpsr", 32, 0x60000031, true, true⟩ := by decide

/-- FinishReportsAndResets: a run whose outcome is not Success, with `witness_PrepareFailureLeavesTarget`. -/
theorem witness_FinishReportsAndResets :
    startQ10.phase = .idle ∧ startQ10.inbox = .runAlgorithm requestP3 :: [] ∧
      RunOutcome.failed (.prepareFailed (.transportError ⟨1⟩)) ≠ .success := by decide

/-- NoBreakpointLeftBehind, MemoryCallsWellFormed, StepKeepsInvariant: with `test_p3_step`, a run that sets a breakpoint and writes
memory. -/
theorem witness_sound_start : startP3.Inv := by decide

/-- The mode and the state change; a run that reached Await, with `test_p3_step` and `test_p3_result`. -/
theorem witness_ModeChangesOnlyExplicitly :
    (given [.setCpsr 0x60000031]).Inv ∧
      ((nextOf (step (given [.setCpsr 0x60000031]))).map fun t => (t.coreMode, t.coreState)) = some (.fiq, .thumb) ∧
      State.reset.coreMode ≠ .fiq ∧ State.reset.coreState ≠ .thumb ∧
      startP3.Inv ∧ startP3.inbox = .runAlgorithm requestP3 :: [] ∧ ∀ e, RunOutcome.success ≠ .failed e := by
  refine ⟨by decide, by decide, by decide, by decide, by decide, by decide, ?_⟩
  intro e; exact nofun

theorem witness_BookkeepingMakesNoCall :
    (given [.setCpsr 0x60000031]).inbox = .setCpsr 0x60000031 :: [] ∧ (Command.setCpsr 0x60000031).mayCall = false := by decide

/-- The call is a refresh. -/
def isRefresh : Transaction → Bool
  | .refreshHook _ => true
  | _ => false

/-- A record that holds one refresh, the last call, is truthful if that one is. -/
theorem truthful_of_last {before : List Transaction} {vals : List Word}
    (h : before.all (fun c => !isRefresh c) = true) (hv : ∀ slot v, lastWritten slot before = some v → vals[slot]? = some v) :
    RefreshTruthful (before ++ [.refreshHook (.ok vals)]) := by
  intro b vs a hlog slot v hw
  rcases List.eq_nil_or_concat a with rfl | ⟨a', x, rfl⟩
  · obtain ⟨rfl, h2⟩ := List.append_inj' hlog rfl
    cases h2
    exact hv slot v hw
  · have : before = b ++ .refreshHook (.ok vs) :: a' := by
      have h3 : before ++ [.refreshHook (.ok vals)] = (b ++ .refreshHook (.ok vs) :: a') ++ [x] := by rw [hlog]; simp
      exact (List.append_inj' h3 rfl).1
    rw [this] at h
    simp [isRefresh] at h

/-- The calls of P3 before the refresh. -/
def callsP3 : List Transaction := endP3.transport.log.take 18

theorem test_p3_last_call : endP3.transport.log = callsP3 ++ [.refreshHook (.ok ((List.range 37).map preRun))] := by decide

/-- P3 starts with an empty record, so the record at its end holds the calls of the run. -/
theorem test_p3_first_call : startP3.transport.log = [] := rfl

/-- RunRestoresSavedRegisters, with `test_p3_step`, `test_p3_first_call`, `witness_sound_start`, `witness_prepare` and
`witness_SaveListHoldsPreRunValues`: the refresh of P3 is truthful about the calls of the run. -/
theorem witness_RunRestoresSavedRegisters : RefreshTruthful endP3.transport.log := by
  rw [test_p3_last_call]
  refine truthful_of_last (by decide) fun slot v h => ?_
  have hc : callsP3.drop 12 = [.removeBreakpoint 9 (.ok ()), .writeRegister 0 0x11111111 (.ok ()),
      .writeRegister 1 0x22222222 (.ok ()), .writeRegister 2 0x33333333 (.ok ()), .writeRegister 15 0x8000 (.ok ()),
      .writeRegister 31 0xD3 (.ok ())] := by decide
  have h12 : lastWritten slot (callsP3.take 12) = none := by
    have : callsP3.take 12 = callsP3.take 9 ++ [.resume (.ok ()), .pollHalted 50 (.halted (.breakpoint 9)), .readRegister 2 (.ok 1)] := by
      decide
    rw [this]
    simp [lastWritten, noteCall]
  rw [← List.take_append_drop 12 callsP3, hc] at h
  unfold lastWritten at h h12
  rw [List.foldl_append, h12] at h
  simp only [List.foldl, noteCall] at h
  split at h
  · rename_i h'; subst h'; cases h; rfl
  · split at h
    · rename_i h'; subst h'; cases h; rfl
    · split at h
      · rename_i h'; subst h'; cases h; rfl
      · split at h
        · rename_i h'; subst h'; cases h; rfl
        · split at h
          · rename_i h'; subst h'; cases h; rfl
          · cases h

end Sys2Proof.Tests
end

section
/-! PROOFS of the core-state operations: how a command that stands first in the inbox is served, what a register read answers in
each case of R154, and from the two the obligation. -/

namespace Sys2Proof.Machine

/-! How a command is taken and served. -/

/-- R171, R235: in phase IDLE the oldest command is taken from the inbox and served. -/
theorem step_of_inbox_cons {s : State} {c : Command} {cs : List Command} (hphase : s.phase = .idle)
    (hinbox : s.inbox = c :: cs) : step s = serve c { s with inbox := cs } := by
  simp only [step, hphase, hinbox, if_true]

/-- Log 15: an operation of an instance that exists is not refused. -/
theorem withInstance_of_built {s : State} (o : Host.Outcome State Fault Refusal) (hbuilt : s.built = true) :
    withInstance s o = o := if_pos hbuilt

/-- Log 15, log 17: an operation on a slot that the instance's cache has is not refused. -/
theorem withSlot_of_lt {s : State} {v : RegisterView} (o : Host.Outcome State Fault Refusal) (hbuilt : s.built = true)
    (hslot : v.slot < s.slots) : withSlot s v o = o :=
  (withInstance_of_built _ hbuilt).trans (if_pos hslot)

/-- A step that serves `read_register` on a slot of the cache answers with the result of `readSlot`. -/
theorem step_readRegister {s : State} {v : RegisterView} {cs : List Command} (hphase : s.phase = .idle)
    (hbuilt : s.built = true) (hslot : v.slot < s.slots) (hinbox : s.inbox = .readRegister v :: cs) :
    step s = .next ((readSlot v.slot { s with inbox := cs }).2.answer
      ((readSlot v.slot { s with inbox := cs }).1.reply .value)) := by
  rw [step_of_inbox_cons hphase hinbox]
  exact withSlot_of_lt _ hbuilt hslot

/-! The cases of `readSlot_cases`, each under the condition that selects it. R154. -/

theorem readSlot_of_valid {n : Nat} {s : State} (hvalid : (s.entry n).valid = true) :
    readSlot n s = (.ok (s.entry n).value, s) := by
  rcases readSlot_cases n s with ⟨_, h⟩ | ⟨hinvalid, _⟩ | ⟨hinvalid, _⟩
  · exact h
  · simp [hvalid] at hinvalid
  · simp [hvalid] at hinvalid

theorem readSlot_of_hook_ok {n : Nat} {s : State} {x : Word} (hinvalid : (s.entry n).valid = false)
    (hhook : (s.transport.readRegister n).1 = .ok x) :
    readSlot n s = (.ok x, (s.withTransport (s.transport.readRegister n).2).setEntry n ((s.entry n).filled x)) := by
  rcases readSlot_cases n s with ⟨hvalid, _⟩ | ⟨_, y, hy, h⟩ | ⟨_, e, he, _⟩
  · simp [hinvalid] at hvalid
  · obtain rfl : y = x := Answer.ok.inj (hy.symm.trans hhook)
    exact h
  · simp [hhook] at he

theorem readSlot_of_hook_err {n : Nat} {s : State} {e : TransportError} (hinvalid : (s.entry n).valid = false)
    (hhook : (s.transport.readRegister n).1 = .err e) :
    readSlot n s = (.err e, s.withTransport (s.transport.readRegister n).2) := by
  rcases readSlot_cases n s with ⟨hvalid, _⟩ | ⟨_, y, hy, _⟩ | ⟨_, e', he', h⟩
  · simp [hinvalid] at hvalid
  · simp [hhook] at hy
  · obtain rfl : e' = e := Answer.err.inj (he'.symm.trans hhook)
    exact h

/-- Settles O32, from the three answers of `readSlot` in the state whose inbox has lost the command: that state has the entry and
the transport of `s`. -/
theorem readRegisterIsLazy : Obligations.ReadRegisterIsLazy := by
  intro s cs v hphase hbuilt hslot hinbox
  have hstep := step_readRegister hphase hbuilt hslot hinbox
  refine ⟨fun hvalid => ?valid, fun x hinvalid hhook => ?hook_ok, fun e hinvalid hhook => ?hook_err⟩
  case valid =>
    rw [hstep, readSlot_of_valid (s := { s with inbox := cs }) hvalid]
    rfl
  case hook_ok =>
    rw [hstep, readSlot_of_hook_ok (s := { s with inbox := cs }) hinvalid hhook]
    rfl
  case hook_err =>
    rw [hstep, readSlot_of_hook_err (s := { s with inbox := cs }) hinvalid hhook]
    rfl

end Sys2Proof.Machine
end

section
/-! PROOFS of the sequencer's statements: what Prepare leaves for the run that follows it, that each way such a run can end puts
the save-list back, and from the two the restoration property of R182. -/

namespace Sys2Proof.Machine

/-! Prepare. R172. -/

/-- The calls of Prepare are those of its snapshot: register reads, added to the record. -/
theorem prepare_log (req : RunRequest) (s : State) :
    Grew Transaction.isRegisterCall s.transport.log (prepare req s).2.transport.log := by
  unfold prepare
  simp only
  split
  case isTrue => exact .refl _ _
  split
  case isTrue => exact .refl _ _
  split
  case h_1 => exact .refl _ _
  case h_2 slots _ =>
    have hsnapshot := (snapshot_op (saveSlots slots) { s with diag := [], harvest := [], bp := none, primary := none }).log
    split <;> rename_i heq <;> rw [heq] at hsnapshot <;> exact hsnapshot

/-- With an instance and a sound cache, the save-list of a successful Prepare names entries of the cache it leaves. -/
theorem prepare_saved_lt {req : RunRequest} {s p : State} (hbuilt : s.built = true) (hcache : s.cacheOk)
    (hprepare : prepare req s = (.ok (), p)) : ∀ q ∈ p.saveList, q.1 < p.cache.length := by
  have hkept := (prepare_steady req s).cache.length
  rw [hprepare, State.cache_length hbuilt hcache] at hkept
  intro q hq
  exact hkept ▸ (prepare_saveList hprepare).2 q hq

/-! The end of a run that passed Prepare. -/

/-- After a rollback every register of the save-list holds its saved value; no refresh is involved. R179. -/
theorem rollback_restores {s : State} (hnodup : (s.saveList.map fun q => q.1).Nodup)
    (hslots : ∀ q ∈ s.saveList, q.1 < s.cache.length) :
    ∃ new, (rollback s).transport.log = s.transport.log ++ new ∧
      ∀ n v, (n, v) ∈ s.saveList → ((rollback s).entry n).valid = true ∧ ((rollback s).entry n).value = v := by
  obtain ⟨new, hlog, _⟩ := (restoreAll_op s.saveList s).2.2
  exact ⟨new, hlog, fun _ _ hmem => restoreAll_self hnodup hslots hmem⟩

/-- However a run that passed Prepare ends, by a rollback or through Cleanup, every register of the save-list then holds its
saved value, if the refresh is truthful about a record that ends with the calls made since Prepare. R178, R179, R182. -/
theorem Ended.restores {p t : State} (h : Ended p t) (hnodup : (p.saveList.map fun q => q.1).Nodup)
    (hslots : ∀ q ∈ p.saveList, q.1 < p.cache.length) :
    ∃ new, t.transport.log = p.transport.log ++ new ∧ ∀ before, RefreshTruthful (before ++ new) →
      ∀ n v, (n, v) ∈ p.saveList → (t.entry n).valid = true ∧ (t.entry n).value = v := by
  obtain ⟨o, x, hcarry, _, _, hend⟩ := h
  obtain ⟨sinceP, hsinceP⟩ := hcarry.log
  rw [← hcarry.saved] at hnodup hslots ⊢
  rw [← hcarry.len] at hslots
  rcases hend with ⟨rfl, _⟩ | rfl
  · obtain ⟨new, hlog, hsaved⟩ := rollback_restores hnodup hslots
    exact ⟨sinceP ++ new, by rw [finish_transport, hlog, hsinceP, List.append_assoc], fun _ _ => hsaved⟩
  · obtain ⟨new, hlog, hsaved⟩ := cleanup_restores hnodup hslots
    refine ⟨sinceP ++ new, by rw [finish_transport, hlog, hsinceP, List.append_assoc], fun before htruth => ?_⟩
    exact hsaved (before ++ sinceP) (by rwa [List.append_assoc])

/-! The run as one command. -/

/-- R171, R235: a step that takes a run request from the inbox of an instance runs it whole. -/
theorem step_runAlgorithm {s : State} {req : RunRequest} {cs : List Command} (hphase : s.phase = .idle)
    (hbuilt : s.built = true) (hinbox : s.inbox = .runAlgorithm req :: cs) :
    step s = runAlgorithm req { s with inbox := cs } := by
  rw [step_of_inbox_cons hphase hinbox]
  exact withInstance_of_built _ hbuilt

/-- The end of a run whose Prepare is known to have succeeded. R171. -/
theorem runAlgorithm_ended {req : RunRequest} {s t p : State} (hrun : runAlgorithm req s = .next t)
    (hprepare : prepare req (beginRun req s) = (.ok (), p)) : Ended p t := by
  rcases runAlgorithm_cases hrun with ⟨c, q, hfailed, _⟩ | ⟨q, hok, hended⟩
  · simp [hprepare] at hfailed
  · obtain rfl : p = q := congrArg Prod.snd (hprepare.symm.trans hok)
    exact hended

/-- Settles O55: the record of the run is the calls of Prepare, then those up to the end of the run, and at each of the two
ends a run can have the entries of the save-list are valid with their saved values, which is when `readSlot` makes no call. -/
theorem runRestoresSavedRegisters : Obligations.RunRestoresSavedRegisters := by
  intro s t p cs req hinv hbuilt hinbox hstep hprepare
  obtain ⟨_, hcache, hphase, _⟩ := hinv
  rw [step_runAlgorithm hphase hbuilt hinbox] at hstep
  obtain ⟨byPrepare, hlogP, _⟩ := prepare_log req (beginRun req { s with inbox := cs })
  rw [hprepare] at hlogP
  obtain ⟨sinceP, hlog, hsaved⟩ := (runAlgorithm_ended hstep hprepare).restores (prepare_saveList hprepare).1
    (prepare_saved_lt (s := beginRun req { s with inbox := cs }) hbuilt hcache hprepare)
  refine ⟨byPrepare ++ sinceP, ?record, fun htruth n v hmem => ?readBack⟩
  case record =>
    rw [hlog, hlogP, List.append_assoc]
    rfl
  case readBack =>
    obtain ⟨hvalid, hvalue⟩ := hsaved byPrepare htruth n v hmem
    rw [readSlot_of_valid hvalid, hvalue]

end Sys2Proof.Machine
end

section
/-! PROOFS of the encodings, first part: bits of words. A word of the field tables is a fixed word with each operand placed at
its shift; a mask, a field and a placed operand meet in one of three ways. -/

namespace Sys2Proof

/-! Placed operands. -/

/-- Concatenation as shift and disjunction, at any width: what turns a field table (R65, R66) into a formula. -/
theorem setWidth_append_eq_or {a b : Nat} (n : Nat) (x : BitVec a) (y : BitVec b) :
    (x ++ y).setWidth n = x.setWidth n <<< b ||| y.setWidth n := by
  ext i hi
  simp only [BitVec.getElem_setWidth, BitVec.getLsbD_append, BitVec.getElem_or, BitVec.getElem_shiftLeft]
  by_cases h : i < b
  · simp [h]
  · simp [h, BitVec.getLsbD_of_ge y i (by omega)]

/-- A mask that leaves out the whole place of an operand leaves nothing of it. -/
@[simp] theorem placed_and_eq_zero {k n s : Nat} {m : BitVec n} (x : BitVec k)
    (h : (BitVec.allOnes k).setWidth n <<< s &&& m = 0#n) : x.setWidth n <<< s &&& m = 0#n := by
  ext i hi
  have hbit := congrArg (·.getLsbD i) h
  simp only [BitVec.getLsbD_and, BitVec.getLsbD_shiftLeft, BitVec.getLsbD_setWidth, BitVec.getLsbD_allOnes, hi,
    BitVec.getLsbD_zero] at hbit
  by_cases hk : i - s < k
  · have hn : i - s < n := by omega
    simp only [hk, hn] at hbit
    simp_all
  · simp [BitVec.getLsbD_of_ge x (i - s) (by omega)]

/-- The field that an operand was placed in gives the operand back. -/
@[simp] theorem extractLsb'_placed {k n s : Nat} (x : BitVec k) (h : s + k ≤ n) : (x.setWidth n <<< s).extractLsb' s k = x := by
  ext i hi
  simp [show s + i < n by omega, BitVec.getLsbD_eq_getElem hi]

/-- A field beside the place of an operand holds nothing of it. -/
@[simp] theorem extractLsb'_placed_apart {k n s lo len : Nat} (x : BitVec k) (h : s + k ≤ lo ∨ lo + len ≤ s) :
    (x.setWidth n <<< s).extractLsb' lo len = 0#len := by
  ext i hi
  simp only [BitVec.getElem_extractLsb', BitVec.getLsbD_shiftLeft, BitVec.getLsbD_setWidth, BitVec.getElem_zero]
  by_cases hs : lo + i < s
  · simp [hs]
  · simp [BitVec.getLsbD_of_ge x (lo + i - s) (by omega)]

/-- A field of a word, put back to its place, is the word under the field's mask. -/
@[simp] theorem extractLsb'_place {n lo len : Nat} (w : BitVec n) :
    (w.extractLsb' lo len).setWidth n <<< lo = w &&& (BitVec.allOnes len).setWidth n <<< lo := by
  ext i hi
  simp only [BitVec.getElem_shiftLeft, BitVec.getElem_and]
  by_cases hlo : i < lo
  · simp [hlo]
  · simp [hlo, show lo + (i - lo) = i by omega, BitVec.getLsbD_eq_getElem hi, Bool.and_comm]

/-! The same for an operand in the lowest bits, where nothing is shifted. -/

@[simp] theorem lowest_and_eq_zero {k n : Nat} {m : BitVec n} (x : BitVec k) (h : (BitVec.allOnes k).setWidth n &&& m = 0#n) :
    x.setWidth n &&& m = 0#n := by
  simpa using placed_and_eq_zero (s := 0) x (by simpa using h)

@[simp] theorem extractLsb'_lowest {k n : Nat} (x : BitVec k) (h : k ≤ n) : (x.setWidth n).extractLsb' 0 k = x := by
  simpa using extractLsb'_placed (s := 0) x (by simpa using h)

@[simp] theorem extractLsb'_lowest_apart {k n lo len : Nat} (x : BitVec k) (h : k ≤ lo) :
    (x.setWidth n).extractLsb' lo len = 0#len := by
  simpa using extractLsb'_placed_apart (n := n) (s := 0) (len := len) x (.inl (by simpa using h))

theorem extractLsb'_lowest_place {n len : Nat} (w : BitVec n) :
    (w.extractLsb' 0 len).setWidth n = w &&& (BitVec.allOnes len).setWidth n := by
  simpa using extractLsb'_place (lo := 0) (len := len) w

theorem setWidth_setWidth_eq_and {n k : Nat} (w : BitVec n) (h : k ≤ n) :
    (w.setWidth k).setWidth n = w &&& (BitVec.allOnes k).setWidth n := by
  rw [BitVec.setWidth_eq_extractLsb' h, extractLsb'_lowest_place]

/-! Operands in range. R73. -/

/-- An operand is in range when it passes through its field unchanged. -/
theorem fits_iff {v : Word} {k : Nat} (hk : k ≤ 32) : fits v k = true ↔ (v.setWidth k).setWidth 32 = v := by
  have hpow : 2 ^ k ≤ 2 ^ 32 := Nat.pow_le_pow_right (by decide) hk
  rw [fits, decide_eq_true_iff, ← BitVec.toNat_inj, BitVec.toNat_setWidth, BitVec.toNat_setWidth]
  constructor
  · intro h
    rw [Nat.mod_eq_of_lt h, Nat.mod_eq_of_lt v.isLt]
  · intro h
    have hlt : v.toNat % 2 ^ k < 2 ^ k := Nat.mod_lt _ (Nat.two_pow_pos k)
    rw [Nat.mod_eq_of_lt (Nat.lt_of_lt_of_le hlt hpow)] at h
    exact h ▸ hlt

/-- What is read from a field fits it. -/
theorem fits_setWidth {k : Nat} (x : BitVec k) : fits (x.setWidth 32) k = true :=
  decide_eq_true (Nat.lt_of_le_of_lt (by rw [BitVec.toNat_setWidth]; exact Nat.mod_le _ _) x.isLt)

end Sys2Proof
end

section
/-! PROOFS of the encodings, second part: each field table of R65 and R66 as a formula, the fixed bits and then the fields from
the highest place down. A Thumb table is said twice, as a halfword and as the low half of a word. -/

namespace Sys2Proof

theorem or_left_comm_bv {n : Nat} (a b c : BitVec n) : a ||| (b ||| c) = b ||| (a ||| c) := by
  rw [← BitVec.or_assoc, BitVec.or_comm a b, BitVec.or_assoc]

/-! The A32 formats. R65. -/

theorem encDpReg_eq (rd rm : BitVec 4) :
    encDpReg rd rm =
      0xE1A00000#32 ||| rm.setWidth 32 ||| rd.setWidth 32 <<< 12 := by
  rw [← BitVec.setWidth_eq (encDpReg rd rm)]
  simp only [encDpReg, setWidth_append_eq_or, BitVec.shiftLeft_or_distrib, ← BitVec.shiftLeft_add]
  simp [BitVec.or_comm, or_left_comm_bv]

theorem encDpImm_eq (rd rotate : BitVec 4) (imm8 : BitVec 8) :
    encDpImm rd rotate imm8 =
      0xE3A00000#32 ||| rd.setWidth 32 <<< 12 ||| rotate.setWidth 32 <<< 8 ||| imm8.setWidth 32 := by
  rw [← BitVec.setWidth_eq (encDpImm rd rotate imm8)]
  simp only [encDpImm, setWidth_append_eq_or, BitVec.shiftLeft_or_distrib, ← BitVec.shiftLeft_add]
  simp

theorem encLsImm_eq (p u b w l : BitVec 1) (rn rd : BitVec 4) (imm12 : BitVec 12) :
    encLsImm p u b w l rn rd imm12 =
      0xE4000000#32 ||| p.setWidth 32 <<< 24 ||| u.setWidth 32 <<< 23 ||| b.setWidth 32 <<< 22 |||
        w.setWidth 32 <<< 21 ||| l.setWidth 32 <<< 20 ||| imm12.setWidth 32 ||| rd.setWidth 32 <<< 12 |||
        rn.setWidth 32 <<< 16 := by
  rw [← BitVec.setWidth_eq (encLsImm p u b w l rn rd imm12)]
  simp only [encLsImm, setWidth_append_eq_or, BitVec.shiftLeft_or_distrib, ← BitVec.shiftLeft_add]
  simp [BitVec.or_comm, or_left_comm_bv]

theorem encLsHalf_eq (p u w l : BitVec 1) (rn rd immH immL : BitVec 4) :
    encLsHalf p u w l rn rd immH immL =
      0xE04000B0#32 ||| p.setWidth 32 <<< 24 ||| u.setWidth 32 <<< 23 ||| w.setWidth 32 <<< 21 |||
        l.setWidth 32 <<< 20 ||| immH.setWidth 32 <<< 8 ||| immL.setWidth 32 ||| rd.setWidth 32 <<< 12 |||
        rn.setWidth 32 <<< 16 := by
  rw [← BitVec.setWidth_eq (encLsHalf p u w l rn rd immH immL)]
  simp only [encLsHalf, setWidth_append_eq_or, BitVec.shiftLeft_or_distrib, ← BitVec.shiftLeft_add]
  simp only [BitVec.reduceSetWidth, BitVec.reduceHShiftLeft, Nat.reduceAdd, BitVec.or_zero]
  rw [show 0xE04000B0#32 = 0xE0000000#32 ||| 0x400000#32 ||| 0x80#32 ||| 0x20#32 ||| 0x10#32 from rfl]
  simp only [BitVec.or_comm, or_left_comm_bv]

theorem encLsMult_eq (s w l : BitVec 1) (rn : BitVec 4) (list : BitVec 16) :
    encLsMult s w l rn list =
      0xE8800000#32 ||| l.setWidth 32 <<< 20 ||| s.setWidth 32 <<< 22 ||| w.setWidth 32 <<< 21 |||
        rn.setWidth 32 <<< 16 ||| list.setWidth 32 := by
  rw [← BitVec.setWidth_eq (encLsMult s w l rn list)]
  simp only [encLsMult, setWidth_append_eq_or, BitVec.shiftLeft_or_distrib, ← BitVec.shiftLeft_add]
  simp [BitVec.or_comm, or_left_comm_bv]

theorem encBranch_eq (l : BitVec 1) (imm24 : BitVec 24) :
    encBranch l imm24 =
      0xEA000000#32 ||| imm24.setWidth 32 ||| l.setWidth 32 <<< 24 := by
  rw [← BitVec.setWidth_eq (encBranch l imm24)]
  simp only [encBranch, setWidth_append_eq_or, BitVec.shiftLeft_or_distrib, ← BitVec.shiftLeft_add]
  simp [BitVec.or_comm, or_left_comm_bv]

theorem encBx_eq (rm : BitVec 4) :
    encBx rm =
      0xE12FFF10#32 ||| rm.setWidth 32 := by
  rw [← BitVec.setWidth_eq (encBx rm)]
  simp only [encBx, setWidth_append_eq_or, BitVec.shiftLeft_or_distrib, ← BitVec.shiftLeft_add]
  simp

theorem encMrs_eq (r : BitVec 1) (rd : BitVec 4) :
    encMrs r rd =
      0xE10F0000#32 ||| r.setWidth 32 <<< 22 ||| rd.setWidth 32 <<< 12 := by
  rw [← BitVec.setWidth_eq (encMrs r rd)]
  simp only [encMrs, setWidth_append_eq_or, BitVec.shiftLeft_or_distrib, ← BitVec.shiftLeft_add]
  simp only [BitVec.reduceSetWidth, BitVec.reduceHShiftLeft, Nat.reduceAdd, BitVec.or_zero, BitVec.reduceOr]
  rw [show 0xE10F0000#32 = 0xE1000000#32 ||| 0xF0000#32 from rfl]
  simp only [BitVec.or_comm, or_left_comm_bv]

theorem encMsrReg_eq (r : BitVec 1) (fieldMask rm : BitVec 4) :
    encMsrReg r fieldMask rm =
      0xE120F000#32 ||| rm.setWidth 32 ||| fieldMask.setWidth 32 <<< 16 ||| r.setWidth 32 <<< 22 := by
  rw [← BitVec.setWidth_eq (encMsrReg r fieldMask rm)]
  simp only [encMsrReg, setWidth_append_eq_or, BitVec.shiftLeft_or_distrib, ← BitVec.shiftLeft_add]
  simp only [BitVec.reduceSetWidth, BitVec.reduceHShiftLeft, Nat.reduceAdd, BitVec.or_zero, BitVec.reduceOr]
  rw [show 0xE120F000#32 = 0xE1000000#32 ||| 0x200000#32 ||| 0xF000#32 from rfl]
  simp only [BitVec.or_comm, or_left_comm_bv]

theorem encMsrImm_eq (r : BitVec 1) (fieldMask rotate : BitVec 4) (imm8 : BitVec 8) :
    encMsrImm r fieldMask rotate imm8 =
      0xE320F000#32 ||| imm8.setWidth 32 ||| rotate.setWidth 32 <<< 8 ||| fieldMask.setWidth 32 <<< 16 |||
        r.setWidth 32 <<< 22 := by
  rw [← BitVec.setWidth_eq (encMsrImm r fieldMask rotate imm8)]
  simp only [encMsrImm, setWidth_append_eq_or, BitVec.shiftLeft_or_distrib, ← BitVec.shiftLeft_add]
  simp only [BitVec.reduceSetWidth, BitVec.reduceHShiftLeft, Nat.reduceAdd, BitVec.reduceOr]
  rw [show 0xE320F000#32 = 0xE3000000#32 ||| 0x200000#32 ||| 0xF000#32 from rfl]
  simp only [BitVec.or_comm, or_left_comm_bv]

theorem encCprt_eq (op1 : BitVec 3) (l : BitVec 1) (crn rd cp : BitVec 4) (op2 : BitVec 3) (crm : BitVec 4) :
    encCprt op1 l crn rd cp op2 crm =
      0xEE000010#32 ||| l.setWidth 32 <<< 20 ||| crm.setWidth 32 ||| op2.setWidth 32 <<< 5 ||| cp.setWidth 32 <<< 8 |||
        rd.setWidth 32 <<< 12 ||| crn.setWidth 32 <<< 16 ||| op1.setWidth 32 <<< 21 := by
  rw [← BitVec.setWidth_eq (encCprt op1 l crn rd cp op2 crm)]
  simp only [encCprt, setWidth_append_eq_or, BitVec.shiftLeft_or_distrib, ← BitVec.shiftLeft_add]
  simp only [BitVec.reduceSetWidth, BitVec.reduceHShiftLeft, Nat.reduceAdd, BitVec.reduceOr]
  rw [show 0xEE000010#32 = 0xEE000000#32 ||| 0x10#32 from rfl]
  simp only [BitVec.or_comm, or_left_comm_bv]

theorem encBkpt_eq (imm12 : BitVec 12) (imm4 : BitVec 4) :
    encBkpt imm12 imm4 =
      0xE1200070#32 ||| imm12.setWidth 32 <<< 8 ||| imm4.setWidth 32 := by
  rw [← BitVec.setWidth_eq (encBkpt imm12 imm4)]
  simp only [encBkpt, setWidth_append_eq_or, BitVec.shiftLeft_or_distrib, ← BitVec.shiftLeft_add]
  simp only [BitVec.reduceSetWidth, BitVec.reduceHShiftLeft, Nat.reduceAdd, BitVec.reduceOr]
  rw [show 0xE1200070#32 = 0xE1200000#32 ||| 0x70#32 from rfl]
  simp only [BitVec.or_comm, or_left_comm_bv]

/-! The T16x2 formats, as halfwords. R66. -/

theorem encTHiReg_eq (h1 h2 : BitVec 1) (rm rd : BitVec 3) :
    encTHiReg h1 h2 rm rd =
      0x4600#16 ||| rd.setWidth 16 ||| rm.setWidth 16 <<< 3 ||| h2.setWidth 16 <<< 6 ||| h1.setWidth 16 <<< 7 := by
  rw [← BitVec.setWidth_eq (encTHiReg h1 h2 rm rd)]
  simp only [encTHiReg, setWidth_append_eq_or, BitVec.shiftLeft_or_distrib, ← BitVec.shiftLeft_add]
  simp [BitVec.or_comm, or_left_comm_bv]

theorem encTImm8_eq (rd : BitVec 3) (imm8 : BitVec 8) :
    encTImm8 rd imm8 =
      0x2000#16 ||| rd.setWidth 16 <<< 8 ||| imm8.setWidth 16 := by
  rw [← BitVec.setWidth_eq (encTImm8 rd imm8)]
  simp only [encTImm8, setWidth_append_eq_or, BitVec.shiftLeft_or_distrib, ← BitVec.shiftLeft_add]
  simp

theorem encTLsMult_eq (l : BitVec 1) (rn : BitVec 3) (list : BitVec 8) :
    encTLsMult l rn list =
      0xC000#16 ||| l.setWidth 16 <<< 11 ||| rn.setWidth 16 <<< 8 ||| list.setWidth 16 := by
  rw [← BitVec.setWidth_eq (encTLsMult l rn list)]
  simp only [encTLsMult, setWidth_append_eq_or, BitVec.shiftLeft_or_distrib, ← BitVec.shiftLeft_add]
  simp

theorem encTLsImm5_eq (l : BitVec 1) (rn rd : BitVec 3) :
    encTLsImm5 l rn rd =
      0x6000#16 ||| l.setWidth 16 <<< 11 ||| rn.setWidth 16 <<< 3 ||| rd.setWidth 16 := by
  rw [← BitVec.setWidth_eq (encTLsImm5 l rn rd)]
  simp only [encTLsImm5, setWidth_append_eq_or, BitVec.shiftLeft_or_distrib, ← BitVec.shiftLeft_add]
  simp

theorem encTLdrPc_eq (rd : BitVec 3) :
    encTLdrPc rd =
      0x4800#16 ||| rd.setWidth 16 <<< 8 := by
  rw [← BitVec.setWidth_eq (encTLdrPc rd)]
  simp only [encTLdrPc, setWidth_append_eq_or, BitVec.shiftLeft_or_distrib, ← BitVec.shiftLeft_add]
  simp

theorem encTBx_eq (rm : BitVec 4) :
    encTBx rm =
      0x4700#16 ||| rm.setWidth 16 <<< 3 := by
  rw [← BitVec.setWidth_eq (encTBx rm)]
  simp only [encTBx, setWidth_append_eq_or, BitVec.shiftLeft_or_distrib, ← BitVec.shiftLeft_add]
  simp

theorem encTB_eq (imm11 : BitVec 11) :
    encTB imm11 =
      0xE000#16 ||| imm11.setWidth 16 := by
  rw [← BitVec.setWidth_eq (encTB imm11)]
  simp only [encTB, setWidth_append_eq_or]
  simp

theorem encTBkpt_eq (imm8 : BitVec 8) :
    encTBkpt imm8 =
      0xBE00#16 ||| imm8.setWidth 16 := by
  rw [← BitVec.setWidth_eq (encTBkpt imm8)]
  simp only [encTBkpt, setWidth_append_eq_or]
  simp

/-! The same formats as 32-bit values, which is how the formulas of R110 to R120 form them. -/

theorem encTHiReg_word (h1 h2 : BitVec 1) (rm rd : BitVec 3) :
    (encTHiReg h1 h2 rm rd).setWidth 32 =
      0x4600#32 ||| rd.setWidth 32 ||| rm.setWidth 32 <<< 3 ||| h2.setWidth 32 <<< 6 ||| h1.setWidth 32 <<< 7 := by
  simp only [encTHiReg, setWidth_append_eq_or, BitVec.shiftLeft_or_distrib, ← BitVec.shiftLeft_add]
  simp [BitVec.or_comm, or_left_comm_bv]

theorem encTImm8_word (rd : BitVec 3) (imm8 : BitVec 8) :
    (encTImm8 rd imm8).setWidth 32 =
      0x2000#32 ||| rd.setWidth 32 <<< 8 ||| imm8.setWidth 32 := by
  simp only [encTImm8, setWidth_append_eq_or, BitVec.shiftLeft_or_distrib, ← BitVec.shiftLeft_add]
  simp

theorem encTLsMult_word (l : BitVec 1) (rn : BitVec 3) (list : BitVec 8) :
    (encTLsMult l rn list).setWidth 32 =
      0xC000#32 ||| l.setWidth 32 <<< 11 ||| rn.setWidth 32 <<< 8 ||| list.setWidth 32 := by
  simp only [encTLsMult, setWidth_append_eq_or, BitVec.shiftLeft_or_distrib, ← BitVec.shiftLeft_add]
  simp

theorem encTLsImm5_word (l : BitVec 1) (rn rd : BitVec 3) :
    (encTLsImm5 l rn rd).setWidth 32 =
      0x6000#32 ||| l.setWidth 32 <<< 11 ||| rn.setWidth 32 <<< 3 ||| rd.setWidth 32 := by
  simp only [encTLsImm5, setWidth_append_eq_or, BitVec.shiftLeft_or_distrib, ← BitVec.shiftLeft_add]
  simp

theorem encTLdrPc_word (rd : BitVec 3) :
    (encTLdrPc rd).setWidth 32 =
      0x4800#32 ||| rd.setWidth 32 <<< 8 := by
  simp only [encTLdrPc, setWidth_append_eq_or, BitVec.shiftLeft_or_distrib, ← BitVec.shiftLeft_add]
  simp

theorem encTBx_word (rm : BitVec 4) :
    (encTBx rm).setWidth 32 =
      0x4700#32 ||| rm.setWidth 32 <<< 3 := by
  simp only [encTBx, setWidth_append_eq_or, BitVec.shiftLeft_or_distrib, ← BitVec.shiftLeft_add]
  simp

theorem encTB_word (imm11 : BitVec 11) :
    (encTB imm11).setWidth 32 =
      0xE000#32 ||| imm11.setWidth 32 := by
  simp only [encTB, setWidth_append_eq_or]
  simp

theorem encTBkpt_word (imm8 : BitVec 8) :
    (encTBkpt imm8).setWidth 32 =
      0xBE00#32 ||| imm8.setWidth 32 := by
  simp only [encTBkpt, setWidth_append_eq_or]
  simp

end Sys2Proof
end

section
/-! PROOFS of the encodings, third part: the decoder gives back what the encoder wrote. A word with the fixed bits of a row decodes
by that row, since no two rows share a word but the no-op's and the move's (R71). -/

namespace Sys2Proof

/-! The rows of the opcode table. -/

/-- In a list whose elements exclude each other, what is found is whatever hits, a head that misses aside. -/
theorem find?_of_exclusive {α : Type} {hits : α → Bool} {apart : α → α → Prop} {first r : α} {l : List α}
    (hexcl : ∀ a b, apart a b → hits a = true → hits b = false) (hl : l.Pairwise apart) (hfirst : hits first = false)
    (hmem : r ∈ l) (hr : hits r = true) : (first :: l).find? hits = some r := by
  obtain ⟨before, after, rfl⟩ := List.append_of_mem hmem
  refine List.find?_eq_some_iff_append.2 ⟨hr, first :: before, after, rfl, fun a ha => ?_⟩
  rcases List.mem_cons.1 ha with rfl | ha
  · simp [hfirst]
  · have hapart := (List.pairwise_append.1 hl).2.2 a ha r List.mem_cons_self
    by_contra hhit
    simp [hexcl a r hapart (by simpa using hhit)] at hr

/-- The word of the no-op aside, a word with the fixed bits of an A32 row decodes by that row. R71; log 10. -/
theorem decodeA32_of_hits {w : Word} {r : Row32} (k : Nat) (hrow : rows32.tail[k]? = some r) (hnop : w ≠ 0xE1A08008)
    (hr : r.hits w = true) : decodeA32 w = .ok (r.build w) := by
  have hmiss : Row32.hits ⟨0xFFFFFFFF, 0xE1A08008, fun _ => .armNop⟩ w = false :=
    decide_eq_false fun h => hnop ((BitVec.and_allOnes (x := w)).symm.trans h)
  have hfind : rows32.find? (·.hits w) = some r :=
    find?_of_exclusive (apart := Row32.apart) (fun _ _ h => Row32.apart_hits h) rows32_apart.1 hmiss
      (List.mem_of_getElem? hrow) hr
  rw [decodeA32, hfind]

/-- The halfword of the no-op aside, a halfword with the fixed bits of a T16x2 row decodes by that row. R71; log 10. -/
theorem decodeHalf_of_hits {h : Half} {r : Row16} (k : Nat) (hrow : rows16.tail[k]? = some r) (hnop : h ≠ 0x46C0)
    (hr : r.hits h = true) : decodeHalf h = .ok (r.build h) := by
  have hmiss : Row16.hits ⟨0xFFFF, 0x46C0, fun _ => .tNop⟩ h = false :=
    decide_eq_false fun hall => hnop ((BitVec.and_allOnes (x := h)).symm.trans hall)
  have hfind : rows16.find? (·.hits h) = some r :=
    find?_of_exclusive (apart := Row16.apart) (fun _ _ hab => Row16.apart_hits hab) rows16_apart.1 hmiss
      (List.mem_of_getElem? hrow) hr
  rw [decodeHalf, hfind]

/-- The same for a row that the no-op's word does not belong to, its operands read back. -/
theorem decodeA32_of_row {w : Word} {build : Word → Instr} {i : Instr} (k : Nat) (m v : Word)
    (hrow : rows32.tail[k]? = some ⟨m, v, build⟩) (hnop : 0xE1A08008 &&& m ≠ v) (hw : w &&& m = v) (hi : build w = i) :
    decodeA32 w = .ok i :=
  hi ▸ decodeA32_of_hits k hrow (fun h => hnop (h ▸ hw)) (decide_eq_true hw)

theorem decodeHalf_of_row {h : Half} {build : Half → Instr} {i : Instr} (k : Nat) (m v : Half)
    (hrow : rows16.tail[k]? = some ⟨m, v, build⟩) (hnop : 0x46C0 &&& m ≠ v) (hh : h &&& m = v) (hi : build h = i) :
    decodeHalf h = .ok i :=
  hi ▸ decodeHalf_of_hits k hrow (fun hnop' => hnop (hnop' ▸ hh)) (decide_eq_true hh)

/-! A32 templates. R65. -/

/-- The move's word is the no-op's for r8 and r8 only; every other one decodes to the move. R71. -/
theorem decodeA32_encode_armMov {rd rm : Word} (h : (Instr.armMov rd rm).inRange = true) :
    decodeA32 (encode (.armMov rd rm)) = .ok (Instr.armMov rd rm).canonical := by
  have hbuild : Instr.armMov (field (encode (.armMov rd rm)) 12 4) (field (encode (.armMov rd rm)) 0 4) =
      .armMov rd rm := by
    simpa [Instr.inRange, fits_iff, field, encode, encDpReg_eq, BitVec.extractLsb'_or] using h
  by_cases hnop : rd = 8 ∧ rm = 8
  · obtain ⟨rfl, rfl⟩ := hnop
    rfl
  · have hword : encode (.armMov rd rm) ≠ 0xE1A08008 := fun hw => hnop (by
      rw [hw] at hbuild
      cases hbuild
      decide)
    rw [Instr.canonical, if_neg hnop]
    refine (decodeA32_of_hits 0 rfl hword (decide_eq_true ?_)).trans (congrArg _ hbuild)
    simp [encode, encDpReg_eq, BitVec.and_or_distrib_right]

/-- The two pieces of the breakpoint's immediate, put together again. R67. -/
theorem split_immediate {im : Word} (h : fits im 16 = true) :
    (im.extractLsb' 4 12).setWidth 32 <<< 4 ||| (im.setWidth 4).setWidth 32 = im := by
  rw [fits_iff (by decide), setWidth_setWidth_eq_and im (by decide)] at h
  rw [extractLsb'_place, setWidth_setWidth_eq_and im (by decide), ← BitVec.and_or_distrib_left]
  exact h

theorem decodeA32_encode_armBkpt {im : Word} (h : (Instr.armBkpt im).inRange = true) :
    decodeA32 (encode (.armBkpt im)) = .ok (.armBkpt im) := by
  refine decodeA32_of_row 5 0xFFF000F0 0xE1200070 rfl (by decide) ?_ ?_
  · simp [encode, encBkpt_eq, BitVec.and_or_distrib_right]
  · simpa [field, encode, encBkpt_eq, BitVec.extractLsb'_or] using split_immediate h

theorem decodeA32_encode_armLdmia {rn list s w : Word} (h : (Instr.armLdmia rn list s w).inRange = true) :
    decodeA32 (encode (.armLdmia rn list s w)) = .ok (.armLdmia rn list s w) := by
  refine decodeA32_of_row 1 0xFF900000 0xE8900000 rfl (by decide) ?_ ?_
  · simp [encode, encLsMult_eq, BitVec.and_or_distrib_right]
  · simpa [Instr.inRange, fits_iff, and_assoc, field, encode, encLsMult_eq, BitVec.extractLsb'_or] using h

theorem decodeA32_encode_armStmia {rn list s w : Word} (h : (Instr.armStmia rn list s w).inRange = true) :
    decodeA32 (encode (.armStmia rn list s w)) = .ok (.armStmia rn list s w) := by
  refine decodeA32_of_row 2 0xFF900000 0xE8800000 rfl (by decide) ?_ ?_
  · simp [encode, encLsMult_eq, BitVec.and_or_distrib_right]
  · simpa [Instr.inRange, fits_iff, and_assoc, field, encode, encLsMult_eq, BitVec.extractLsb'_or] using h

theorem decodeA32_encode_armLdr {rd rn : Word} (h : (Instr.armLdr rd rn).inRange = true) :
    decodeA32 (encode (.armLdr rd rn)) = .ok (.armLdr rd rn) := by
  refine decodeA32_of_row 3 0xFFF00FFF 0xE5900000 rfl (by decide) ?_ ?_
  · simp [encode, encLsImm_eq, BitVec.and_or_distrib_right]
  · simpa [Instr.inRange, fits_iff, and_assoc, field, encode, encLsImm_eq, BitVec.extractLsb'_or] using h

theorem decodeA32_encode_armStr {rd rn : Word} (h : (Instr.armStr rd rn).inRange = true) :
    decodeA32 (encode (.armStr rd rn)) = .ok (.armStr rd rn) := by
  refine decodeA32_of_row 4 0xFFF00FFF 0xE5800000 rfl (by decide) ?_ ?_
  · simp [encode, encLsImm_eq, BitVec.and_or_distrib_right]
  · simpa [Instr.inRange, fits_iff, and_assoc, field, encode, encLsImm_eq, BitVec.extractLsb'_or] using h

theorem decodeA32_encode_armMovIm {rd rotate im : Word} (h : (Instr.armMovIm rd rotate im).inRange = true) :
    decodeA32 (encode (.armMovIm rd rotate im)) = .ok (.armMovIm rd rotate im) := by
  refine decodeA32_of_row 6 0xFFFF0000 0xE3A00000 rfl (by decide) ?_ ?_
  · simp [encode, encDpImm_eq, BitVec.and_or_distrib_right]
  · simpa [Instr.inRange, fits_iff, and_assoc, field, encode, encDpImm_eq, BitVec.extractLsb'_or] using h

theorem decodeA32_encode_armB {im l : Word} (h : (Instr.armB im l).inRange = true) :
    decodeA32 (encode (.armB im l)) = .ok (.armB im l) := by
  refine decodeA32_of_row 7 0xFE000000 0xEA000000 rfl (by decide) ?_ ?_
  · simp [encode, encBranch_eq, BitVec.and_or_distrib_right]
  · simpa [Instr.inRange, fits_iff, and_assoc, field, encode, encBranch_eq, BitVec.extractLsb'_or] using h

theorem decodeA32_encode_armBx {rm : Word} (h : (Instr.armBx rm).inRange = true) :
    decodeA32 (encode (.armBx rm)) = .ok (.armBx rm) := by
  refine decodeA32_of_row 8 0xFFFFFFF0 0xE12FFF10 rfl (by decide) ?_ ?_
  · simp [encode, encBx_eq, BitVec.and_or_distrib_right]
  · simpa [Instr.inRange, fits_iff, and_assoc, field, encode, encBx_eq, BitVec.extractLsb'_or] using h

theorem decodeA32_encode_armMrs {rd r : Word} (h : (Instr.armMrs rd r).inRange = true) :
    decodeA32 (encode (.armMrs rd r)) = .ok (.armMrs rd r) := by
  refine decodeA32_of_row 9 0xFFBF0FFF 0xE10F0000 rfl (by decide) ?_ ?_
  · simp [encode, encMrs_eq, BitVec.and_or_distrib_right]
  · simpa [Instr.inRange, fits_iff, and_assoc, field, encode, encMrs_eq, BitVec.extractLsb'_or] using h

theorem decodeA32_encode_armMsrGp {rm f r : Word} (h : (Instr.armMsrGp rm f r).inRange = true) :
    decodeA32 (encode (.armMsrGp rm f r)) = .ok (.armMsrGp rm f r) := by
  refine decodeA32_of_row 10 0xFFB0FFF0 0xE120F000 rfl (by decide) ?_ ?_
  · simp [encode, encMsrReg_eq, BitVec.and_or_distrib_right]
  · simpa [Instr.inRange, fits_iff, and_assoc, field, encode, encMsrReg_eq, BitVec.extractLsb'_or] using h

theorem decodeA32_encode_armMsrIm {im rotate f r : Word} (h : (Instr.armMsrIm im rotate f r).inRange = true) :
    decodeA32 (encode (.armMsrIm im rotate f r)) = .ok (.armMsrIm im rotate f r) := by
  refine decodeA32_of_row 11 0xFFB0F000 0xE320F000 rfl (by decide) ?_ ?_
  · simp [encode, encMsrImm_eq, BitVec.and_or_distrib_right]
  · simpa [Instr.inRange, fits_iff, and_assoc, field, encode, encMsrImm_eq, BitVec.extractLsb'_or] using h

theorem decodeA32_encode_armMrc {cp op1 rd crn crm op2 : Word} (h : (Instr.armMrc cp op1 rd crn crm op2).inRange = true) :
    decodeA32 (encode (.armMrc cp op1 rd crn crm op2)) = .ok (.armMrc cp op1 rd crn crm op2) := by
  refine decodeA32_of_row 12 0xFF100010 0xEE100010 rfl (by decide) ?_ ?_
  · simp [encode, encCprt_eq, BitVec.and_or_distrib_right]
  · simpa [Instr.inRange, fits_iff, and_assoc, field, encode, encCprt_eq, BitVec.extractLsb'_or] using h

theorem decodeA32_encode_armMcr {cp op1 rd crn crm op2 : Word} (h : (Instr.armMcr cp op1 rd crn crm op2).inRange = true) :
    decodeA32 (encode (.armMcr cp op1 rd crn crm op2)) = .ok (.armMcr cp op1 rd crn crm op2) := by
  refine decodeA32_of_row 13 0xFF100010 0xEE000010 rfl (by decide) ?_ ?_
  · simp [encode, encCprt_eq, BitVec.and_or_distrib_right]
  · simpa [Instr.inRange, fits_iff, and_assoc, field, encode, encCprt_eq, BitVec.extractLsb'_or] using h

theorem decodeA32_encode_armLdrwIp {rd rn : Word} (h : (Instr.armLdrwIp rd rn).inRange = true) :
    decodeA32 (encode (.armLdrwIp rd rn)) = .ok (.armLdrwIp rd rn) := by
  refine decodeA32_of_row 14 0xFFF00FFF 0xE4900004 rfl (by decide) ?_ ?_
  · simp [encode, encLsImm_eq, BitVec.and_or_distrib_right]
  · simpa [Instr.inRange, fits_iff, and_assoc, field, encode, encLsImm_eq, BitVec.extractLsb'_or] using h

theorem decodeA32_encode_armLdrhIp {rd rn : Word} (h : (Instr.armLdrhIp rd rn).inRange = true) :
    decodeA32 (encode (.armLdrhIp rd rn)) = .ok (.armLdrhIp rd rn) := by
  refine decodeA32_of_row 15 0xFFF00FFF 0xE0D000B2 rfl (by decide) ?_ ?_
  · simp [encode, encLsHalf_eq, BitVec.and_or_distrib_right]
  · simpa [Instr.inRange, fits_iff, and_assoc, field, encode, encLsHalf_eq, BitVec.extractLsb'_or] using h

theorem decodeA32_encode_armLdrbIp {rd rn : Word} (h : (Instr.armLdrbIp rd rn).inRange = true) :
    decodeA32 (encode (.armLdrbIp rd rn)) = .ok (.armLdrbIp rd rn) := by
  refine decodeA32_of_row 16 0xFFF00FFF 0xE4D00001 rfl (by decide) ?_ ?_
  · simp [encode, encLsImm_eq, BitVec.and_or_distrib_right]
  · simpa [Instr.inRange, fits_iff, and_assoc, field, encode, encLsImm_eq, BitVec.extractLsb'_or] using h

theorem decodeA32_encode_armStrwIp {rd rn : Word} (h : (Instr.armStrwIp rd rn).inRange = true) :
    decodeA32 (encode (.armStrwIp rd rn)) = .ok (.armStrwIp rd rn) := by
  refine decodeA32_of_row 17 0xFFF00FFF 0xE4800004 rfl (by decide) ?_ ?_
  · simp [encode, encLsImm_eq, BitVec.and_or_distrib_right]
  · simpa [Instr.inRange, fits_iff, and_assoc, field, encode, encLsImm_eq, BitVec.extractLsb'_or] using h

theorem decodeA32_encode_armStrhIp {rd rn : Word} (h : (Instr.armStrhIp rd rn).inRange = true) :
    decodeA32 (encode (.armStrhIp rd rn)) = .ok (.armStrhIp rd rn) := by
  refine decodeA32_of_row 18 0xFFF00FFF 0xE0C000B2 rfl (by decide) ?_ ?_
  · simp [encode, encLsHalf_eq, BitVec.and_or_distrib_right]
  · simpa [Instr.inRange, fits_iff, and_assoc, field, encode, encLsHalf_eq, BitVec.extractLsb'_or] using h

theorem decodeA32_encode_armStrbIp {rd rn : Word} (h : (Instr.armStrbIp rd rn).inRange = true) :
    decodeA32 (encode (.armStrbIp rd rn)) = .ok (.armStrbIp rd rn) := by
  refine decodeA32_of_row 19 0xFFF00FFF 0xE4C00001 rfl (by decide) ?_ ?_
  · simp [encode, encLsImm_eq, BitVec.and_or_distrib_right]
  · simpa [Instr.inRange, fits_iff, and_assoc, field, encode, encLsImm_eq, BitVec.extractLsb'_or] using h

/-! T16x2 templates. R63, R66. -/

theorem decodeT16x2_twice (h : Half) : decodeT16x2 (twice h) = decodeHalf h := by
  have hlow : lowHalf (twice h) = h := BitVec.extractLsb'_append_eq_right
  rw [decodeT16x2, if_pos (Laws.EncodedShape.twice_halves h), hlow]

/-- The Thumb move's halfword is the no-op's for r8 and r8 only; every other one decodes to the move. R71. -/
theorem decodeT16x2_encode_tMov {rd rm h1 h2 : Word} (h : (Instr.tMov rd rm h1 h2).inRange = true) :
    decodeT16x2 (encode (.tMov rd rm h1 h2)) = .ok (Instr.tMov rd rm h1 h2).canonical := by
  set half := encTHiReg (h1.setWidth 1) (h2.setWidth 1) (rm.setWidth 3) (rd.setWidth 3) with hhalf
  have hbuild : Instr.tMov (halfField half 0 3) (halfField half 3 3) (halfField half 7 1) (halfField half 6 1) =
      .tMov rd rm h1 h2 := by
    simpa [Instr.inRange, fits_iff, and_assoc, halfField, hhalf, encTHiReg_eq, BitVec.extractLsb'_or] using h
  refine (decodeT16x2_twice half).trans ?_
  by_cases hnop : rd = 0 ∧ rm = 0 ∧ h1 = 1 ∧ h2 = 1
  · obtain ⟨rfl, rfl, rfl, rfl⟩ := hnop
    rw [hhalf]
    rfl
  · have hword : half ≠ 0x46C0 := fun hw => hnop (by
      rw [hw] at hbuild
      cases hbuild
      decide)
    rw [Instr.canonical, if_neg hnop]
    refine (decodeHalf_of_hits 0 rfl hword (decide_eq_true ?_)).trans (congrArg _ hbuild)
    simp [hhalf, encTHiReg_eq, BitVec.and_or_distrib_right]

theorem decodeT16x2_encode_tMovIm {rd im : Word} (h : (Instr.tMovIm rd im).inRange = true) :
    decodeT16x2 (encode (.tMovIm rd im)) = .ok (.tMovIm rd im) := by
  refine (decodeT16x2_twice _).trans (decodeHalf_of_row 1 0xF800 0x2000 rfl (by decide) ?_ ?_)
  · simp [encTImm8_eq, BitVec.and_or_distrib_right]
  · simpa [Instr.inRange, fits_iff, and_assoc, halfField, encTImm8_eq, BitVec.extractLsb'_or] using h

theorem decodeT16x2_encode_tLdmia {rn list : Word} (h : (Instr.tLdmia rn list).inRange = true) :
    decodeT16x2 (encode (.tLdmia rn list)) = .ok (.tLdmia rn list) := by
  refine (decodeT16x2_twice _).trans (decodeHalf_of_row 2 0xF800 0xC800 rfl (by decide) ?_ ?_)
  · simp [encTLsMult_eq, BitVec.and_or_distrib_right]
  · simpa [Instr.inRange, fits_iff, and_assoc, halfField, encTLsMult_eq, BitVec.extractLsb'_or] using h

theorem decodeT16x2_encode_tStmia {rn list : Word} (h : (Instr.tStmia rn list).inRange = true) :
    decodeT16x2 (encode (.tStmia rn list)) = .ok (.tStmia rn list) := by
  refine (decodeT16x2_twice _).trans (decodeHalf_of_row 3 0xF800 0xC000 rfl (by decide) ?_ ?_)
  · simp [encTLsMult_eq, BitVec.and_or_distrib_right]
  · simpa [Instr.inRange, fits_iff, and_assoc, halfField, encTLsMult_eq, BitVec.extractLsb'_or] using h

theorem decodeT16x2_encode_tLdr {rd rn : Word} (h : (Instr.tLdr rd rn).inRange = true) :
    decodeT16x2 (encode (.tLdr rd rn)) = .ok (.tLdr rd rn) := by
  refine (decodeT16x2_twice _).trans (decodeHalf_of_row 4 0xFFC0 0x6800 rfl (by decide) ?_ ?_)
  · simp [encTLsImm5_eq, BitVec.and_or_distrib_right]
  · simpa [Instr.inRange, fits_iff, and_assoc, halfField, encTLsImm5_eq, BitVec.extractLsb'_or] using h

theorem decodeT16x2_encode_tStr {rd rn : Word} (h : (Instr.tStr rd rn).inRange = true) :
    decodeT16x2 (encode (.tStr rd rn)) = .ok (.tStr rd rn) := by
  refine (decodeT16x2_twice _).trans (decodeHalf_of_row 5 0xFFC0 0x6000 rfl (by decide) ?_ ?_)
  · simp [encTLsImm5_eq, BitVec.and_or_distrib_right]
  · simpa [Instr.inRange, fits_iff, and_assoc, halfField, encTLsImm5_eq, BitVec.extractLsb'_or] using h

theorem decodeT16x2_encode_tLdrPcrel {rd : Word} (h : (Instr.tLdrPcrel rd).inRange = true) :
    decodeT16x2 (encode (.tLdrPcrel rd)) = .ok (.tLdrPcrel rd) := by
  refine (decodeT16x2_twice _).trans (decodeHalf_of_row 6 0xF8FF 0x4800 rfl (by decide) ?_ ?_)
  · simp [encTLdrPc_eq, BitVec.and_or_distrib_right]
  · simpa [Instr.inRange, fits_iff, and_assoc, halfField, encTLdrPc_eq, BitVec.extractLsb'_or] using h

theorem decodeT16x2_encode_tBx {rm : Word} (h : (Instr.tBx rm).inRange = true) :
    decodeT16x2 (encode (.tBx rm)) = .ok (.tBx rm) := by
  refine (decodeT16x2_twice _).trans (decodeHalf_of_row 7 0xFF87 0x4700 rfl (by decide) ?_ ?_)
  · simp [encTBx_eq, BitVec.and_or_distrib_right]
  · simpa [Instr.inRange, fits_iff, and_assoc, halfField, encTBx_eq, BitVec.extractLsb'_or] using h

theorem decodeT16x2_encode_tB {imm : Word} (h : (Instr.tB imm).inRange = true) :
    decodeT16x2 (encode (.tB imm)) = .ok (.tB imm) := by
  refine (decodeT16x2_twice _).trans (decodeHalf_of_row 8 0xF800 0xE000 rfl (by decide) ?_ ?_)
  · simp [encTB_eq, BitVec.and_or_distrib_right]
  · simpa [Instr.inRange, fits_iff, and_assoc, halfField, encTB_eq, BitVec.extractLsb'_or] using h

theorem decodeT16x2_encode_tBkpt {im : Word} (h : (Instr.tBkpt im).inRange = true) :
    decodeT16x2 (encode (.tBkpt im)) = .ok (.tBkpt im) := by
  refine (decodeT16x2_twice _).trans (decodeHalf_of_row 9 0xFF00 0xBE00 rfl (by decide) ?_ ?_)
  · simp [encTBkpt_eq, BitVec.and_or_distrib_right]
  · simpa [Instr.inRange, fits_iff, and_assoc, halfField, encTBkpt_eq, BitVec.extractLsb'_or] using h

/-- Settles O8, template by template: the encoded word has the fixed bits of the template's row and of no other, and the row reads
back the operands, which fit their fields. -/
theorem decodeEncodeAgree : Obligations.DecodeEncodeAgree := by
  intro i h
  cases i with
  | armNop => rfl
  | armMov => exact decodeA32_encode_armMov h
  | armLdmia => exact decodeA32_encode_armLdmia h
  | armStmia => exact decodeA32_encode_armStmia h
  | armLdr => exact decodeA32_encode_armLdr h
  | armStr => exact decodeA32_encode_armStr h
  | armBkpt => exact decodeA32_encode_armBkpt h
  | armMovIm => exact decodeA32_encode_armMovIm h
  | armB => exact decodeA32_encode_armB h
  | armBx => exact decodeA32_encode_armBx h
  | armMrs => exact decodeA32_encode_armMrs h
  | armMsrGp => exact decodeA32_encode_armMsrGp h
  | armMsrIm => exact decodeA32_encode_armMsrIm h
  | armMrc => exact decodeA32_encode_armMrc h
  | armMcr => exact decodeA32_encode_armMcr h
  | armLdrwIp => exact decodeA32_encode_armLdrwIp h
  | armLdrhIp => exact decodeA32_encode_armLdrhIp h
  | armLdrbIp => exact decodeA32_encode_armLdrbIp h
  | armStrwIp => exact decodeA32_encode_armStrwIp h
  | armStrhIp => exact decodeA32_encode_armStrhIp h
  | armStrbIp => exact decodeA32_encode_armStrbIp h
  | tNop => rfl
  | tMov => exact decodeT16x2_encode_tMov h
  | tMovIm => exact decodeT16x2_encode_tMovIm h
  | tLdmia => exact decodeT16x2_encode_tLdmia h
  | tStmia => exact decodeT16x2_encode_tStmia h
  | tLdr => exact decodeT16x2_encode_tLdr h
  | tStr => exact decodeT16x2_encode_tStr h
  | tLdrPcrel => exact decodeT16x2_encode_tLdrPcrel h
  | tBx => exact decodeT16x2_encode_tBx h
  | tB => exact decodeT16x2_encode_tB h
  | tBkpt => exact decodeT16x2_encode_tBkpt h

end Sys2Proof
end

section
/-! PROOFS of the encodings, fourth part: in range, the field tables give the words of the formulas (R80 to R120). -/

namespace Sys2Proof

theorem encode_armMov {rd rm : Word} (h : (Instr.armMov rd rm).inRange = true) :
    encode (.armMov rd rm) = 0xE1A00000#32 ||| rm ||| rd <<< 12 := by
  simp (disch := decide) only [Instr.inRange, Bool.and_eq_true, fits_iff] at h
  simp [encode, encDpReg_eq, h]

theorem encode_armLdmia {rn list s w : Word} (h : (Instr.armLdmia rn list s w).inRange = true) :
    encode (.armLdmia rn list s w) = 0xE8900000#32 ||| s <<< 22 ||| w <<< 21 ||| rn <<< 16 ||| list := by
  simp (disch := decide) only [Instr.inRange, Bool.and_eq_true, fits_iff] at h
  simp [encode, encLsMult_eq, h]

theorem encode_armStmia {rn list s w : Word} (h : (Instr.armStmia rn list s w).inRange = true) :
    encode (.armStmia rn list s w) = 0xE8800000#32 ||| s <<< 22 ||| w <<< 21 ||| rn <<< 16 ||| list := by
  simp (disch := decide) only [Instr.inRange, Bool.and_eq_true, fits_iff] at h
  simp [encode, encLsMult_eq, h]

theorem encode_armLdr {rd rn : Word} (h : (Instr.armLdr rd rn).inRange = true) :
    encode (.armLdr rd rn) = 0xE5900000#32 ||| rd <<< 12 ||| rn <<< 16 := by
  simp (disch := decide) only [Instr.inRange, Bool.and_eq_true, fits_iff] at h
  simp [encode, encLsImm_eq, h]

theorem encode_armStr {rd rn : Word} (h : (Instr.armStr rd rn).inRange = true) :
    encode (.armStr rd rn) = 0xE5800000#32 ||| rd <<< 12 ||| rn <<< 16 := by
  simp (disch := decide) only [Instr.inRange, Bool.and_eq_true, fits_iff] at h
  simp [encode, encLsImm_eq, h]

/-- The breakpoint's immediate is masked, so that no range is needed. R67, R85. -/
theorem encode_armBkpt (im : Word) :
    encode (.armBkpt im) = 0xE1200070#32 ||| (((im &&& 0xFFF0#32) <<< 4) ||| (im &&& 0xF#32)) := by
  have hhigh : (im.extractLsb' 4 12).setWidth 32 <<< 8 = (im &&& 0xFFF0#32) <<< 4 := by
    have hplace : (im.extractLsb' 4 12).setWidth 32 <<< 4 = im &&& 0xFFF0#32 := extractLsb'_place im
    rw [← hplace, ← BitVec.shiftLeft_add]
  have hlow : (im.setWidth 4).setWidth 32 = im &&& 0xF#32 := setWidth_setWidth_eq_and im (by decide)
  rw [encode, encBkpt_eq, hhigh, hlow, BitVec.or_assoc]

theorem encode_armMovIm {rd rotate im : Word} (h : (Instr.armMovIm rd rotate im).inRange = true) :
    encode (.armMovIm rd rotate im) = 0xE3A00000#32 ||| rd <<< 12 ||| rotate <<< 8 ||| im := by
  simp (disch := decide) only [Instr.inRange, Bool.and_eq_true, fits_iff] at h
  simp [encode, encDpImm_eq, h]

theorem encode_armB {im l : Word} (h : (Instr.armB im l).inRange = true) :
    encode (.armB im l) = 0xEA000000#32 ||| im ||| l <<< 24 := by
  simp (disch := decide) only [Instr.inRange, Bool.and_eq_true, fits_iff] at h
  simp [encode, encBranch_eq, h]

theorem encode_armBx {rm : Word} (h : (Instr.armBx rm).inRange = true) :
    encode (.armBx rm) = 0xE12FFF10#32 ||| rm := by
  simp (disch := decide) only [Instr.inRange, fits_iff] at h
  simp [encode, encBx_eq, h]

theorem encode_armMrs {rd r : Word} (h : (Instr.armMrs rd r).inRange = true) :
    encode (.armMrs rd r) = 0xE10F0000#32 ||| r <<< 22 ||| rd <<< 12 := by
  simp (disch := decide) only [Instr.inRange, Bool.and_eq_true, fits_iff] at h
  simp [encode, encMrs_eq, h]

theorem encode_armMsrGp {rm f r : Word} (h : (Instr.armMsrGp rm f r).inRange = true) :
    encode (.armMsrGp rm f r) = 0xE120F000#32 ||| rm ||| f <<< 16 ||| r <<< 22 := by
  simp (disch := decide) only [Instr.inRange, Bool.and_eq_true, fits_iff] at h
  simp [encode, encMsrReg_eq, h]

theorem encode_armMsrIm {im rotate f r : Word} (h : (Instr.armMsrIm im rotate f r).inRange = true) :
    encode (.armMsrIm im rotate f r) = 0xE320F000#32 ||| im ||| rotate <<< 8 ||| f <<< 16 ||| r <<< 22 := by
  simp (disch := decide) only [Instr.inRange, Bool.and_eq_true, fits_iff] at h
  simp [encode, encMsrImm_eq, h]

theorem encode_armMrc {cp op1 rd crn crm op2 : Word} (h : (Instr.armMrc cp op1 rd crn crm op2).inRange = true) :
    encode (.armMrc cp op1 rd crn crm op2) = 0xEE100010#32 ||| crm ||| op2 <<< 5 ||| cp <<< 8 ||| rd <<< 12 ||| crn <<< 16 ||| op1 <<< 21 := by
  simp (disch := decide) only [Instr.inRange, Bool.and_eq_true, fits_iff] at h
  simp [encode, encCprt_eq, h]

theorem encode_armMcr {cp op1 rd crn crm op2 : Word} (h : (Instr.armMcr cp op1 rd crn crm op2).inRange = true) :
    encode (.armMcr cp op1 rd crn crm op2) = 0xEE000010#32 ||| crm ||| op2 <<< 5 ||| cp <<< 8 ||| rd <<< 12 ||| crn <<< 16 ||| op1 <<< 21 := by
  simp (disch := decide) only [Instr.inRange, Bool.and_eq_true, fits_iff] at h
  simp [encode, encCprt_eq, h]

theorem encode_armLdrwIp {rd rn : Word} (h : (Instr.armLdrwIp rd rn).inRange = true) :
    encode (.armLdrwIp rd rn) = 0xE4900004#32 ||| rd <<< 12 ||| rn <<< 16 := by
  simp (disch := decide) only [Instr.inRange, Bool.and_eq_true, fits_iff] at h
  simp [encode, encLsImm_eq, h]

theorem encode_armLdrhIp {rd rn : Word} (h : (Instr.armLdrhIp rd rn).inRange = true) :
    encode (.armLdrhIp rd rn) = 0xE0D000B2#32 ||| rd <<< 12 ||| rn <<< 16 := by
  simp (disch := decide) only [Instr.inRange, Bool.and_eq_true, fits_iff] at h
  simp [encode, encLsHalf_eq, h]

theorem encode_armLdrbIp {rd rn : Word} (h : (Instr.armLdrbIp rd rn).inRange = true) :
    encode (.armLdrbIp rd rn) = 0xE4D00001#32 ||| rd <<< 12 ||| rn <<< 16 := by
  simp (disch := decide) only [Instr.inRange, Bool.and_eq_true, fits_iff] at h
  simp [encode, encLsImm_eq, h]

theorem encode_armStrwIp {rd rn : Word} (h : (Instr.armStrwIp rd rn).inRange = true) :
    encode (.armStrwIp rd rn) = 0xE4800004#32 ||| rd <<< 12 ||| rn <<< 16 := by
  simp (disch := decide) only [Instr.inRange, Bool.and_eq_true, fits_iff] at h
  simp [encode, encLsImm_eq, h]

theorem encode_armStrhIp {rd rn : Word} (h : (Instr.armStrhIp rd rn).inRange = true) :
    encode (.armStrhIp rd rn) = 0xE0C000B2#32 ||| rd <<< 12 ||| rn <<< 16 := by
  simp (disch := decide) only [Instr.inRange, Bool.and_eq_true, fits_iff] at h
  simp [encode, encLsHalf_eq, h]

theorem encode_armStrbIp {rd rn : Word} (h : (Instr.armStrbIp rd rn).inRange = true) :
    encode (.armStrbIp rd rn) = 0xE4C00001#32 ||| rd <<< 12 ||| rn <<< 16 := by
  simp (disch := decide) only [Instr.inRange, Bool.and_eq_true, fits_iff] at h
  simp [encode, encLsImm_eq, h]

/-! T16x2 templates: the halfword as a 32-bit value, duplicated. R63. -/

theorem twice_eq_dup (h : Half) : twice h = Machine.dup (h.setWidth 32) := by
  rw [← BitVec.setWidth_eq (twice h), twice, setWidth_append_eq_or, BitVec.or_comm]
  rfl

theorem encode_tMov {rd rm h1 h2 : Word} (h : (Instr.tMov rd rm h1 h2).inRange = true) :
    encode (.tMov rd rm h1 h2) = Machine.dup (0x4600#32 ||| rd ||| rm <<< 3 ||| h2 <<< 6 ||| h1 <<< 7) := by
  simp (disch := decide) only [Instr.inRange, Bool.and_eq_true, fits_iff] at h
  simp [encode, twice_eq_dup, encTHiReg_word, h]

theorem encode_tMovIm {rd im : Word} (h : (Instr.tMovIm rd im).inRange = true) :
    encode (.tMovIm rd im) = Machine.dup (0x2000#32 ||| rd <<< 8 ||| im) := by
  simp (disch := decide) only [Instr.inRange, Bool.and_eq_true, fits_iff] at h
  simp [encode, twice_eq_dup, encTImm8_word, h]

theorem encode_tLdmia {rn list : Word} (h : (Instr.tLdmia rn list).inRange = true) :
    encode (.tLdmia rn list) = Machine.dup (0xC800#32 ||| rn <<< 8 ||| list) := by
  simp (disch := decide) only [Instr.inRange, Bool.and_eq_true, fits_iff] at h
  simp [encode, twice_eq_dup, encTLsMult_word, h]

theorem encode_tStmia {rn list : Word} (h : (Instr.tStmia rn list).inRange = true) :
    encode (.tStmia rn list) = Machine.dup (0xC000#32 ||| rn <<< 8 ||| list) := by
  simp (disch := decide) only [Instr.inRange, Bool.and_eq_true, fits_iff] at h
  simp [encode, twice_eq_dup, encTLsMult_word, h]

theorem encode_tLdr {rd rn : Word} (h : (Instr.tLdr rd rn).inRange = true) :
    encode (.tLdr rd rn) = Machine.dup (0x6800#32 ||| rn <<< 3 ||| rd) := by
  simp (disch := decide) only [Instr.inRange, Bool.and_eq_true, fits_iff] at h
  simp [encode, twice_eq_dup, encTLsImm5_word, h]

theorem encode_tStr {rd rn : Word} (h : (Instr.tStr rd rn).inRange = true) :
    encode (.tStr rd rn) = Machine.dup (0x6000#32 ||| rn <<< 3 ||| rd) := by
  simp (disch := decide) only [Instr.inRange, Bool.and_eq_true, fits_iff] at h
  simp [encode, twice_eq_dup, encTLsImm5_word, h]

theorem encode_tLdrPcrel {rd : Word} (h : (Instr.tLdrPcrel rd).inRange = true) :
    encode (.tLdrPcrel rd) = Machine.dup (0x4800#32 ||| rd <<< 8) := by
  simp (disch := decide) only [Instr.inRange, fits_iff] at h
  simp [encode, twice_eq_dup, encTLdrPc_word, h]

theorem encode_tBx {rm : Word} (h : (Instr.tBx rm).inRange = true) :
    encode (.tBx rm) = Machine.dup (0x4700#32 ||| rm <<< 3) := by
  simp (disch := decide) only [Instr.inRange, fits_iff] at h
  simp [encode, twice_eq_dup, encTBx_word, h]

theorem encode_tB {imm : Word} (h : (Instr.tB imm).inRange = true) :
    encode (.tB imm) = Machine.dup (0xE000#32 ||| imm) := by
  simp (disch := decide) only [Instr.inRange, fits_iff] at h
  simp [encode, twice_eq_dup, encTB_word, h]

theorem encode_tBkpt {im : Word} (h : (Instr.tBkpt im).inRange = true) :
    encode (.tBkpt im) = Machine.dup (0xBE00#32 ||| im) := by
  simp (disch := decide) only [Instr.inRange, fits_iff] at h
  simp [encode, twice_eq_dup, encTBkpt_word, h]

/-- Settles O7, template by template: the operands being in range, the table's word is the formula's. -/
theorem emittedWordFollowsFieldTable : Obligations.EmittedWordFollowsFieldTable := by
  intro i s h
  cases i with
  | armNop => rfl
  | armMov => rw [encode_armMov h]; rfl
  | armLdmia => rw [encode_armLdmia h]; rfl
  | armStmia => rw [encode_armStmia h]; rfl
  | armLdr => rw [encode_armLdr h]; rfl
  | armStr => rw [encode_armStr h]; rfl
  | armBkpt => rw [encode_armBkpt]; rfl
  | armMovIm => rw [encode_armMovIm h]; rfl
  | armB => rw [encode_armB h]; rfl
  | armBx => rw [encode_armBx h]; rfl
  | armMrs => rw [encode_armMrs h]; rfl
  | armMsrGp => rw [encode_armMsrGp h]; rfl
  | armMsrIm => rw [encode_armMsrIm h]; rfl
  | armMrc => rw [encode_armMrc h]; rfl
  | armMcr => rw [encode_armMcr h]; rfl
  | armLdrwIp => rw [encode_armLdrwIp h]; rfl
  | armLdrhIp => rw [encode_armLdrhIp h]; rfl
  | armLdrbIp => rw [encode_armLdrbIp h]; rfl
  | armStrwIp => rw [encode_armStrwIp h]; rfl
  | armStrhIp => rw [encode_armStrhIp h]; rfl
  | armStrbIp => rw [encode_armStrbIp h]; rfl
  | tNop => rfl
  | tMov => rw [encode_tMov h]; rfl
  | tMovIm => rw [encode_tMovIm h]; rfl
  | tLdmia => rw [encode_tLdmia h]; rfl
  | tStmia => rw [encode_tStmia h]; rfl
  | tLdr => rw [encode_tLdr h]; rfl
  | tStr => rw [encode_tStr h]; rfl
  | tLdrPcrel => rw [encode_tLdrPcrel h]; rfl
  | tBx => rw [encode_tBx h]; rfl
  | tB => rw [encode_tB h]; rfl
  | tBkpt => rw [encode_tBkpt h]; rfl

/-- The shape of an encoded word, for every template. R63, R64. -/
theorem encodedShape (i : Instr) : Laws.EncodedShape.Statement i := by
  cases i with
  | armNop => exact Laws.EncodedShape.armNop
  | armMov => exact Laws.EncodedShape.armMov _ _
  | armLdmia => exact Laws.EncodedShape.armLdmia _ _ _ _
  | armStmia => exact Laws.EncodedShape.armStmia _ _ _ _
  | armLdr => exact Laws.EncodedShape.armLdr _ _
  | armStr => exact Laws.EncodedShape.armStr _ _
  | armBkpt => exact Laws.EncodedShape.armBkpt _
  | armMovIm => exact Laws.EncodedShape.armMovIm _ _ _
  | armB => exact Laws.EncodedShape.armB _ _
  | armBx => exact Laws.EncodedShape.armBx _
  | armMrs => exact Laws.EncodedShape.armMrs _ _
  | armMsrGp => exact Laws.EncodedShape.armMsrGp _ _ _
  | armMsrIm => exact Laws.EncodedShape.armMsrIm _ _ _ _
  | armMrc => exact Laws.EncodedShape.armMrc _ _ _ _ _ _
  | armMcr => exact Laws.EncodedShape.armMcr _ _ _ _ _ _
  | armLdrwIp => exact Laws.EncodedShape.armLdrwIp _ _
  | armLdrhIp => exact Laws.EncodedShape.armLdrhIp _ _
  | armLdrbIp => exact Laws.EncodedShape.armLdrbIp _ _
  | armStrwIp => exact Laws.EncodedShape.armStrwIp _ _
  | armStrhIp => exact Laws.EncodedShape.armStrhIp _ _
  | armStrbIp => exact Laws.EncodedShape.armStrbIp _ _
  | tNop => exact Laws.EncodedShape.tNop
  | tMov => exact Laws.EncodedShape.tMov _ _ _ _
  | tMovIm => exact Laws.EncodedShape.tMovIm _ _
  | tLdmia => exact Laws.EncodedShape.tLdmia _ _
  | tStmia => exact Laws.EncodedShape.tStmia _ _
  | tLdr => exact Laws.EncodedShape.tLdr _ _
  | tStr => exact Laws.EncodedShape.tStr _ _
  | tLdrPcrel => exact Laws.EncodedShape.tLdrPcrel _
  | tBx => exact Laws.EncodedShape.tBx _
  | tB => exact Laws.EncodedShape.tB _
  | tBkpt => exact Laws.EncodedShape.tBkpt _

/-- Settles O10: the emitted word is the table's, whose first four bits are the condition. -/
theorem armWordsAreUnconditional : Obligations.ArmWordsAreUnconditional := by
  intro i s hformat hrange
  refine ⟨encode i, emittedWordFollowsFieldTable i s hrange, ?_⟩
  have hshape := encodedShape i
  rwa [Laws.EncodedShape.Statement, hformat] at hshape

theorem halves_eq_of_t16x2 {i : Instr} (hformat : i.format = .t16x2) : highHalf (encode i) = lowHalf (encode i) := by
  have hshape := encodedShape i
  rwa [Laws.EncodedShape.Statement, hformat] at hshape

/-- Settles O11: the emitted word is the table's, which is a doubled halfword. -/
theorem thumbHalvesEqual : Obligations.ThumbHalvesEqual := by
  intro i s hformat hrange
  exact ⟨encode i, emittedWordFollowsFieldTable i s hrange, halves_eq_of_t16x2 hformat⟩

/-- A word of two equal halves has two equal bytes pairs, in either order. R43, R44. -/
theorem wordBytes_repeat (e : Endian) {w : Word} (h : highHalf w = lowHalf w) :
    (wordBytes e w).take 2 = (wordBytes e w).drop 2 := by
  have hbyte (k : Nat) (hk : k + 8 ≤ 16) : w.extractLsb' (16 + k) 8 = w.extractLsb' k 8 := by
    ext i hi
    have hbit := congrArg (·.getLsbD (k + i)) h
    simpa [highHalf, lowHalf, show k + i < 16 by omega, Nat.add_assoc] using hbit
  have h0 : w.extractLsb' 16 8 = w.extractLsb' 0 8 := hbyte 0 (by decide)
  have h8 : w.extractLsb' 24 8 = w.extractLsb' 8 8 := hbyte 8 (by decide)
  cases e <;> simp [wordBytes, h0, h8]

/-- Settles O12. -/
theorem thumbByteImagesRepeat : Obligations.ThumbByteImagesRepeat := by
  intro e i hformat _
  exact wordBytes_repeat e (halves_eq_of_t16x2 hformat)

/-- Settles O13 by a word that is a move of an immediate and, twice, a Thumb branch. -/
theorem wordDoesNotTellFormat : Obligations.WordDoesNotTellFormat :=
  ⟨.armMovIm 14 3 0xA0, .tB 0x3A0, by decide⟩

end Sys2Proof
end

section
/-! PROOFS of the encodings, fifth part: a word that decodes is the word of the call it decodes to. The fixed bits of a row and its
operands' fields cover the word. -/

namespace Sys2Proof

/-- A row reads words as it should: the call is of the format, its operands are in range, and its word is the word read. -/
def Row32.Sound (r : Row32) : Prop :=
  ∀ w, w &&& r.mask = r.value → (r.build w).format = .a32 ∧ (r.build w).inRange = true ∧ encode (r.build w) = w

def Row16.Sound (r : Row16) : Prop :=
  ∀ h, h &&& r.mask = r.value → (r.build h).format = .t16x2 ∧ (r.build h).inRange = true ∧ encode (r.build h) = twice h

/-- A word is its fixed bits and the bits beside them. -/
theorem fixed_or_rest {n : Nat} {w m v : BitVec n} (h : w &&& m = v) : v ||| w &&& ~~~m = w := by
  rw [← h, ← BitVec.and_or_distrib_left, BitVec.or_not_self, BitVec.and_allOnes]

theorem fits_field (w : Word) (lo len : Nat) : fits (field w lo len) len = true := fits_setWidth _

theorem fits_halfField (h : Half) (lo len : Nat) : fits (halfField h lo len) len = true := fits_setWidth _

theorem setWidth_field (w : Word) {lo len : Nat} (hlen : len ≤ 32) : (field w lo len).setWidth len = w.extractLsb' lo len := by
  rw [field, BitVec.setWidth_setWidth_of_le _ hlen, BitVec.setWidth_eq]

theorem setWidth_halfField (h : Half) {lo len : Nat} (hlen : len ≤ 32) :
    (halfField h lo len).setWidth len = h.extractLsb' lo len := by
  rw [halfField, BitVec.setWidth_setWidth_of_le _ hlen, BitVec.setWidth_eq]

/-! The A32 rows. R65. -/

theorem row_armMov_sound :
    Row32.Sound ⟨0xFFFF0FF0, 0xE1A00000, fun w => .armMov (field w 12 4) (field w 0 4)⟩ := by
  refine fun w h => ⟨rfl, by simp [Instr.inRange, fits_field], ?_⟩
  simp (disch := decide) only [encode, setWidth_field]
  simpa [encDpReg_eq, extractLsb'_lowest_place, BitVec.or_assoc, ← BitVec.and_or_distrib_left] using fixed_or_rest h

theorem row_armLdmia_sound :
    Row32.Sound ⟨0xFF900000, 0xE8900000, fun w => .armLdmia (field w 16 4) (field w 0 16) (field w 22 1) (field w 21 1)⟩ := by
  refine fun w h => ⟨rfl, by simp [Instr.inRange, fits_field], ?_⟩
  simp (disch := decide) only [encode, setWidth_field]
  simpa [encLsMult_eq, extractLsb'_lowest_place, BitVec.or_assoc, ← BitVec.and_or_distrib_left] using fixed_or_rest h

theorem row_armStmia_sound :
    Row32.Sound ⟨0xFF900000, 0xE8800000, fun w => .armStmia (field w 16 4) (field w 0 16) (field w 22 1) (field w 21 1)⟩ := by
  refine fun w h => ⟨rfl, by simp [Instr.inRange, fits_field], ?_⟩
  simp (disch := decide) only [encode, setWidth_field]
  simpa [encLsMult_eq, extractLsb'_lowest_place, BitVec.or_assoc, ← BitVec.and_or_distrib_left] using fixed_or_rest h

theorem row_armLdr_sound :
    Row32.Sound ⟨0xFFF00FFF, 0xE5900000, fun w => .armLdr (field w 12 4) (field w 16 4)⟩ := by
  refine fun w h => ⟨rfl, by simp [Instr.inRange, fits_field], ?_⟩
  simp (disch := decide) only [encode, setWidth_field]
  simpa [encLsImm_eq, extractLsb'_lowest_place, BitVec.or_assoc, ← BitVec.and_or_distrib_left] using fixed_or_rest h

theorem row_armStr_sound :
    Row32.Sound ⟨0xFFF00FFF, 0xE5800000, fun w => .armStr (field w 12 4) (field w 16 4)⟩ := by
  refine fun w h => ⟨rfl, by simp [Instr.inRange, fits_field], ?_⟩
  simp (disch := decide) only [encode, setWidth_field]
  simpa [encLsImm_eq, extractLsb'_lowest_place, BitVec.or_assoc, ← BitVec.and_or_distrib_left] using fixed_or_rest h

theorem row_armMovIm_sound :
    Row32.Sound ⟨0xFFFF0000, 0xE3A00000, fun w => .armMovIm (field w 12 4) (field w 8 4) (field w 0 8)⟩ := by
  refine fun w h => ⟨rfl, by simp [Instr.inRange, fits_field], ?_⟩
  simp (disch := decide) only [encode, setWidth_field]
  simpa [encDpImm_eq, extractLsb'_lowest_place, BitVec.or_assoc, ← BitVec.and_or_distrib_left] using fixed_or_rest h

theorem row_armB_sound :
    Row32.Sound ⟨0xFE000000, 0xEA000000, fun w => .armB (field w 0 24) (field w 24 1)⟩ := by
  refine fun w h => ⟨rfl, by simp [Instr.inRange, fits_field], ?_⟩
  simp (disch := decide) only [encode, setWidth_field]
  simpa [encBranch_eq, extractLsb'_lowest_place, BitVec.or_assoc, ← BitVec.and_or_distrib_left] using fixed_or_rest h

theorem row_armBx_sound :
    Row32.Sound ⟨0xFFFFFFF0, 0xE12FFF10, fun w => .armBx (field w 0 4)⟩ := by
  refine fun w h => ⟨rfl, by simp [Instr.inRange, fits_field], ?_⟩
  simp (disch := decide) only [encode, setWidth_field]
  simpa [encBx_eq, extractLsb'_lowest_place, BitVec.or_assoc, ← BitVec.and_or_distrib_left] using fixed_or_rest h

theorem row_armMrs_sound :
    Row32.Sound ⟨0xFFBF0FFF, 0xE10F0000, fun w => .armMrs (field w 12 4) (field w 22 1)⟩ := by
  refine fun w h => ⟨rfl, by simp [Instr.inRange, fits_field], ?_⟩
  simp (disch := decide) only [encode, setWidth_field]
  simpa [encMrs_eq, extractLsb'_lowest_place, BitVec.or_assoc, ← BitVec.and_or_distrib_left] using fixed_or_rest h

theorem row_armMsrGp_sound :
    Row32.Sound ⟨0xFFB0FFF0, 0xE120F000, fun w => .armMsrGp (field w 0 4) (field w 16 4) (field w 22 1)⟩ := by
  refine fun w h => ⟨rfl, by simp [Instr.inRange, fits_field], ?_⟩
  simp (disch := decide) only [encode, setWidth_field]
  simpa [encMsrReg_eq, extractLsb'_lowest_place, BitVec.or_assoc, ← BitVec.and_or_distrib_left] using fixed_or_rest h

theorem row_armMsrIm_sound :
    Row32.Sound ⟨0xFFB0F000, 0xE320F000, fun w => .armMsrIm (field w 0 8) (field w 8 4) (field w 16 4) (field w 22 1)⟩ := by
  refine fun w h => ⟨rfl, by simp [Instr.inRange, fits_field], ?_⟩
  simp (disch := decide) only [encode, setWidth_field]
  simpa [encMsrImm_eq, extractLsb'_lowest_place, BitVec.or_assoc, ← BitVec.and_or_distrib_left] using fixed_or_rest h

theorem row_armMrc_sound :
    Row32.Sound ⟨0xFF100010, 0xEE100010, fun w => .armMrc (field w 8 4) (field w 21 3) (field w 12 4) (field w 16 4) (field w 0 4) (field w 5 3)⟩ := by
  refine fun w h => ⟨rfl, by simp [Instr.inRange, fits_field], ?_⟩
  simp (disch := decide) only [encode, setWidth_field]
  simpa [encCprt_eq, extractLsb'_lowest_place, BitVec.or_assoc, ← BitVec.and_or_distrib_left] using fixed_or_rest h

theorem row_armMcr_sound :
    Row32.Sound ⟨0xFF100010, 0xEE000010, fun w => .armMcr (field w 8 4) (field w 21 3) (field w 12 4) (field w 16 4) (field w 0 4) (field w 5 3)⟩ := by
  refine fun w h => ⟨rfl, by simp [Instr.inRange, fits_field], ?_⟩
  simp (disch := decide) only [encode, setWidth_field]
  simpa [encCprt_eq, extractLsb'_lowest_place, BitVec.or_assoc, ← BitVec.and_or_distrib_left] using fixed_or_rest h

theorem row_armLdrwIp_sound :
    Row32.Sound ⟨0xFFF00FFF, 0xE4900004, fun w => .armLdrwIp (field w 12 4) (field w 16 4)⟩ := by
  refine fun w h => ⟨rfl, by simp [Instr.inRange, fits_field], ?_⟩
  simp (disch := decide) only [encode, setWidth_field]
  simpa [encLsImm_eq, extractLsb'_lowest_place, BitVec.or_assoc, ← BitVec.and_or_distrib_left] using fixed_or_rest h

theorem row_armLdrhIp_sound :
    Row32.Sound ⟨0xFFF00FFF, 0xE0D000B2, fun w => .armLdrhIp (field w 12 4) (field w 16 4)⟩ := by
  refine fun w h => ⟨rfl, by simp [Instr.inRange, fits_field], ?_⟩
  simp (disch := decide) only [encode, setWidth_field]
  simpa [encLsHalf_eq, extractLsb'_lowest_place, BitVec.or_assoc, ← BitVec.and_or_distrib_left] using fixed_or_rest h

theorem row_armLdrbIp_sound :
    Row32.Sound ⟨0xFFF00FFF, 0xE4D00001, fun w => .armLdrbIp (field w 12 4) (field w 16 4)⟩ := by
  refine fun w h => ⟨rfl, by simp [Instr.inRange, fits_field], ?_⟩
  simp (disch := decide) only [encode, setWidth_field]
  simpa [encLsImm_eq, extractLsb'_lowest_place, BitVec.or_assoc, ← BitVec.and_or_distrib_left] using fixed_or_rest h

theorem row_armStrwIp_sound :
    Row32.Sound ⟨0xFFF00FFF, 0xE4800004, fun w => .armStrwIp (field w 12 4) (field w 16 4)⟩ := by
  refine fun w h => ⟨rfl, by simp [Instr.inRange, fits_field], ?_⟩
  simp (disch := decide) only [encode, setWidth_field]
  simpa [encLsImm_eq, extractLsb'_lowest_place, BitVec.or_assoc, ← BitVec.and_or_distrib_left] using fixed_or_rest h

theorem row_armStrhIp_sound :
    Row32.Sound ⟨0xFFF00FFF, 0xE0C000B2, fun w => .armStrhIp (field w 12 4) (field w 16 4)⟩ := by
  refine fun w h => ⟨rfl, by simp [Instr.inRange, fits_field], ?_⟩
  simp (disch := decide) only [encode, setWidth_field]
  simpa [encLsHalf_eq, extractLsb'_lowest_place, BitVec.or_assoc, ← BitVec.and_or_distrib_left] using fixed_or_rest h

theorem row_armStrbIp_sound :
    Row32.Sound ⟨0xFFF00FFF, 0xE4C00001, fun w => .armStrbIp (field w 12 4) (field w 16 4)⟩ := by
  refine fun w h => ⟨rfl, by simp [Instr.inRange, fits_field], ?_⟩
  simp (disch := decide) only [encode, setWidth_field]
  simpa [encLsImm_eq, extractLsb'_lowest_place, BitVec.or_assoc, ← BitVec.and_or_distrib_left] using fixed_or_rest h

theorem row_armNop_sound : Row32.Sound ⟨0xFFFFFFFF, 0xE1A08008, fun _ => .armNop⟩ := by
  intro w h
  have hw : w = 0xE1A08008 := (BitVec.and_allOnes (x := w)).symm.trans h
  exact ⟨rfl, rfl, hw.symm⟩

theorem row_armBkpt_sound :
    Row32.Sound ⟨0xFFF000F0, 0xE1200070, fun w => .armBkpt ((field w 8 12 <<< 4) ||| field w 0 4)⟩ := by
  intro w h
  have hfits : fits ((field w 8 12 <<< 4) ||| field w 0 4) 16 = true := by
    rw [field, field, ← setWidth_append_eq_or]
    exact fits_setWidth _
  refine ⟨rfl, hfits, ?_⟩
  have hhigh : ((field w 8 12 <<< 4) ||| field w 0 4).extractLsb' 4 12 = w.extractLsb' 8 12 := by
    simp [field, BitVec.extractLsb'_or]
  have hlow : ((field w 8 12 <<< 4) ||| field w 0 4).setWidth 4 = w.extractLsb' 0 4 := by
    rw [BitVec.setWidth_eq_extractLsb' (by decide)]
    simp [field, BitVec.extractLsb'_or]
  simp only [encode, hhigh, hlow]
  simpa [encBkpt_eq, extractLsb'_lowest_place, BitVec.or_assoc, ← BitVec.and_or_distrib_left] using fixed_or_rest h

/-! The T16x2 rows. R66. -/

theorem row_tMov_sound :
    Row16.Sound ⟨0xFF00, 0x4600, fun h => .tMov (halfField h 0 3) (halfField h 3 3) (halfField h 7 1) (halfField h 6 1)⟩ := by
  refine fun h hfixed => ⟨rfl, by simp [Instr.inRange, fits_halfField], congrArg twice ?_⟩
  simp (disch := decide) only [setWidth_halfField]
  simpa [encTHiReg_eq, extractLsb'_lowest_place, BitVec.or_assoc, ← BitVec.and_or_distrib_left] using fixed_or_rest hfixed

theorem row_tMovIm_sound :
    Row16.Sound ⟨0xF800, 0x2000, fun h => .tMovIm (halfField h 8 3) (halfField h 0 8)⟩ := by
  refine fun h hfixed => ⟨rfl, by simp [Instr.inRange, fits_halfField], congrArg twice ?_⟩
  simp (disch := decide) only [setWidth_halfField]
  simpa [encTImm8_eq, extractLsb'_lowest_place, BitVec.or_assoc, ← BitVec.and_or_distrib_left] using fixed_or_rest hfixed

theorem row_tLdmia_sound :
    Row16.Sound ⟨0xF800, 0xC800, fun h => .tLdmia (halfField h 8 3) (halfField h 0 8)⟩ := by
  refine fun h hfixed => ⟨rfl, by simp [Instr.inRange, fits_halfField], congrArg twice ?_⟩
  simp (disch := decide) only [setWidth_halfField]
  simpa [encTLsMult_eq, extractLsb'_lowest_place, BitVec.or_assoc, ← BitVec.and_or_distrib_left] using fixed_or_rest hfixed

theorem row_tStmia_sound :
    Row16.Sound ⟨0xF800, 0xC000, fun h => .tStmia (halfField h 8 3) (halfField h 0 8)⟩ := by
  refine fun h hfixed => ⟨rfl, by simp [Instr.inRange, fits_halfField], congrArg twice ?_⟩
  simp (disch := decide) only [setWidth_halfField]
  simpa [encTLsMult_eq, extractLsb'_lowest_place, BitVec.or_assoc, ← BitVec.and_or_distrib_left] using fixed_or_rest hfixed

theorem row_tLdr_sound :
    Row16.Sound ⟨0xFFC0, 0x6800, fun h => .tLdr (halfField h 0 3) (halfField h 3 3)⟩ := by
  refine fun h hfixed => ⟨rfl, by simp [Instr.inRange, fits_halfField], congrArg twice ?_⟩
  simp (disch := decide) only [setWidth_halfField]
  simpa [encTLsImm5_eq, extractLsb'_lowest_place, BitVec.or_assoc, ← BitVec.and_or_distrib_left] using fixed_or_rest hfixed

theorem row_tStr_sound :
    Row16.Sound ⟨0xFFC0, 0x6000, fun h => .tStr (halfField h 0 3) (halfField h 3 3)⟩ := by
  refine fun h hfixed => ⟨rfl, by simp [Instr.inRange, fits_halfField], congrArg twice ?_⟩
  simp (disch := decide) only [setWidth_halfField]
  simpa [encTLsImm5_eq, extractLsb'_lowest_place, BitVec.or_assoc, ← BitVec.and_or_distrib_left] using fixed_or_rest hfixed

theorem row_tLdrPcrel_sound :
    Row16.Sound ⟨0xF8FF, 0x4800, fun h => .tLdrPcrel (halfField h 8 3)⟩ := by
  refine fun h hfixed => ⟨rfl, by simp [Instr.inRange, fits_halfField], congrArg twice ?_⟩
  simp (disch := decide) only [setWidth_halfField]
  simpa [encTLdrPc_eq, extractLsb'_lowest_place, BitVec.or_assoc, ← BitVec.and_or_distrib_left] using fixed_or_rest hfixed

theorem row_tBx_sound :
    Row16.Sound ⟨0xFF87, 0x4700, fun h => .tBx (halfField h 3 4)⟩ := by
  refine fun h hfixed => ⟨rfl, by simp [Instr.inRange, fits_halfField], congrArg twice ?_⟩
  simp (disch := decide) only [setWidth_halfField]
  simpa [encTBx_eq, extractLsb'_lowest_place, BitVec.or_assoc, ← BitVec.and_or_distrib_left] using fixed_or_rest hfixed

theorem row_tB_sound :
    Row16.Sound ⟨0xF800, 0xE000, fun h => .tB (halfField h 0 11)⟩ := by
  refine fun h hfixed => ⟨rfl, by simp [Instr.inRange, fits_halfField], congrArg twice ?_⟩
  simp (disch := decide) only [setWidth_halfField]
  simpa [encTB_eq, extractLsb'_lowest_place, BitVec.or_assoc, ← BitVec.and_or_distrib_left] using fixed_or_rest hfixed

theorem row_tBkpt_sound :
    Row16.Sound ⟨0xFF00, 0xBE00, fun h => .tBkpt (halfField h 0 8)⟩ := by
  refine fun h hfixed => ⟨rfl, by simp [Instr.inRange, fits_halfField], congrArg twice ?_⟩
  simp (disch := decide) only [setWidth_halfField]
  simpa [encTBkpt_eq, extractLsb'_lowest_place, BitVec.or_assoc, ← BitVec.and_or_distrib_left] using fixed_or_rest hfixed

theorem row_tNop_sound : Row16.Sound ⟨0xFFFF, 0x46C0, fun _ => .tNop⟩ := by
  intro h hfixed
  have hh : h = 0x46C0 := (BitVec.and_allOnes (x := h)).symm.trans hfixed
  exact ⟨rfl, rfl, congrArg twice hh.symm⟩

/-! Every row, and so the decoder. -/

theorem rows32_sound : ∀ r ∈ rows32, r.Sound := by
  simp only [rows32, rowsArmCore, rowsArmOther, rowsArmPostIndexed, List.cons_append, List.nil_append, List.forall_mem_cons]
  exact ⟨row_armNop_sound, row_armMov_sound, row_armLdmia_sound, row_armStmia_sound, row_armLdr_sound, row_armStr_sound,
    row_armBkpt_sound, row_armMovIm_sound, row_armB_sound, row_armBx_sound, row_armMrs_sound, row_armMsrGp_sound,
    row_armMsrIm_sound, row_armMrc_sound, row_armMcr_sound, row_armLdrwIp_sound, row_armLdrhIp_sound, row_armLdrbIp_sound,
    row_armStrwIp_sound, row_armStrhIp_sound, row_armStrbIp_sound, by simp⟩

theorem rows16_sound : ∀ r ∈ rows16, r.Sound := by
  simp only [rows16, List.forall_mem_cons]
  exact ⟨row_tNop_sound, row_tMov_sound, row_tMovIm_sound, row_tLdmia_sound, row_tStmia_sound, row_tLdr_sound, row_tStr_sound,
    row_tLdrPcrel_sound, row_tBx_sound, row_tB_sound, row_tBkpt_sound, by simp⟩

/-- What decodes as A32 decodes by a row whose fixed bits the word has. -/
theorem decodeA32_ok {w : Word} {i : Instr} (h : decodeA32 w = .ok i) :
    ∃ r ∈ rows32, w &&& r.mask = r.value ∧ r.build w = i := by
  unfold decodeA32 at h
  split at h
  case h_1 r hfind =>
    exact ⟨r, List.mem_of_find?_eq_some hfind, of_decide_eq_true (List.find?_some (p := fun r : Row32 => r.hits w) hfind), Except.ok.inj h⟩
  case h_2 => cases h

theorem decodeHalf_ok {h : Half} {i : Instr} (hdec : decodeHalf h = .ok i) :
    ∃ r ∈ rows16, h &&& r.mask = r.value ∧ r.build h = i := by
  unfold decodeHalf at hdec
  split at hdec
  case h_1 r hfind =>
    exact ⟨r, List.mem_of_find?_eq_some hfind, of_decide_eq_true (List.find?_some (p := fun r : Row16 => r.hits h) hfind), Except.ok.inj hdec⟩
  case h_2 => cases hdec

/-- A word with equal halves is its low half, doubled. R63. -/
theorem twice_lowHalf {w : Word} (h : highHalf w = lowHalf w) : twice (lowHalf w) = w := by
  have hsplit : highHalf w ++ lowHalf w = w := by
    ext i hi
    simp only [highHalf, lowHalf, BitVec.getElem_append, BitVec.getElem_extractLsb']
    by_cases hlow : i < 16
    · simp [hlow, BitVec.getLsbD_eq_getElem hi]
    · simp [hlow, show 16 + (i - 16) = i by omega, BitVec.getLsbD_eq_getElem hi]
  rwa [h] at hsplit

/-- Settles O9: the word decodes by a row, in T16x2 that of its one halfword, and the rows are sound. -/
theorem encodeDecodeAgree : Obligations.EncodeDecodeAgree := by
  intro f w i h
  cases f with
  | a32 =>
    obtain ⟨r, hmem, hfixed, rfl⟩ := decodeA32_ok h
    exact rows32_sound r hmem w hfixed
  | t16x2 =>
    simp only [decodeWord, decodeT16x2] at h
    split at h
    case isTrue hhalves =>
      obtain ⟨r, hmem, hfixed, rfl⟩ := decodeHalf_ok h
      obtain ⟨hformat, hrange, hword⟩ := rows16_sound r hmem _ hfixed
      exact ⟨hformat, hrange, hword.trans (twice_lowHalf hhalves)⟩
    case isFalse => cases h

end Sys2Proof
end

section
/-! PROOFS of the encodings, last part: the formulas as emitted, for operands of any value, and the decoding step. -/

namespace Sys2Proof

/-! The formulas. R80 to R120. -/

/-- Settles O1: `exec` of each of the six is the emission of its formula, by definition. -/
theorem armTitleTemplatesEmit : Obligations.ArmTitleTemplatesEmit :=
  fun _ _ _ _ _ _ _ _ => ⟨rfl, rfl, rfl, rfl, rfl, rfl⟩

/-- Settles O2: `exec` of each of the four is the emission of its formula, by definition. -/
theorem armMoveBranchTemplatesEmit : Obligations.ArmMoveBranchTemplatesEmit :=
  fun _ _ _ _ _ _ => ⟨rfl, rfl, rfl, rfl⟩

/-- Settles O3: `exec` of each of the five is the emission of its formula, by definition. -/
theorem armSystemTemplatesEmit : Obligations.ArmSystemTemplatesEmit :=
  fun _ _ _ _ _ _ _ _ _ _ _ _ => ⟨rfl, rfl, rfl, rfl, rfl⟩

/-- Settles O4: `exec` of each of the six is the emission of its formula, by definition. -/
theorem armPostIndexedTemplatesEmit : Obligations.ArmPostIndexedTemplatesEmit :=
  fun _ _ _ => ⟨rfl, rfl, rfl, rfl, rfl, rfl⟩

/-- Settles O5: `exec` of each of the eleven is the emission of its formula, by definition. -/
theorem thumbTemplatesEmit : Obligations.ThumbTemplatesEmit :=
  fun _ _ _ _ _ _ _ _ _ => ⟨rfl, rfl, rfl, rfl, rfl, rfl, rfl, rfl, rfl, rfl, rfl⟩

/-- Settles O6, template by template: the word is found without the state. -/
theorem templatesArePure : Obligations.TemplatesArePure := by
  intro i
  cases i <;> exact ⟨_, fun _ => rfl⟩

/-- Settles O14: the words of the two calls of each equation are the same. -/
theorem templateWordsCoincide : Obligations.TemplateWordsCoincide := by
  intro s list rd
  have hemit {i j : Instr} {v w : Word} (hi : Machine.exec i s = s.emit v) (hj : Machine.exec j s = s.emit w) (h : v = w) :
      Machine.exec i s = Machine.exec j s := by rw [hi, hj, h]
  refine ⟨rfl, rfl, hemit rfl rfl ?_, hemit rfl rfl ?_, rfl, rfl, rfl, rfl, hemit rfl rfl ?_, rfl, rfl⟩
  · simp [Machine.place]
  · rw [BitVec.or_assoc, BitVec.or_comm (Machine.place rd 12), ← BitVec.or_assoc]
    simp [Machine.place]
  · simp [Machine.place]

/-- Settles O15: the word is the encoder's for every operand, and a field of the table gives back what was placed there. -/
theorem breakpointImmediateMasked : Obligations.BreakpointImmediateMasked := by
  intro im s
  refine ⟨encode (.armBkpt im), by rw [encode_armBkpt]; rfl, ?_⟩
  simp [encode, encBkpt_eq, BitVec.extractLsb'_or, BitVec.setWidth_eq_extractLsb']

/-! The decoding step. Log 3. -/

/-- What a template call leaves of a byte string stands at the head of the inbox again, unless nothing is left. -/
theorem requeue_eq (f : Format) (rest : List Byte) (s : Machine.State) :
    Machine.requeue f rest s = { s with inbox := if rest = [] then s.inbox else .image f rest :: s.inbox } := by
  cases rest <;> rfl

/-- Settles O16. -/
theorem stepRunsDecodedInstruction : Obligations.StepRunsDecodedInstruction := by
  intro s f bytes rest cs i hphase hinbox hdecode
  rw [Machine.step_of_inbox_cons hphase hinbox, Machine.serve, Machine.runImage]
  simp only [hdecode, requeue_eq]

/-- Settles O17. -/
theorem stepRunsTemplateCall : Obligations.StepRunsTemplateCall :=
  fun _ _ _ hphase hinbox => Machine.step_of_inbox_cons hphase hinbox

/-- Settles O18: each word is evaluated. -/
theorem writtenWordsDecode : Obligations.WrittenWordsDecode := ⟨rfl, rfl, rfl, rfl, rfl⟩

end Sys2Proof
end

section
/-! PROOFS of the mode model and the banking multiplexer: codes, names and indices of the modes, and when and to what MAP resolves. -/

namespace Sys2Proof.Machine

/-! The modes. R20, R130 to R133. -/

/-- The eight modes of the target, in the order of the list in `isValidMode`. R20. -/
def realModes : List ProcessorMode := [.usr, .fiq, .irq, .svc, .abt, .mon, .und, .sys]

theorem mem_realModes {m : ProcessorMode} : m ∈ realModes ↔ m ≠ .any := by cases m <;> decide

theorem modeOfCode_modeCode (m : ProcessorMode) : modeOfCode (modeCode m) = some m := by cases m <;> rfl

theorem modeCode_of_modeOfCode {v : Word} {m : ProcessorMode} (h : modeOfCode v = some m) : modeCode m = v := by
  unfold modeOfCode at h
  split_ifs at h <;> cases h <;> exact Eq.symm ‹_›

theorem modeOfCode_eq_some {v : Word} {m : ProcessorMode} : modeOfCode v = some m ↔ modeCode m = v :=
  ⟨modeCode_of_modeOfCode, fun h => h ▸ modeOfCode_modeCode m⟩

theorem isValidMode_iff {v : Word} : isValidMode v = true ↔ ∃ m, m ≠ .any ∧ modeCode m = v := by
  have hcodes : isValidMode v = (realModes.map modeCode).any fun c => decide (v = c) := rfl
  simp only [hcodes, List.any_map, List.any_eq_true, Function.comp, decide_eq_true_eq, mem_realModes, eq_comm (a := v)]

theorem modeName_injective {m n : ProcessorMode} (h : modeName m = modeName n) : m = n := by
  have hnodup : ((.any :: realModes).map modeName).Nodup := by decide
  have hmem (m : ProcessorMode) : m ∈ ProcessorMode.any :: realModes := by cases m <;> decide
  exact List.inj_on_of_nodup_map hnodup (hmem m) (hmem n) h

theorem operandToIndex_of_invalid {v : Word} (h : isValidMode v = false) : operandToIndex (.raw v) = .err .invalidMode := by
  cases hm : modeOfCode v with
  | none => simp only [operandToIndex, ModeOperand.mode?, hm]
  | some m =>
    have hany : m = .any := by
      by_contra hne
      simp [isValidMode_iff.2 ⟨m, hne, modeOfCode_eq_some.1 hm⟩] at h
    simp only [operandToIndex, ModeOperand.mode?, hm, hany, modeToIndex]

theorem indexToMode_of_lt {i : Nat} (h : 7 < i) : indexToMode i = .err .invalidIndex := by
  obtain ⟨k, rfl⟩ := Nat.exists_eq_add_of_le h
  rw [Nat.add_comm]
  rfl

/-- A real mode has an index, which stands for it. R130, R131. -/
theorem modeToIndex_of_ne_any {m : ProcessorMode} (h : m ≠ .any) :
    ∃ i, i ≤ 7 ∧ modeToIndex m = .ok i ∧ indexToMode i = .ok m := by
  cases m with
  | any => exact absurd rfl h
  | usr | fiq | irq | svc | abt | mon | und | sys => exact ⟨_, by decide, rfl, rfl⟩

theorem indexToMode_of_le {i : Nat} (h : i ≤ 7) : ∃ m, m ≠ .any ∧ indexToMode i = .ok m ∧ modeToIndex m = .ok i := by
  interval_cases i <;> exact ⟨_, by decide, rfl, rfl⟩

/-- Settles O20, from the table of indices and its reading backwards. -/
theorem modeIndexInverse : Obligations.ModeIndexInverse := by
  refine ⟨rfl, fun _ => modeToIndex_of_ne_any, fun _ => indexToMode_of_le, rfl, fun _ => indexToMode_of_lt,
    fun m => ⟨rfl, ?_⟩, fun _ => operandToIndex_of_invalid⟩
  simp only [operandToIndex, ModeOperand.mode?, modeOfCode_modeCode]

/-- Settles O21. -/
theorem validModesAndNames : Obligations.ValidModesAndNames :=
  ⟨fun _ => isValidMode_iff, fun _ _ => modeOfCode_eq_some, rfl, fun _ _ => modeName_injective⟩

/-- A value that is no mode's code names no mode. R20. -/
theorem modeOfCode_eq_none {v : Word} (h : ∀ m, modeCode m ≠ v) : modeOfCode v = none :=
  Option.eq_none_iff_forall_ne_some.2 fun m hm => h m (modeOfCode_eq_some.1 hm)

/-- Settles O22: the commands are served by definition; the names go through the codes. -/
theorem modeCommandsAnswer : Obligations.ModeCommandsAnswer := by
  refine ⟨fun s cs m i v hphase => ⟨?_, ?_, ?_, ?_⟩, fun m => ⟨rfl, ?_⟩, fun v hv => ?_⟩
  · exact step_of_inbox_cons hphase
  · exact step_of_inbox_cons hphase
  · exact step_of_inbox_cons hphase
  · exact step_of_inbox_cons hphase
  · simp only [operandName, ModeOperand.mode?, modeOfCode_modeCode]
  · simp only [operandName, ModeOperand.mode?, modeOfCode_eq_none hv]

/-! The multiplexer. R140, R141. -/

/-- When MAP resolves, and to what: a mode the target has, a logical number up to 16, the function of the banking table. -/
theorem mapRegister_eq_ok {hasMon : Bool} {coreMode m : ProcessorMode} {n slot : Nat} :
    mapRegister hasMon coreMode m n = .ok slot ↔
      modeSupported hasMon (effectiveMode coreMode m) = true ∧ n ≤ 16 ∧
        ∃ i, modeToIndex (effectiveMode coreMode m) = .ok i ∧ bankSlot i n = slot := by
  unfold mapRegister
  dsimp only
  cases hs : modeSupported hasMon (effectiveMode coreMode m) with
  | false => simp
  | true =>
    by_cases hn : 16 < n
    · simp [hn, Nat.not_le.2 hn]
    · cases hi : modeToIndex (effectiveMode coreMode m) <;> simp [hn, Nat.not_lt.1 hn]

theorem modeSupported_ne_any {hasMon : Bool} {m : ProcessorMode} (h : modeSupported hasMon m = true) : m ≠ .any := by
  rintro rfl
  simp [modeSupported] at h

theorem effectiveMode_of_ne_any {coreMode m : ProcessorMode} (h : m ≠ .any) : effectiveMode coreMode m = m := if_neg h

theorem modeToIndex_lt {m : ProcessorMode} {i : Nat} (h : modeToIndex m = .ok i) : i < 8 := by
  cases m <;> cases h <;> decide

theorem modeToIndex_injective {m k : ProcessorMode} {i : Nat} (hm : modeToIndex m = .ok i) (hk : modeToIndex k = .ok i) :
    m = k := by
  have hinv {m : ProcessorMode} (h : modeToIndex m = .ok i) : indexToMode i = .ok m := by cases m <;> cases h <;> rfl
  exact Res.ok.inj ((hinv hm).symm.trans (hinv hk))

/-- The banking table, cell by cell. R140. -/
theorem mapTable_eq_bankSlot : ∀ i < 8, ∀ n < 17, (mapTable[i]?.bind fun row => row[n]?) = some (bankSlot i n) := by decide

theorem mapRegister_err_mode {hasMon : Bool} {coreMode m : ProcessorMode} {n : Nat}
    (h : modeSupported hasMon (effectiveMode coreMode m) = false) :
    mapRegister hasMon coreMode m n = .err .invalidMode := if_pos h

theorem mapRegister_err_index {hasMon : Bool} {coreMode m : ProcessorMode} {n : Nat}
    (h : modeSupported hasMon (effectiveMode coreMode m) = true) (hn : 16 < n) :
    mapRegister hasMon coreMode m n = .err .invalidIndex := by
  simp [mapRegister, h, hn]

/-- For a mode the target has, MAP resolves every logical number of the table. R141. -/
theorem mapRegister_resolves {hasMon : Bool} {coreMode m : ProcessorMode} {n : Nat}
    (h : modeSupported hasMon (effectiveMode coreMode m) = true) (hn : n ≤ 16) :
    ∃ i, modeToIndex (effectiveMode coreMode m) = .ok i ∧ mapRegister hasMon coreMode m n = .ok (bankSlot i n) := by
  obtain ⟨i, _, hi, _⟩ := modeToIndex_of_ne_any (modeSupported_ne_any h)
  exact ⟨i, hi, mapRegister_eq_ok.2 ⟨h, hn, i, hi, rfl⟩⟩

/-- Settles O24. -/
theorem mapResolvesInBounds : Obligations.MapResolvesInBounds := by
  refine fun hasMon coreMode m n => ⟨mapRegister_err_mode, mapRegister_err_index, fun h hn => ?_⟩
  obtain ⟨i, hi, hmap⟩ := mapRegister_resolves h hn
  exact ⟨i, bankSlot i n, hi, mapTable_eq_bankSlot i (modeToIndex_lt hi) n (Nat.lt_succ_of_le hn), hmap, mapRegister_lt hmap⟩

/-- Settles O23: the table is read cell by cell, and the handle is its last column. -/
theorem bankTableIsFunction : Obligations.BankTableIsFunction := by
  refine ⟨fun i n hi hn => mapTable_eq_bankSlot i hi n (Nat.lt_succ_of_le hn), fun m hm => ⟨?_, ?_, fun hspsr => ?_⟩, rfl⟩
  · cases m <;> simp [hasSpsr]
  · intro h
    simp [spsrHandle, h]
  · obtain ⟨i, _, hi, _⟩ := modeToIndex_of_ne_any hm
    refine ⟨i, bankSlot i 16, hi, mapTable_eq_bankSlot i (modeToIndex_lt hi) 16 (by decide), ?_, fun hasMon coreMode hs => ?_⟩
    · simp only [spsrHandle, hspsr, if_true, hi]
    · rw [← effectiveMode_of_ne_any (coreMode := coreMode) hm] at hs hi
      exact mapRegister_eq_ok.2 ⟨hs, by decide, i, hi, rfl⟩

/-! What the table keeps apart, as facts about the function of R140. -/

theorem bankSlot_unbanked : ∀ i < 8, ∀ n < 17, (n ≤ 7 ∨ n = 15) → bankSlot i n = n := by decide

theorem bankSlot_high : ∀ i < 8, i ≠ 1 → ∀ n < 17, 8 ≤ n → n ≤ 12 → bankSlot i n = n := by decide

/-- r13, r14 and the status register of the six modes that have one of their own. -/
theorem bankSlot_own : ∀ i ∈ [1, 2, 3, 4, 5, 6], ∀ k < 8, k ≠ i → ∀ n ∈ [13, 14, 16], ∀ q < 17,
    bankSlot k q ≠ bankSlot i n := by decide

theorem bankSlot_fiq : ∀ k < 8, k ≠ 1 → ∀ n ∈ [8, 9, 10, 11, 12, 13, 14], ∀ q < 17, bankSlot k q ≠ bankSlot 1 n := by decide

theorem bankSlot_injective : ∀ i < 8, ∀ n < 17, ∀ k < 17, bankSlot i n = bankSlot i k → n = k := by decide

theorem bankSlot_surjective : ∀ hasMon : Bool, ∀ slot < nslot hasMon, ∃ m ∈ realModes, ∃ n < 17,
    mapRegister hasMon .usr m n = .ok slot := by decide

/-- MAP of a named mode is a cell of its row. -/
theorem mapRegister_named_eq_ok {hasMon : Bool} {coreMode m : ProcessorMode} {n slot i : Nat} (hany : m ≠ .any)
    (hi : modeToIndex m = .ok i) :
    mapRegister hasMon coreMode m n = .ok slot ↔ modeSupported hasMon m = true ∧ n ≤ 16 ∧ bankSlot i n = slot := by
  rw [mapRegister_eq_ok, effectiveMode_of_ne_any hany, hi]
  simp

theorem index_of_hasSpsr {m : ProcessorMode} {i : Nat} (hspsr : hasSpsr m = true) (hi : modeToIndex m = .ok i) :
    i ∈ [1, 2, 3, 4, 5, 6] := by
  cases m with
  | usr | sys | any => cases hspsr
  | fiq | irq | svc | abt | mon | und => cases hi; decide

/-- A row that shares no slot with the cells `cells` of another row is not led to them by MAP. -/
theorem mapRegister_apart {hasMon : Bool} {coreMode m k : ProcessorMode} {n slot i j : Nat} (hm : m ≠ .any) (hk : k ≠ .any)
    (hi : modeToIndex m = .ok i) (hj : modeToIndex k = .ok j) (hmap : mapRegister hasMon coreMode m n = .ok slot)
    (hapart : ∀ q < 17, bankSlot j q ≠ bankSlot i n) (q : Nat) : mapRegister hasMon coreMode k q ≠ .ok slot := by
  intro hq
  obtain ⟨_, _, hslot⟩ := (mapRegister_named_eq_ok hm hi).1 hmap
  obtain ⟨_, hq16, hslot'⟩ := (mapRegister_named_eq_ok hk hj).1 hq
  exact hapart q (by omega) (hslot'.trans hslot.symm)

/-- Settles O25: MAP of a named mode is its row of the table, and the rows are compared. -/
theorem bankingFollowsHardware : Obligations.BankingFollowsHardware := by
  intro hasMon coreMode m hany hs
  obtain ⟨i, _, hi, _⟩ := modeToIndex_of_ne_any hany
  have hlt := modeToIndex_lt hi
  refine ⟨fun n hn => ?unbanked, fun hfiq n h8 h12 => ?high, fun k n slot hk hkm hspsr hn hmap => ?own,
    fun k n slot hk hkfiq hfiq h8 h14 hmap => ?fiq⟩
  case unbanked => exact (mapRegister_named_eq_ok hany hi).2 ⟨hs, by omega, bankSlot_unbanked i hlt n (by omega) hn⟩
  case high =>
    have hi1 : i ≠ 1 := fun h => hfiq (modeToIndex_injective (h ▸ hi) rfl)
    exact (mapRegister_named_eq_ok hany hi).2 ⟨hs, by omega, bankSlot_high i hlt hi1 n (by omega) h8 h12⟩
  case own =>
    obtain ⟨j, _, hj, _⟩ := modeToIndex_of_ne_any hk
    have hji : j ≠ i := fun h => hkm (modeToIndex_injective hj (h ▸ hi))
    exact mapRegister_apart hany hk hi hj hmap
      (bankSlot_own i (index_of_hasSpsr hspsr hi) j (modeToIndex_lt hj) hji n (by simpa using hn))
  case fiq =>
    subst hfiq
    obtain ⟨j, _, hj, _⟩ := modeToIndex_of_ne_any hk
    have hj1 : j ≠ 1 := fun h => hkfiq (modeToIndex_injective hj (h ▸ rfl))
    refine mapRegister_apart hany hk rfl hj hmap (bankSlot_fiq j (modeToIndex_lt hj) hj1 n ?_)
    simp only [List.mem_cons, List.not_mem_nil, or_false]
    omega

/-- MAP of a named mode does not depend on the current one. R141. -/
theorem mapRegister_of_ne_any {hasMon : Bool} {m : ProcessorMode} (c c' : ProcessorMode) (n : Nat) (h : m ≠ .any) :
    mapRegister hasMon c m n = mapRegister hasMon c' m n := by
  simp only [mapRegister, effectiveMode_of_ne_any h]

/-- Settles O26. -/
theorem bankingReachesEverySlotOnce : Obligations.BankingReachesEverySlotOnce := by
  constructor
  · intro hasMon coreMode slot hslot
    obtain ⟨m, hm, n, hn, hmap⟩ := bankSlot_surjective hasMon slot hslot
    have hany := mem_realModes.1 hm
    exact ⟨m, n, hany, Nat.le_of_lt_succ hn, (mapRegister_of_ne_any _ _ n hany).trans hmap⟩
  · intro hasMon coreMode m n k slot hn hk
    obtain ⟨_, hn16, i, hi, hslot⟩ := mapRegister_eq_ok.1 hn
    obtain ⟨_, hk16, j, hj, hslot'⟩ := mapRegister_eq_ok.1 hk
    obtain rfl : i = j := Res.ok.inj (hi.symm.trans hj)
    exact bankSlot_injective i (modeToIndex_lt hi) n (by omega) k (by omega) (hslot.trans hslot'.symm)

/-! MAP and current_register as commands. R141, R144. -/

theorem mapOperand_code (hasMon : Bool) (coreMode m : ProcessorMode) (n : Nat) :
    mapOperand hasMon coreMode (.raw (modeCode m)) n = mapRegister hasMon coreMode m n := by
  simp only [mapOperand, ModeOperand.mode?, modeOfCode_modeCode]

/-- Only the sentinel, or its code, reads the current mode. Log 15, log 18. -/
theorem needsInstance_operand {m : ModeOperand} : m.needsInstance = true ↔ m = .known .any ∨ m = .raw (modeCode .any) := by
  cases m with
  | known m => simp [ModeOperand.needsInstance, ModeOperand.mode?]
  | raw v => simp [ModeOperand.needsInstance, ModeOperand.mode?, modeOfCode_eq_some, eq_comm (a := v)]

/-- Settles O27: the commands are served by definition; current_register goes through MAP of `ANY`, which is the current mode. -/
theorem bankingCommandsAnswer : Obligations.BankingCommandsAnswer := by
  refine ⟨fun s cs m n hphase => ⟨fun hinbox hm => ?map, fun hbuilt hinbox hmode hn => ?view, fun hbuilt hinbox hmode hn => ?high⟩,
    fun hasMon coreMode m n => ⟨rfl, mapOperand_code hasMon coreMode m n⟩, fun hasMon coreMode n v hv => ?other⟩
  case map =>
    rw [step_of_inbox_cons hphase hinbox, serve]
    by_cases hneeds : m.needsInstance = true
    · rcases hm with hbuilt | ⟨hknown, hraw⟩
      · rw [if_pos hneeds]
        exact withInstance_of_built _ hbuilt
      · rcases needsInstance_operand.1 hneeds with h | h
        · exact absurd h hknown
        · exact absurd h hraw
    · rw [if_neg hneeds]
      rfl
  case view =>
    obtain ⟨i, _, hmap⟩ := mapRegister_resolves (coreMode := s.coreMode) (m := .any) hmode hn
    refine ⟨_, hmap, ?_⟩
    rw [step_of_inbox_cons hphase hinbox, serve]
    refine (withInstance_of_built _ hbuilt).trans ?_
    simp only [currentRegister, hmap]
    rfl
  case high =>
    have hmap := mapRegister_err_index (coreMode := s.coreMode) (m := .any) hmode hn
    rw [step_of_inbox_cons hphase hinbox, serve]
    refine (withInstance_of_built _ hbuilt).trans ?_
    simp only [currentRegister, hmap]
    rfl
  case other => simp only [mapOperand, ModeOperand.mode?, modeOfCode_eq_none hv]

end Sys2Proof.Machine
end

section
/-! PROOFS of the core-state operations, second part: construction, mode, state and CPSR, writes, flush, refresh and the
coprocessor hooks. -/

namespace Sys2Proof.Machine

/-- R171: a command of an instance that exists is served by its operation. -/
theorem step_of_built {s : State} {c : Command} {cs : List Command} {o : Host.Outcome State Fault Refusal}
    (hphase : s.phase = .idle) (hbuilt : s.built = true) (hinbox : s.inbox = c :: cs)
    (hserve : serve c { s with inbox := cs } = withInstance { s with inbox := cs } o) : step s = o := by
  rw [step_of_inbox_cons hphase hinbox, hserve]
  exact withInstance_of_built _ hbuilt

/-! Construction. R28, R150, R230. -/

theorem freshCache_length (hasMon : Bool) : (freshCache hasMon).length = nslot hasMon := by cases hasMon <;> rfl

theorem freshCache_names (hasMon : Bool) : ((freshCache hasMon).map fun e => e.name) = slotNames hasMon := by
  simp [freshCache, freshEntry, Function.comp_def]

theorem freshCache_clear {hasMon : Bool} {e : CacheEntry} (h : e ∈ freshCache hasMon) :
    e.valid = false ∧ e.dirty = false ∧ e.width = 32 := by
  obtain ⟨name, _, rfl⟩ := List.mem_map.1 h
  exact ⟨rfl, rfl, rfl⟩

/-- Settles O28. -/
theorem resetIsConstruction : Obligations.ResetIsConstruction :=
  ⟨rfl, rfl, rfl, ⟨rfl, rfl, rfl, rfl, rfl, rfl, rfl, rfl⟩, fun _ he => freshCache_clear he, freshCache_names _⟩

theorem buildRegisterCache_ok {hasMon : Bool} {s : State} (h : s.params.allocOk = true) :
    buildRegisterCache hasMon s = (.ok (), { s.sequencerReset with
      params := { s.params with hasMon := hasMon }, coreMode := .usr, coreState := .arm, built := true,
      cache := freshCache hasMon }) := by
  simp [buildRegisterCache, h]

theorem buildRegisterCache_err {hasMon : Bool} {s : State} (h : s.params.allocOk = false) :
    buildRegisterCache hasMon s = (.err .outOfMemory, { s.sequencerReset with
      params := { s.params with hasMon := hasMon }, coreMode := .usr, coreState := .arm, built := false, cache := [] }) := by
  simp [buildRegisterCache, h]

theorem sequencerReset_quiet (s : State) : s.sequencerReset.quiet := ⟨rfl, rfl, rfl, rfl, rfl, rfl, rfl, rfl⟩

/-- Settles O29, by whether construction finds memory. -/
theorem constructionAllOrNothing : Obligations.ConstructionAllOrNothing := by
  intro s cs hasMon hphase hinbox
  refine ⟨_, step_of_inbox_cons hphase hinbox, ?_⟩
  cases halloc : s.params.allocOk with
  | true =>
    rw [buildRegisterCache_ok (s := { s with inbox := cs }) halloc]
    exact ⟨rfl, rfl, rfl, rfl, sequencerReset_quiet s,
      fun _ => ⟨rfl, rfl, rfl, freshCache_length _, freshCache_names _, fun _ he => freshCache_clear he⟩, (fun h => nomatch h)⟩
  | false =>
    rw [buildRegisterCache_err (s := { s with inbox := cs }) halloc]
    exact ⟨rfl, rfl, rfl, rfl, sequencerReset_quiet s, (fun h => nomatch h), fun _ => ⟨rfl, rfl, rfl⟩⟩

/-! Mode, state and CPSR. R151 to R153. -/

theorem setMode_ok {m : ProcessorMode} {s : State} (h : modeSupported s.params.hasMon m = true) :
    setMode m s = (.ok (), { s with coreMode := m }) := if_pos h

theorem setMode_err {m : ProcessorMode} {s : State} (h : modeSupported s.params.hasMon m = false) :
    setMode m s = (.err .invalidMode, s) := if_neg (by simp [h])

/-- Settles O30. -/
theorem modeAndStateAreBookkeeping : Obligations.ModeAndStateAreBookkeeping := by
  refine fun s cs m st hphase hbuilt => ⟨fun hinbox p hm hp => ?legal, fun hinbox hm => ?illegal, fun hinbox => ?state⟩
  case legal =>
    refine (step_of_built hphase hbuilt hinbox rfl).trans ?_
    rw [setModeOperand, hm]
    simp only [setMode_ok (s := { s with inbox := cs }) hp]
    rfl
  case illegal =>
    refine (step_of_built hphase hbuilt hinbox rfl).trans ?_
    rw [setModeOperand]
    cases hmode : m.mode? with
    | none => rfl
    | some p =>
      simp only [setMode_err (s := { s with inbox := cs }) (hm p hmode)]
      rfl
  case state => exact step_of_built hphase hbuilt hinbox rfl

/-- The mode field is the low five bits. R16. -/
theorem cpsrModeField_eq (raw : Word) : cpsrModeField raw = raw &&& 0x1F#32 := extractLsb'_lowest_place (len := 5) raw

theorem stateOfBits_eq (t j : Bool) : stateOfBits t j = (match t, j with
    | false, false => .arm
    | true, false => .thumb
    | false, true => .jazelle
    | true, true => .thumbEE) := by cases t <;> cases j <;> rfl

/-- A mode field that is the code of a mode the target has: all three pieces are written. R153. -/
theorem setCpsr_ok {raw : Word} {s : State} {m : ProcessorMode} (hany : m ≠ .any) (hcode : modeCode m = raw &&& 0x1F#32)
    (hs : modeSupported s.params.hasMon m = true) :
    setCpsr raw s = (.ok (), { s with coreMode := m, coreState := stateOfBits (cpsrT raw) (cpsrJ raw) }.setEntry cpsrSlot
      ((s.entry cpsrSlot).agree raw)) := by
  have hvalid : isValidMode (cpsrModeField raw) = true := isValidMode_iff.2 ⟨m, hany, by rw [cpsrModeField_eq, hcode]⟩
  have hmode : modeOfCode (cpsrModeField raw) = some m := modeOfCode_eq_some.2 (by rw [cpsrModeField_eq, hcode])
  simp [setCpsr, hvalid, hmode, hs]

/-- Any other mode field: nothing is written. R153. -/
theorem setCpsr_err {raw : Word} {s : State}
    (h : ∀ m, m ≠ .any → modeCode m = raw &&& 0x1F#32 → modeSupported s.params.hasMon m = false) :
    setCpsr raw s = (.err .invalidMode, s) := by
  rcases setCpsr_cases raw s with ⟨m, hm, hs, _⟩ | herr
  · have hcode : modeCode m = raw &&& 0x1F#32 := by rw [modeCode_of_modeOfCode hm, cpsrModeField_eq]
    simp [h m (modeSupported_ne_any hs) hcode] at hs
  · exact herr

/-- Settles O31. -/
theorem setCpsrAllOrNothing : Obligations.SetCpsrAllOrNothing := by
  intro s cs raw hphase hbuilt hinbox
  have hstep := step_of_built hphase hbuilt hinbox rfl
  refine ⟨fun m hany hcode hs => ?legal, fun h => ?illegal⟩
  case legal =>
    rw [hstep, setCpsr_ok (s := { s with inbox := cs }) hany hcode hs, stateOfBits_eq]
    rfl
  case illegal =>
    rw [hstep, setCpsr_err (s := { s with inbox := cs }) h]
    rfl

/-! Writes. R155. -/

theorem writeSlot_of_valid {n : Nat} {v : Word} {s : State} (hvalid : (s.entry n).valid = true) :
    writeSlot n v s = (.ok (), s.setEntry n ((s.entry n).pending v)) := by
  rcases writeSlot_cases n v s with ⟨_, h⟩ | ⟨hinvalid, _⟩ | ⟨hinvalid, _⟩
  · exact h
  · simp [hvalid] at hinvalid
  · simp [hvalid] at hinvalid

theorem writeSlot_of_hook_ok {n : Nat} {v : Word} {s : State} (hinvalid : (s.entry n).valid = false)
    (hhook : (s.transport.writeRegister n v).1 = .ok ()) :
    writeSlot n v s = (.ok (), (s.withTransport (s.transport.writeRegister n v).2).setEntry n ((s.entry n).pending v)) := by
  rcases writeSlot_cases n v s with ⟨hvalid, _⟩ | ⟨_, _, h⟩ | ⟨_, e, he, _⟩
  · simp [hinvalid] at hvalid
  · exact h
  · simp [hhook] at he

theorem writeSlot_of_hook_err {n : Nat} {v : Word} {s : State} {e : TransportError} (hinvalid : (s.entry n).valid = false)
    (hhook : (s.transport.writeRegister n v).1 = .err e) :
    writeSlot n v s = (.err e, s.withTransport (s.transport.writeRegister n v).2) := by
  rcases writeSlot_cases n v s with ⟨hvalid, _⟩ | ⟨_, hok, _⟩ | ⟨_, e', he', h⟩
  · simp [hinvalid] at hvalid
  · simp [hhook] at hok
  · obtain rfl : e' = e := Answer.err.inj (he'.symm.trans hhook)
    exact h

/-- A step that serves `write_register` on a slot of the cache answers with the result of `writeSlot`. -/
theorem step_writeRegister {s : State} {v : RegisterView} {x : Word} {cs : List Command} (hphase : s.phase = .idle)
    (hbuilt : s.built = true) (hslot : v.slot < s.slots) (hinbox : s.inbox = .writeRegister v x :: cs) :
    step s = .next ((writeSlot v.slot x { s with inbox := cs }).2.answer
      ((writeSlot v.slot x { s with inbox := cs }).1.reply fun _ => .done)) := by
  rw [step_of_inbox_cons hphase hinbox]
  exact withSlot_of_lt _ hbuilt hslot

/-- Settles O33, from the three answers of `writeSlot`. -/
theorem writeRegisterMarksDirty : Obligations.WriteRegisterMarksDirty := by
  intro s cs v x hphase hbuilt hslot hinbox
  have hstep := step_writeRegister hphase hbuilt hslot hinbox
  refine ⟨fun hvalid => ?valid, fun hinvalid hhook => ?hook_ok, fun e hinvalid hhook => ?hook_err⟩
  case valid =>
    rw [hstep, writeSlot_of_valid (s := { s with inbox := cs }) hvalid]
    rfl
  case hook_ok =>
    rw [hstep, writeSlot_of_hook_ok (s := { s with inbox := cs }) hinvalid hhook]
    rfl
  case hook_err =>
    rw [hstep, writeSlot_of_hook_err (s := { s with inbox := cs }) hinvalid hhook]
    rfl

/-- A write that succeeds leaves its entry pending with the value, and every other entry and field alone. R155. -/
theorem writeSlot_ok {n : Nat} {v : Word} {s t : State} (h : writeSlot n v s = (.ok (), t)) :
    CacheAndBusOnly s t ∧ (n < s.cache.length → t.entry n = (s.entry n).pending v) ∧ ∀ k, n ≠ k → t.entry k = s.entry k := by
  rcases writeSlot_cases n v s with ⟨_, hw⟩ | ⟨_, _, hw⟩ | ⟨_, _, _, hw⟩ <;> rw [hw] at h <;> cases h
  · exact ⟨rfl, State.entry_setEntry_self, fun _ => State.entry_setEntry_ne⟩
  · exact ⟨rfl, State.entry_setEntry_self (s := s.withTransport _), fun _ => State.entry_setEntry_ne (s := s.withTransport _)⟩

/-! Registers through the multiplexer. R7. -/

theorem readBanked_of_ok {m : ProcessorMode} {n slot : Nat} {s s' : State} {v : Word}
    (hmap : mapRegister s.params.hasMon s.coreMode m n = .ok slot) (hread : readSlot slot s = (.ok v, s')) :
    readBanked m n s = (.ok v, s') := by
  simp only [readBanked, hmap, hread]

theorem writeBanked_ok {m : ProcessorMode} {n : Nat} {s t : State} {v : Word} (h : writeBanked m n v s = (.ok (), t)) :
    ∃ slot, mapRegister s.params.hasMon s.coreMode m n = .ok slot ∧ writeSlot slot v s = (.ok (), t) := by
  unfold writeBanked at h
  split at h
  case h_1 => cases h
  case h_2 slot hmap =>
    split at h
    case h_1 hwrite => cases h; exact ⟨slot, hmap, hwrite⟩
    case h_2 => cases h

/-- Settles O34: the write leaves the entry MAP resolves to pending, where the read finds it without a call. -/
theorem bankedWriteReadsBack : Obligations.BankedWriteReadsBack := by
  intro s t m k n q v hbuilt hcache hwrite
  obtain ⟨slot, hmap, hslot⟩ := writeBanked_ok hwrite
  obtain ⟨hframe, hself, hother⟩ := writeSlot_ok hslot
  constructor
  · have hlt : slot < s.cache.length := State.cache_length hbuilt hcache ▸ mapRegister_lt hmap
    have hmapt : mapRegister t.params.hasMon t.coreMode m n = .ok slot := by
      rw [hframe]
      exact hmap
    refine readBanked_of_ok hmapt ((readSlot_of_valid ?_).trans ?_)
    · rw [hself hlt]; rfl
    · rw [hself hlt]; rfl
  · intro hne slot' hmap'
    rw [hmap, hmap'] at hne
    exact hother slot' fun h => hne (congrArg Res.ok h.symm)

end Sys2Proof.Machine
end

section
/-! PROOFS of the core-state operations, third part: flush and refresh, the coprocessor hooks and the export. -/

namespace Sys2Proof.Machine

/-! Flush. R156. -/

theorem State.entry_of_ge {s : State} {n : Nat} (h : s.cache.length ≤ n) : s.entry n = freshEntry "" := by
  simp [State.entry, List.getD_eq_getElem?_getD, List.getElem?_eq_none h]

theorem State.entry_of_lt {s : State} {n : Nat} (h : n < s.cache.length) : s.entry n = s.cache[n] := by
  simp [State.entry, h]

/-- A flush that succeeds, with an instance and a sound cache: its frame, its calls, and every entry clean. R156. -/
theorem flush_ok {s t : State} (hbuilt : s.built = true) (hcache : s.cacheOk) (h : flush s = (.ok (), t)) :
    CacheAndBusOnly s t ∧
    t.transport.log = s.transport.log ++
      ((List.range s.slots).filter fun n => (s.entry n).dirty).map (fun n => .writeRegister n (s.entry n).value (.ok ())) ∧
    ∀ n, t.entry n = (s.entry n).clean := by
  obtain ⟨hframe, hlog, hentry⟩ := flushSlots_ok _ s t List.nodup_range h
  refine ⟨hframe, hlog, fun n => ?_⟩
  have hlen : t.cache.length = s.cache.length := by simpa [h] using (flush_op s).cache.length
  by_cases hn : n < s.cache.length
  · have hslot : n ∈ List.range s.slots := List.mem_range.2 (State.cache_length hbuilt hcache ▸ hn)
    rw [hentry n hn, if_pos hslot]
  · rw [State.entry_of_ge (by omega), State.entry_of_ge (by omega)]
    rfl

/-- Settles O35. -/
theorem flushWritesDirtyInOrder : Obligations.FlushWritesDirtyInOrder := by
  intro s t hbuilt hcache h
  obtain ⟨hframe, hlog, hentry⟩ := flush_ok hbuilt hcache h
  have hlen : t.cache.length = s.cache.length := by simpa [h] using (flush_op s).cache.length
  refine ⟨hframe, hlog, ?_⟩
  apply ext_entry (s := t) (by simpa using hlen.symm)
  intro n hn
  rw [hentry, State.entry_of_lt (hlen ▸ hn)]
  simp [hlen ▸ hn, CacheEntry.clean]

/-- What stands before `k` in the slots from 0 is the slots below `k`. -/
theorem range_split {l1 l2 : List Nat} {n k : Nat} (h : List.range n = l1 ++ k :: l2) : l1 = List.range k ∧ k < n := by
  have hlt : l1.length < n := by
    have := congrArg List.length h
    simp at this
    omega
  have hk : l1.length = k := by
    have := congrArg (·[l1.length]?) h
    simpa [hlt] using this
  refine ⟨?_, hk ▸ hlt⟩
  have := congrArg (·.take l1.length) h
  simp only [List.take_range, List.take_left, Nat.min_eq_left (Nat.le_of_lt hlt)] at this
  rw [← this, hk]

/-- A flush that fails, with the slot whose write failed: below it everything dirty is written and clean, the rest as before.
R156, R202. -/
theorem flush_err {s t : State} {e : TransportError} (hbuilt : s.built = true) (hcache : s.cacheOk)
    (h : flush s = (.err e, t)) :
    ∃ k, k < s.slots ∧ (s.entry k).dirty = true ∧ CacheAndBusOnly s t ∧
      t.transport.log = s.transport.log ++
        ((List.range k).filter fun n => (s.entry n).dirty).map (fun n => .writeRegister n (s.entry n).value (.ok ())) ++
        [.writeRegister k (s.entry k).value (.err e)] ∧
      (∀ n, n < k → t.entry n = (s.entry n).clean) ∧ ∀ n, k ≤ n → t.entry n = s.entry n := by
  obtain ⟨l1, k, l2, hsplit, hdirty, hframe, hlog, hentry, hother⟩ := flushSlots_err _ s t e List.nodup_range h
  obtain ⟨rfl, hk⟩ := range_split hsplit
  refine ⟨k, hk, hdirty, hframe, hlog, fun n hn => ?_, fun n hn => hother n (by simpa using hn)⟩
  rw [hentry n (State.cache_length hbuilt hcache ▸ Nat.lt_trans hn hk), if_pos (List.mem_range.2 hn)]

/-- Settles O36. -/
theorem flushStopsAtFirstFailure : Obligations.FlushStopsAtFirstFailure :=
  fun _ _ _ hbuilt hcache h => flush_err hbuilt hcache h

/-- Settles O37: the two commands answer with their operation's result, by definition. -/
theorem flushAndRefreshComplete : Obligations.FlushAndRefreshComplete := by
  refine fun s cs hphase hbuilt => ⟨fun hinbox a t h => ?_, fun hinbox a t h => ?_⟩
  · refine (step_of_built hphase hbuilt hinbox rfl).trans ?_
    rw [h]
    rfl
  · refine (step_of_built hphase hbuilt hinbox rfl).trans ?_
    rw [h]
    rfl

/-! Refresh. R157. -/

theorem fullContextRefresh_ok {s : State} {vals : List Word} (h : (s.transport.refreshHook s.slots).1 = .ok vals) :
    fullContextRefresh s = (.ok (), { s.withTransport (s.transport.refreshHook s.slots).2 with
      cache := s.cache.mapIdx fun i e => e.refreshed (vals.getD i e.value) }) := by
  rcases fullContextRefresh_cases s with ⟨vals', hv, hr⟩ | ⟨e, he, _⟩
  · obtain rfl : vals' = vals := Answer.ok.inj (hv.symm.trans h)
    exact hr
  · simp [h] at he

theorem fullContextRefresh_err {s : State} {e : TransportError} (h : (s.transport.refreshHook s.slots).1 = .err e) :
    fullContextRefresh s = (.err e, s.withTransport (s.transport.refreshHook s.slots).2) := by
  rcases fullContextRefresh_cases s with ⟨vals, hv, _⟩ | ⟨e', he, hr⟩
  · simp [h] at hv
  · obtain rfl : e' = e := Answer.err.inj (he.symm.trans h)
    exact hr

theorem CacheEntry.refreshed_of_dirty {e : CacheEntry} {v : Word} (hok : e.ok) (hdirty : e.dirty = true) :
    e.refreshed v = e := by
  have hvalid := hok.2 hdirty
  cases e
  simp_all [CacheEntry.refreshed]

/-- Settles O38, entry by entry: a dirty one is sound, so already valid. -/
theorem refreshKeepsPendingValues : Obligations.RefreshKeepsPendingValues := by
  intro s hbuilt hcache
  refine ⟨fun vals h => ⟨_, fullContextRefresh_ok h, rfl, rfl, Transport.refreshHook_length h, fun n hn => ?_⟩,
    fun e h => fullContextRefresh_err h⟩
  have hlt : n < s.cache.length := (State.cache_length hbuilt hcache).symm ▸ hn
  have hvals : n < vals.length := (Transport.refreshHook_length h).symm ▸ hn
  have hentry : State.entry { s.withTransport (s.transport.refreshHook s.slots).2 with
      cache := s.cache.mapIdx fun i e => e.refreshed (vals.getD i e.value) } n =
      (s.entry n).refreshed (vals.getD n (s.entry n).value) := by
    simp [State.entry, hlt]
  have hok : (s.entry n).ok := State.entry_of_lt hlt ▸ hcache.2 _ (List.getElem_mem hlt)
  rw [hentry]
  refine ⟨rfl, CacheEntry.refreshed_of_dirty hok, fun hclean => ⟨?_, hclean⟩⟩
  simp [CacheEntry.refreshed, hclean, hvals]

/-- A second refresh with the same value changes nothing. R157. -/
theorem CacheEntry.refreshed_refreshed (e : CacheEntry) (vals : List Word) (i : Nat) :
    (e.refreshed (vals.getD i e.value)).refreshed (vals.getD i (e.refreshed (vals.getD i e.value)).value) =
      e.refreshed (vals.getD i e.value) := by
  unfold CacheEntry.refreshed
  cases hv : vals[i]? <;> cases hd : e.dirty <;> simp [List.getD_eq_getElem?_getD, hv]

/-- Settles O39. -/
theorem refreshIsIdempotent : Obligations.RefreshIsIdempotent := by
  intro s t u vals hs ht hvs hvt
  rw [fullContextRefresh_ok hvs] at hs
  rw [fullContextRefresh_ok hvt] at ht
  cases hs
  cases ht
  simp only [List.mapIdx_mapIdx, Function.comp_def, CacheEntry.refreshed_refreshed]

/-! Coprocessor hooks and export. R159 to R161. -/

/-- Settles O40. -/
theorem coprocessorPassThrough : Obligations.CoprocessorPassThrough := by
  refine fun s cs cp op1 op2 crn crm v hphase hbuilt => ⟨fun hinbox => ?_, fun hinbox => ?_⟩
  · refine (step_of_built hphase hbuilt hinbox rfl).trans ?_
    simp only [mrc]
    cases (s.transport.cpRead cp op1 op2 crn crm).1 <;> rfl
  · refine (step_of_built hphase hbuilt hinbox rfl).trans ?_
    simp only [mcr]
    cases (s.transport.cpWrite cp op1 op2 crn crm v).1 <;> rfl

/-- Settles O41: the list is a map over the cache, whose entries are 32 bits wide. -/
theorem registerListFollowsSlots : Obligations.RegisterListFollowsSlots := by
  intro s cs hphase hbuilt hcache hinbox
  have hlen := State.cache_length hbuilt hcache
  refine ⟨registerList s, step_of_built hphase hbuilt hinbox rfl, by simpa [registerList] using hlen, fun n hn => ?_⟩
  have hlt : n < s.cache.length := hlen.symm ▸ hn
  obtain ⟨hwidth, _⟩ := hcache.2 _ (List.getElem_mem hlt)
  simp [registerList, State.entry_of_lt hlt, hlt, hwidth]

end Sys2Proof.Machine
end

section
/-! PROOFS of the sequencer, second part: the access width, and Prepare: its tests in order, what it reads and what it saves. -/

namespace Sys2Proof.Machine

/-! The access width. R46. -/

/-- Settles O42, by the two tests of the width. -/
theorem accessWidthIsLargest : Obligations.AccessWidthIsLargest := by
  intro addr size
  unfold accessWidth
  split_ifs with h4 h2
  · exact ⟨.inl rfl, h4.1, h4.2, fun w hw _ _ => by omega⟩
  · refine ⟨.inr (.inl rfl), h2.1, h2.2, ?_⟩
    rintro w (rfl | rfl | rfl) ha hs
    · exact absurd ⟨ha, hs⟩ h4
    · exact Nat.le_refl 2
    · exact Nat.le_succ 1
  · refine ⟨.inr (.inr rfl), Nat.mod_one _, Nat.mod_one _, ?_⟩
    rintro w (rfl | rfl | rfl) ha hs
    · exact absurd ⟨ha, hs⟩ h4
    · exact absurd ⟨ha, hs⟩ h2
    · exact Nat.le_refl 1

/-! An accepted run. R171, R235. -/

theorem runAlgorithm_of_accepted {req : RunRequest} {s : State} (hspace : memParamsInSpace req = true)
    (hsized : memParamsSized req = true) : runAlgorithm req s = runPhases phaseCount (beginRun req s) := by
  simp [runAlgorithm, hspace, hsized]

theorem beginRun_ends (req : RunRequest) (s : State) :
    ∃ t r, runPhases phaseCount (beginRun req s) = .next t ∧ t.quiet ∧ t.reply = some (.run r) :=
  runPhases_ends (by simp [beginRun]) ⟨rfl, by simp [beginRun]⟩ (by simp [beginRun, Phase.rank, phaseCount])

theorem beginRun_steady (req : RunRequest) (s : State) : Steady s (beginRun req s) :=
  (Steady.refl s).same rfl rfl rfl rfl rfl

/-- Settles O43: the walk along the table ends at IDLE, and every transition of it is steady. -/
theorem runReturnsToIdle : Obligations.RunReturnsToIdle := by
  intro s cs req hphase hbuilt hinbox hspace hsized
  obtain ⟨t, r, hrun, hquiet, hreply⟩ := beginRun_ends req { s with inbox := cs }
  have hsteady := (beginRun_steady req { s with inbox := cs }).trans (runPhases_steady hrun)
  refine ⟨t, r, ?_, hreply, hquiet, hsteady.inbox, hsteady.params, hsteady.built.trans hbuilt⟩
  rw [step_runAlgorithm hphase hbuilt hinbox, runAlgorithm_of_accepted hspace hsized, hrun]

/-! Prepare, test by test. R172, R205 (c). -/

/-- The state in which Prepare tests and reads: nothing of an earlier run is left. R172. -/
def State.cleared (s : State) : State := { s with diag := [], harvest := [], bp := none, primary := none }

/-- The tests of Prepare that need no table are passed: the state has a calling convention and the addresses fit it. D29, D30. -/
def State.startable (s : State) (req : RunRequest) : Prop :=
  s.coreState = .thumb ∨ (s.coreState = .arm ∧ req.entry.toNat % 4 = 0 ∧ req.exit.toNat % 4 = 0)

theorem prepare_unsupported {req : RunRequest} {s : State} (h : s.coreState = .jazelle ∨ s.coreState = .thumbEE) :
    prepare req s = (.error .unsupportedState, s.cleared) := if_pos h

theorem prepare_badAddress {req : RunRequest} {s : State} (h : s.coreState = .arm)
    (haddr : req.entry.toNat % 4 ≠ 0 ∨ req.exit.toNat % 4 ≠ 0) : prepare req s = (.error .badAddress, s.cleared) :=
  (if_neg (by simp [h])).trans (if_pos ⟨h, haddr⟩)

theorem State.startable_iff {req : RunRequest} {s : State} :
    s.startable req ↔ ¬(s.coreState = .jazelle ∨ s.coreState = .thumbEE) ∧
      ¬(s.coreState = .arm ∧ (req.entry.toNat % 4 ≠ 0 ∨ req.exit.toNat % 4 ≠ 0)) := by
  unfold State.startable
  cases s.coreState <;> simp

theorem prepare_resolve_err {req : RunRequest} {s : State} {e : Error} (h : s.startable req)
    (hresolve : resolveSlots s.params.hasMon s.coreMode req.regParams = .err e) :
    prepare req s = (.error (prepareCauseOf e), s.cleared) := by
  obtain ⟨hstate, haddr⟩ := State.startable_iff.1 h
  simp only [prepare, if_neg hstate, if_neg haddr, hresolve, State.cleared]

theorem prepare_snapshot_ok {req : RunRequest} {s t : State} {slots : List Nat} {saved : List (Nat × Word)}
    (h : s.startable req) (hresolve : resolveSlots s.params.hasMon s.coreMode req.regParams = .ok slots)
    (hsnapshot : snapshot (saveSlots slots) s.cleared = (.ok saved, t)) :
    prepare req s = (.ok (), { t with regSlots := slots, saveList := saved }) := by
  obtain ⟨hstate, haddr⟩ := State.startable_iff.1 h
  rw [State.cleared] at hsnapshot
  simp only [prepare, if_neg hstate, if_neg haddr, hresolve, hsnapshot]

theorem prepare_snapshot_err {req : RunRequest} {s t : State} {slots : List Nat} {e : TransportError}
    (h : s.startable req) (hresolve : resolveSlots s.params.hasMon s.coreMode req.regParams = .ok slots)
    (hsnapshot : snapshot (saveSlots slots) s.cleared = (.err e, t)) :
    prepare req s = (.error (.transportError e), { t with saveList := [] }) := by
  obtain ⟨hstate, haddr⟩ := State.startable_iff.1 h
  rw [State.cleared] at hsnapshot
  simp only [prepare, if_neg hstate, if_neg haddr, hresolve, hsnapshot]

/-- Everything Prepare can do. R172. -/
theorem prepare_cases (req : RunRequest) (s : State) :
    (∃ c, prepare req s = (.error c, s.cleared)) ∨
    ∃ slots, s.startable req ∧ resolveSlots s.params.hasMon s.coreMode req.regParams = .ok slots ∧
      ((∃ saved t, snapshot (saveSlots slots) s.cleared = (.ok saved, t) ∧
          prepare req s = (.ok (), { t with regSlots := slots, saveList := saved })) ∨
        ∃ e t, snapshot (saveSlots slots) s.cleared = (.err e, t) ∧
          prepare req s = (.error (.transportError e), { t with saveList := [] })) := by
  by_cases hstate : s.coreState = .jazelle ∨ s.coreState = .thumbEE
  · exact .inl ⟨_, prepare_unsupported hstate⟩
  by_cases hbad : s.coreState = .arm ∧ (req.entry.toNat % 4 ≠ 0 ∨ req.exit.toNat % 4 ≠ 0)
  · exact .inl ⟨_, prepare_badAddress hbad.1 hbad.2⟩
  have hstart : s.startable req := State.startable_iff.2 ⟨hstate, hbad⟩
  cases hresolve : resolveSlots s.params.hasMon s.coreMode req.regParams with
  | err e => exact .inl ⟨_, prepare_resolve_err hstart hresolve⟩
  | ok slots =>
    refine .inr ⟨slots, hstart, rfl, ?_⟩
    cases hsnapshot : snapshot (saveSlots slots) s.cleared with
    | mk answer t =>
      cases answer with
      | ok saved => exact .inl ⟨saved, t, rfl, prepare_snapshot_ok hstart hresolve hsnapshot⟩
      | err e => exact .inr ⟨e, t, rfl, prepare_snapshot_err hstart hresolve hsnapshot⟩

/-- MAP's two errors. R141. -/
theorem mapRegister_err {hasMon : Bool} {coreMode m : ProcessorMode} {n : Nat} {e : Error}
    (h : mapRegister hasMon coreMode m n = .err e) : e = .invalidMode ∨ e = .invalidIndex := by
  cases hs : modeSupported hasMon (effectiveMode coreMode m) with
  | false => exact .inl (Res.err.inj (h.symm.trans (mapRegister_err_mode hs)))
  | true =>
    by_cases hn : 16 < n
    · exact .inr (Res.err.inj (h.symm.trans (mapRegister_err_index hs hn)))
    · obtain ⟨i, _, hmap⟩ := mapRegister_resolves hs (Nat.le_of_not_lt hn)
      cases h.symm.trans hmap

/-- Settles O44, test by test; after them only the snapshot can fail, by its last read. -/
theorem prepareChecksInOrder : Obligations.PrepareChecksInOrder := by
  intro req s
  refine ⟨fun h => ?state, fun h haddr => ?address, fun hstart => ⟨fun before p after e hparams hb hp => ?refused, fun hall => ?passed⟩⟩
  case state =>
    rw [prepare_unsupported h]
    exact ⟨rfl, rfl⟩
  case address =>
    rw [prepare_badAddress h haddr]
    exact ⟨rfl, rfl⟩
  case refused =>
    have hresolve := hparams ▸ resolveSlots_first (after := after) hb hp
    rw [prepare_resolve_err hstart hresolve]
    rcases mapRegister_err hp with rfl | rfl
    · exact ⟨.inl ⟨rfl, rfl⟩, rfl⟩
    · exact ⟨.inr ⟨rfl, rfl⟩, rfl⟩
  case passed =>
    obtain ⟨slots, hresolve⟩ := resolveSlots_ok hall
    cases hsnapshot : snapshot (saveSlots slots) s.cleared with
    | mk answer t =>
      cases answer with
      | ok saved =>
        rw [prepare_snapshot_ok hstart hresolve hsnapshot]
        exact .inl rfl
      | err e =>
        obtain ⟨n, reads, hlog, hreads⟩ := snapshot_err hsnapshot
        rw [prepare_snapshot_err hstart hresolve hsnapshot]
        exact .inr ⟨n, e, reads, rfl, rfl, hlog, hreads⟩

/-! What a snapshot does to the entries, whether it succeeds or not. R154, R172. -/

/-- `t` has the entries of `s`, but for invalid ones that a read among the calls `new` has filled. -/
def FilledBy (new : List Transaction) (s t : State) : Prop :=
  ∀ n, t.entry n = s.entry n ∨
    ((s.entry n).valid = false ∧ ∃ v, .readRegister n (.ok v) ∈ new ∧ t.entry n = (s.entry n).filled v)

theorem FilledBy.trans {a b c : State} {l l' : List Transaction} (h : FilledBy l a b) (h' : FilledBy l' b c) :
    FilledBy (l ++ l') a c := by
  intro n
  rcases h n with hab | ⟨hinv, v, hv, hab⟩
  · rcases h' n with hbc | ⟨hinv', w, hw, hbc⟩
    · exact .inl (hbc.trans hab)
    · exact .inr ⟨hab ▸ hinv', w, List.mem_append_right _ hw, hab ▸ hbc⟩
  · rcases h' n with hbc | ⟨hinv', _⟩
    · exact .inr ⟨hinv, v, List.mem_append_left _ hv, hbc.trans hab⟩
    · rw [hab] at hinv'
      cases hinv'

/-- A register read. R41. -/
def Transaction.isRegisterRead (x : Transaction) : Prop := ∃ n a, x = .readRegister n a

theorem readSlot_filled (n : Nat) (s : State) :
    ∃ new, (readSlot n s).2.transport.log = s.transport.log ++ new ∧ (∀ x ∈ new, x.isRegisterRead) ∧
      FilledBy new s (readSlot n s).2 := by
  rcases readSlot_cases n s with ⟨_, h⟩ | ⟨hinv, v, ha, h⟩ | ⟨_, e, ha, h⟩ <;> rw [h]
  · exact ⟨[], by simp, by simp, fun _ => .inl rfl⟩
  · refine ⟨[.readRegister n (.ok v)], by rw [← ha]; rfl, by simp [Transaction.isRegisterRead], fun k => ?_⟩
    by_cases hk : n = k
    · subst hk
      by_cases hlt : n < s.cache.length
      · exact .inr ⟨hinv, v, List.mem_singleton_self _, State.entry_setEntry_self (s := s.withTransport _) hlt⟩
      · left
        rw [State.entry_of_ge (by simpa using hlt), State.entry_of_ge (Nat.le_of_not_lt hlt)]
    · exact .inl (State.entry_setEntry_ne (s := s.withTransport _) hk)
  · exact ⟨[.readRegister n (.err e)], by rw [← ha]; rfl, by simp [Transaction.isRegisterRead], fun _ => .inl rfl⟩

theorem snapshot_filled (l : List Nat) (s : State) :
    ∃ new, (snapshot l s).2.transport.log = s.transport.log ++ new ∧ (∀ x ∈ new, x.isRegisterRead) ∧
      FilledBy new s (snapshot l s).2 := by
  induction l generalizing s with
  | nil => exact ⟨[], by simp [snapshot], by simp, fun _ => .inl rfl⟩
  | cons n l ih =>
    obtain ⟨first, hlog, hreads, hfilled⟩ := readSlot_filled n s
    unfold snapshot
    split
    case h_1 hread =>
      rw [hread] at hlog hfilled
      exact ⟨first, hlog, hreads, hfilled⟩
    case h_2 v u hread =>
      rw [hread] at hlog hfilled
      obtain ⟨rest, hlog', hreads', hfilled'⟩ := ih u
      have hall : ∀ x ∈ first ++ rest, x.isRegisterRead := fun x hx => (List.mem_append.1 hx).elim (hreads x) (hreads' x)
      have hsum : (snapshot l u).2.transport.log = s.transport.log ++ (first ++ rest) := by
        rw [hlog', hlog, List.append_assoc]
      split <;> rename_i hrest <;> rw [hrest] at hsum hfilled' <;> exact ⟨first ++ rest, hsum, hall, hfilled.trans hfilled'⟩

/-- Whatever Prepare answers, it has made register reads only and changed no entry but by filling invalid ones. R172. -/
theorem prepare_filled (req : RunRequest) (s : State) :
    ∃ new, (prepare req s).2.transport.log = s.transport.log ++ new ∧ (∀ x ∈ new, x.isRegisterRead) ∧
      FilledBy new s (prepare req s).2 := by
  rcases prepare_cases req s with ⟨c, h⟩ | ⟨slots, _, _, h⟩
  · rw [h]
    exact ⟨[], by simp [State.cleared], by simp, fun _ => .inl rfl⟩
  · have hfilled := snapshot_filled (saveSlots slots) s.cleared
    rcases h with ⟨saved, t, hsnapshot, h⟩ | ⟨e, t, hsnapshot, h⟩ <;> rw [hsnapshot] at hfilled <;> rw [h] <;> exact hfilled

/-- A step answers a run's result only by running the request. R171. -/
theorem step_runAlgorithm_next {s t : State} {req : RunRequest} {cs : List Command} (hphase : s.phase = .idle)
    (hinbox : s.inbox = .runAlgorithm req :: cs) (hstep : step s = .next t) :
    s.built = true ∧ runAlgorithm req { s with inbox := cs } = .next t := by
  rw [step_of_inbox_cons hphase hinbox, serve, withInstance] at hstep
  split at hstep
  case isTrue hbuilt => exact ⟨hbuilt, hstep⟩
  case isFalse => cases hstep

/-- Settles O45: such a run ended in Prepare, since no later end has its outcome. -/
theorem prepareFailureLeavesTarget : Obligations.PrepareFailureLeavesTarget := by
  intro s t cs req r c hphase hinbox hstep hreply houtcome
  obtain ⟨_, hrun⟩ := step_runAlgorithm_next hphase hinbox hstep
  rcases runAlgorithm_cases hrun with ⟨c', p, hprepare, rfl⟩ | ⟨p, _, o, x, _, _, hno, hend⟩
  · have hfilled := prepare_filled req (beginRun req { s with inbox := cs })
    have hframe := prepare_frame req (beginRun req { s with inbox := cs })
    rw [hprepare] at hfilled hframe
    obtain ⟨_, _, _, _, hmode, hstate⟩ := hframe
    exact ⟨hmode, hstate, hfilled⟩
  · have ho : r.outcome = o := by
      rcases hend with ⟨rfl, _⟩ | rfl <;> simp only [finish_reply, Option.some.injEq, Reply.run.injEq] at hreply <;>
        exact hreply ▸ rfl
    exact absurd (ho.symm.trans houtcome) (hno c)

/-- Settles O46, from what a successful snapshot of slots without repeats does. -/
theorem saveListHoldsPreRunValues : Obligations.SaveListHoldsPreRunValues := by
  intro req s t hbuilt _ hcache hprepare
  rcases prepare_cases req s with ⟨c, h⟩ | ⟨slots, _, hresolve, ⟨saved, u, hsnapshot, h⟩ | ⟨e, u, _, h⟩⟩ <;>
    rw [hprepare] at h <;> cases h
  obtain ⟨hlen, hmap⟩ := resolveSlots_map hresolve
  have hnames : (saved.map fun q => q.1) = saveSlots slots := snapshot_slots hsnapshot
  have hnodup : (saveSlots slots).Nodup := dedupKeepFirst_nodup _
  have hslots : ∀ n ∈ saveSlots slots, n < s.cleared.cache.length := by
    intro n hn
    obtain ⟨q, hq, rfl⟩ := List.mem_map.1 (hnames ▸ hn)
    exact (State.cache_length hbuilt hcache).symm ▸ (prepare_saveList hprepare).2 q hq
  obtain ⟨hlog, hsaved, hother⟩ := snapshot_ok hsnapshot hnodup hslots
  have hframe : CacheAndBusOnly s.cleared u := by
    have hop := (snapshot_op (saveSlots slots) s.cleared).frame
    rwa [hsnapshot] at hop
  refine ⟨?_, hlen, hmap, hnames.trans (dedupKeepFirst_eq_eraseDups _), hnames ▸ hnodup, hlog, hsaved,
    fun n hn => hother n (hnames ▸ hn)⟩
  rw [hframe]
  rfl

end Sys2Proof.Machine
end

section
/-! PROOFS of the sequencer, third part: Install, Arm exit, Resume and Await, each phase of R171 by what its calls answer. -/

namespace Sys2Proof.Machine

/-! Install: the memory parameters. R46, R173. -/

/-- The parameter is written by a call of its own in Install. R173. -/
abbrev MemParam.isWritten (p : MemParam) : Bool := p.dir.writes && decide (p.size ≠ 0)

/-- The call that writes a memory parameter, with its answer. R46. -/
abbrev MemParam.writeCall (p : MemParam) (a : Answer Unit) : Transaction :=
  .writeMemory p.addr (accessWidth p.addr p.size) (p.size / accessWidth p.addr p.size) p.value a

/-- `MemWrite` of a parameter: no call for size 0, else the one call. R46. -/
theorem memWrite_param (t : Transport) (p : MemParam) :
    (p.size = 0 ∧ t.memWrite p.addr p.size p.value = (.ok (), t)) ∨
      (p.size ≠ 0 ∧ (t.memWrite p.addr p.size p.value).2.log =
        t.log ++ [p.writeCall (t.memWrite p.addr p.size p.value).1]) := by
  unfold Transport.memWrite
  by_cases h : p.size = 0
  · exact .inl ⟨h, if_pos h⟩
  · rw [if_neg h]
    exact .inr ⟨h, Transport.writeMemory_log _ _ _ _ _⟩

theorem installMemory_ok {l : List MemParam} {s t : State} (h : installMemory l s = (.ok (), t)) :
    t.transport.log = s.transport.log ++ (l.filter MemParam.isWritten).map fun p => p.writeCall (.ok ()) := by
  induction l generalizing s with
  | nil => cases h; simp
  | cons p l ih =>
    unfold installMemory at h
    split at h
    case isFalse hw =>
      rw [ih h, List.filter_cons_of_neg (by simp [hw])]
    case isTrue hw =>
      have hcall := memWrite_param s.transport p
      split at h
      case h_2 => cases h
      case h_1 u hwrite =>
        rw [hwrite] at hcall
        rw [ih h]
        rcases hcall with ⟨hsize, hnone⟩ | ⟨hsize, hone⟩
        · cases hnone
          rw [List.filter_cons_of_neg (by simp [hsize])]
          rfl
        · rw [List.filter_cons_of_pos (by simp [hw, hsize]), State.withTransport_transport, hone]
          simp

theorem installMemory_err {l : List MemParam} {s t : State} {e : TransportError} (h : installMemory l s = (.err e, t)) :
    ∃ l1 p l2, l = l1 ++ p :: l2 ∧ p.dir.writes = true ∧ p.size ≠ 0 ∧
      t.transport.log = s.transport.log ++ ((l1.filter MemParam.isWritten).map fun p => p.writeCall (.ok ())) ++
        [p.writeCall (.err e)] := by
  induction l generalizing s with
  | nil => cases h
  | cons p l ih =>
    unfold installMemory at h
    split at h
    case isFalse hw =>
      obtain ⟨l1, q, l2, rfl, hq, hsize, hlog⟩ := ih h
      exact ⟨p :: l1, q, l2, rfl, hq, hsize, by rw [hlog, List.filter_cons_of_neg (by simp [hw])]⟩
    case isTrue hw =>
      have hcall := memWrite_param s.transport p
      split at h
      case h_2 u hwrite =>
        cases h
        rw [hwrite] at hcall
        rcases hcall with ⟨_, hnone⟩ | ⟨hsize, hone⟩
        · cases hnone
        · exact ⟨[], p, l, rfl, hw, hsize, by simpa using hone⟩
      case h_1 u hwrite =>
        obtain ⟨l1, q, l2, rfl, hq, hsize, hlog⟩ := ih h
        refine ⟨p :: l1, q, l2, rfl, hq, hsize, ?_⟩
        rw [hwrite] at hcall
        rw [hlog]
        rcases hcall with ⟨hsize, hnone⟩ | ⟨hsize, hone⟩
        · cases hnone
          rw [List.filter_cons_of_neg (by simp [hsize])]
          rfl
        · rw [List.filter_cons_of_pos (by simp [hw, hsize]), State.withTransport_transport, hone]
          simp

/-! Install: the register parameters. R173. -/

/-- The parameter is written to slot `n`. -/
abbrev writesTo (n : Nat) (p : RegParam × Nat) : Bool := p.1.dir.writes && decide (p.2 = n)

/-- What the later parameters of a list leave in an entry: the last value written to it, else the entry. R173. -/
def lastWrite (l : List (RegParam × Nat)) (n : Nat) (e : CacheEntry) : CacheEntry :=
  ((l.filter (writesTo n)).getLast?).elim e fun p => e.pending p.1.value

theorem lastWrite_cons_of_neg {p : RegParam × Nat} {l : List (RegParam × Nat)} {n : Nat} {e : CacheEntry}
    (h : writesTo n p = false) : lastWrite (p :: l) n e = lastWrite l n e := by
  rw [lastWrite, List.filter_cons_of_neg (by simp [h]), lastWrite]

theorem lastWrite_cons_of_pos {p : RegParam × Nat} {l : List (RegParam × Nat)} {n : Nat} {e : CacheEntry}
    (h : writesTo n p = true) : lastWrite (p :: l) n e = lastWrite l n (e.pending p.1.value) := by
  rw [lastWrite, List.filter_cons_of_pos h, List.getLast?_cons, lastWrite]
  cases (l.filter (writesTo n)).getLast? <;> rfl

/-- Over entries of the cache that are valid, the loop writes the cache only, the last value of each slot. R173. -/
theorem installRegisters_valid (l : List (RegParam × Nat)) (s : State)
    (h : ∀ p ∈ l, p.1.dir.writes = true → p.2 < s.cache.length ∧ (s.entry p.2).valid = true) :
    installRegisters l s = { s with cache := (installRegisters l s).cache } ∧
      ∀ n, (installRegisters l s).entry n = lastWrite l n (s.entry n) := by
  induction l generalizing s with
  | nil => exact ⟨rfl, fun _ => rfl⟩
  | cons q l ih =>
    obtain ⟨p, slot⟩ := q
    unfold installRegisters
    by_cases hw : p.dir.writes = true
    · obtain ⟨hlt, hvalid⟩ := h (p, slot) List.mem_cons_self hw
      have hself : (s.setEntry slot ((s.entry slot).pending p.value)).entry slot = (s.entry slot).pending p.value :=
        State.entry_setEntry_self hlt
      rw [if_pos hw, writeSlot_of_valid hvalid]
      obtain ⟨hframe, hentry⟩ := ih (s.setEntry slot ((s.entry slot).pending p.value)) fun x hx hxw => by
        obtain ⟨hxlt, hxvalid⟩ := h x (List.mem_cons_of_mem _ hx) hxw
        refine ⟨by simpa using hxlt, ?_⟩
        by_cases hslot : slot = x.2
        · rw [← hslot, hself]; rfl
        · rwa [State.entry_setEntry_ne hslot]
      refine ⟨by rw [hframe]; rfl, fun n => ?_⟩
      rw [hentry]
      by_cases hslot : slot = n
      · subst hslot
        rw [hself, lastWrite_cons_of_pos (by simp [hw])]
      · rw [State.entry_setEntry_ne hslot, lastWrite_cons_of_neg (by simp [hslot])]
    · rw [if_neg hw]
      obtain ⟨hframe, hentry⟩ := ih s fun x hx => h x (List.mem_cons_of_mem _ hx)
      exact ⟨hframe, fun n => by rw [hentry, lastWrite_cons_of_neg (by simp [hw])]⟩

theorem installPhase_of_err {req : RunRequest} {s t : State} {e : TransportError}
    (h : installMemory req.memParams s = (.err e, t)) :
    installPhase req s = finish (.failed (.transportError e)) (rollback t) := by
  simp only [installPhase, h]

theorem installPhase_of_ok {req : RunRequest} {s t : State} (h : installMemory req.memParams s = (.ok (), t)) :
    installPhase req s = { installRegisters (req.regParams.zip t.regSlots) t with phase := .armExit } := by
  simp only [installPhase, h]

/-- The memory loop changes the transport only. R173. -/
theorem installMemory_frame {l : List MemParam} {s t : State} {a : Answer Unit} (h : installMemory l s = (a, t)) :
    t = s.withTransport t.transport := by
  have hframe := (installMemory_op l s).1
  rwa [h] at hframe

/-- Settles O47: the memory loop by induction over the parameters, then the phase by the loop's answer. -/
theorem installWritesMemoryInOrder : Obligations.InstallWritesMemoryInOrder := by
  refine ⟨fun l s t h => ⟨installMemory_frame h, installMemory_ok h⟩,
    fun l s t e h => ⟨installMemory_frame h, installMemory_err h⟩, fun req s t => ⟨fun e h => ?failed, fun h hslots => ?passed⟩⟩
  case failed =>
    have hsaved : t.saveList = s.saveList := by rw [installMemory_frame h]; rfl
    rw [installPhase_of_err h, rollback, hsaved]
  case passed =>
    have ht := installMemory_frame h
    have hregs : t.regSlots = s.regSlots := by rw [ht]; rfl
    have hentry : ∀ n, t.entry n = s.entry n := by rw [ht]; exact fun _ => rfl
    have hlen : t.cache.length = s.cache.length := by rw [ht]; rfl
    rw [installPhase_of_ok h]
    obtain ⟨hframe, hlast⟩ := installRegisters_valid (req.regParams.zip t.regSlots) t fun p hp hw => by
      rw [hregs] at hp
      rw [hlen, hentry]
      exact hslots p hp hw
    refine ⟨?_, (installRegisters_op _ t).cache.length.trans hlen, fun n => (hlast n).trans ?_⟩
    · rw [hframe]
    rw [hentry, lastWrite, hregs]
    cases ((req.regParams.zip s.regSlots).filter (writesTo n)).getLast? <;> rfl

/-! Arm exit. R174. -/

theorem armExitPhase_of_ok {req : RunRequest} {s : State} {h : Nat}
    (hset : (s.transport.setBreakpoint (exitAddress s.coreState req.exit)).1 = .ok h) :
    armExitPhase req s = { s.withTransport (s.transport.setBreakpoint (exitAddress s.coreState req.exit)).2 with
      bp := some h, phase := .resume } := by
  unfold armExitPhase
  split <;> rename_i heq <;> rw [heq] at hset ⊢ <;> cases hset
  rfl

theorem armExitPhase_of_err {req : RunRequest} {s : State} {e : TransportError}
    (hset : (s.transport.setBreakpoint (exitAddress s.coreState req.exit)).1 = .err e) :
    armExitPhase req s = finish (.failed (.breakpointSetupFailed e))
      (rollback (s.withTransport (s.transport.setBreakpoint (exitAddress s.coreState req.exit)).2)) := by
  unfold armExitPhase
  split <;> rename_i heq <;> rw [heq] at hset ⊢ <;> cases hset
  rfl

/-- Settles O48. -/
theorem entryAndExitAddresses : Obligations.EntryAndExitAddresses := by
  refine ⟨fun req s a ha => ?_, fun _ => ⟨rfl, rfl, rfl, rfl⟩⟩
  have hexit : exitAddress s.coreState req.exit = a := ha.symm
  rw [← hexit]
  exact ⟨fun _ => armExitPhase_of_ok, fun _ => armExitPhase_of_err⟩

/-! Resume. R175, R158. -/

/-- The state that Resume flushes: the PC's entry holds the entry address, pending. R175. -/
def State.withEntryPc (req : RunRequest) (s : State) : State :=
  (writeSlot pcSlot (pcEntry s.params.pcEntry s.coreState req.entry) s).2

theorem resumePhase_of_flush_err {req : RunRequest} {s t : State} {e : TransportError}
    (h : flush (s.withEntryPc req) = (.err e, t)) :
    resumePhase req s = { t with primary := some (.failed (.transportError e)), phase := .cleanup } := by
  rw [State.withEntryPc] at h
  simp only [resumePhase, h]

theorem resumePhase_of_resume_err {req : RunRequest} {s t : State} {e : TransportError}
    (h : flush (s.withEntryPc req) = (.ok (), t)) (hresume : t.transport.resume.1 = .err e) :
    resumePhase req s = { t.withTransport t.transport.resume.2 with
      primary := some (.failed (.transportError e)), phase := .cleanup } := by
  rw [State.withEntryPc] at h
  simp only [resumePhase, h]
  split <;> rename_i heq <;> rw [heq] at hresume ⊢ <;> cases hresume
  rfl

theorem resumePhase_of_ok {req : RunRequest} {s t : State} (h : flush (s.withEntryPc req) = (.ok (), t))
    (hresume : t.transport.resume.1 = .ok ()) :
    resumePhase req s = { invalidateAll (t.withTransport t.transport.resume.2) with phase := .await } := by
  rw [State.withEntryPc] at h
  simp only [resumePhase, h]
  split <;> rename_i heq <;> rw [heq] at hresume ⊢
  cases hresume

/-- Resume goes on to Await only when flush and resume have succeeded. R175. -/
theorem resumePhase_await {req : RunRequest} {s : State} (h : (resumePhase req s).phase = .await) :
    ∃ t, flush (s.withEntryPc req) = (.ok (), t) ∧ t.transport.resume.1 = .ok () := by
  cases hflush : flush (s.withEntryPc req) with
  | mk a t =>
    cases a with
    | err e => rw [resumePhase_of_flush_err hflush] at h; cases h
    | ok =>
      cases hresume : t.transport.resume.1 with
      | ok => exact ⟨t, rfl, hresume⟩
      | err e => rw [resumePhase_of_resume_err hflush hresume] at h; cases h

theorem invalidateAll_forgets {s : State} {e : CacheEntry} (h : e ∈ (invalidateAll s).cache) :
    e.valid = false ∧ e.dirty = false := by
  obtain ⟨i, hi, rfl⟩ := List.mem_mapIdx.1 h
  exact ⟨rfl, rfl⟩

/-- The calls of a flush that succeeds. R156. -/
def State.flushCalls (s : State) : List Transaction :=
  ((List.range s.slots).filter fun n => (s.entry n).dirty).map fun n => .writeRegister n (s.entry n).value (.ok ())

theorem State.mem_flushCalls {s : State} {n : Nat} (hn : n < s.slots) (hd : (s.entry n).dirty = true) :
    Transaction.writeRegister n (s.entry n).value (.ok ()) ∈ s.flushCalls :=
  List.mem_map.2 ⟨n, List.mem_filter.2 ⟨List.mem_range.2 hn, hd⟩, rfl⟩

/-- A flush leaves validity and value of every entry alone. R156. -/
theorem flush_keeps_values {s t : State} {a : Answer Unit} (hbuilt : s.built = true) (hcache : s.cacheOk)
    (h : flush s = (a, t)) (n : Nat) : (t.entry n).valid = (s.entry n).valid ∧ (t.entry n).value = (s.entry n).value := by
  cases a with
  | ok =>
    obtain ⟨_, _, hentry⟩ := flush_ok hbuilt hcache h
    rw [hentry]
    exact ⟨rfl, rfl⟩
  | err e =>
    obtain ⟨k, _, _, _, _, hbelow, habove⟩ := flush_err hbuilt hcache h
    by_cases hn : n < k
    · rw [hbelow n hn]
      exact ⟨rfl, rfl⟩
    · rw [habove n (Nat.le_of_not_lt hn)]
      exact ⟨rfl, rfl⟩

theorem RegisterOp.cacheOk {s t : State} (h : RegisterOp s t) (hc : s.cacheOk) : t.cacheOk := by
  have hframe := h.frame
  unfold CacheAndBusOnly at hframe
  obtain ⟨hnames, hok⟩ := h.cache
  refine ⟨?_, hok hc.2⟩
  rw [hnames, hframe]
  exact hc.1

/-- Settles O49: `u` is the state that Resume flushes, and the phase follows the answers of flush and resume. -/
theorem resumeFlushesThenForgets : Obligations.ResumeFlushesThenForgets := by
  intro req s u hbuilt hcache hvalid hu
  have hwrite := writeSlot_of_valid (v := pcEntry s.params.pcEntry s.coreState req.entry) hvalid
  have hpc : s.withEntryPc req = u := by rw [hu, State.withEntryPc, pcSlot, hwrite]; rfl
  have hop : RegisterOp s u := hpc ▸ writeSlot_op pcSlot _ s
  have hubuilt : u.built = true := by rw [hu]; exact hbuilt
  have hucache : u.cacheOk := hop.cacheOk hcache
  refine ⟨fun t hflush hresume => ?await, fun hawait => ?passed, fun t e hflush => ?flushErr, fun t e hflush hresume => ?resumeErr⟩
  case await => rw [resumePhase_of_ok (hpc ▸ hflush) hresume]
  case flushErr => exact ⟨resumePhase_of_flush_err (hpc ▸ hflush), flush_keeps_values hubuilt hucache hflush⟩
  case resumeErr => exact ⟨resumePhase_of_resume_err (hpc ▸ hflush) hresume, flush_keeps_values hubuilt hucache hflush⟩
  case passed =>
    obtain ⟨t, hflush, hresume⟩ := resumePhase_await hawait
    rw [resumePhase_of_ok hflush hresume]
    rw [hpc] at hflush
    obtain ⟨hframe, hlog, _⟩ := flush_ok hubuilt hucache hflush
    have hslots : u.slots = s.slots := by rw [hu]; rfl
    have hbus : u.transport = s.transport := by rw [hu]
    have h15 : 15 < u.slots := by unfold State.slots nslot; split <;> decide
    have hpending : u.entry 15 = (s.entry 15).pending (pcEntry s.params.pcEntry s.coreState req.entry) := by
      rw [hu]
      exact State.entry_setEntry_self (by rw [State.cache_length hbuilt hcache, ← hslots]; exact h15)
    have hother : ∀ n, n ≠ 15 → u.entry n = s.entry n := fun n hn => by
      rw [hu]
      exact State.entry_setEntry_ne (Ne.symm hn)
    refine ⟨⟨u.flushCalls, ?log, ?pc, fun n hn hne hd => ?dirty⟩, fun e he => invalidateAll_forgets he, ?frame⟩
    case log =>
      change (t.transport.resume).2.log = _
      rw [Transport.resume_log, hresume, hlog, hbus]
      rfl
    case pc =>
      have hmem := State.mem_flushCalls h15 (by rw [hpending]; rfl)
      rwa [hpending] at hmem
    case dirty =>
      have hmem := State.mem_flushCalls (hslots ▸ hn) (by rwa [hother n hne])
      rwa [hother n hne] at hmem
    case frame =>
      unfold CacheAndBusOnly at hframe
      rw [hframe, hu]
      rfl

/-! Await. R176. -/

theorem atExit_iff {bp : Option Nat} {c : HaltCause} : atExit bp c = true ↔ ∃ h, bp = some h ∧ c = .breakpoint h := by
  cases c <;> simp [atExit]

/-- Settles O50, by the answer of the one poll. -/
theorem awaitHasThreeOutcomes : Obligations.AwaitHasThreeOutcomes := by
  refine fun req s => ⟨fun h hpoll hbp => ?exit, fun c hpoll hne => ?fault, fun hpoll => ?timeout⟩
  case exit =>
    unfold awaitPhase
    split <;> rename_i heq <;> rw [heq] at hpoll ⊢ <;> cases hpoll
    rw [if_pos (atExit_iff.2 ⟨h, hbp, rfl⟩)]
    rfl
  case fault =>
    unfold awaitPhase
    split <;> rename_i heq <;> rw [heq] at hpoll ⊢ <;> cases hpoll
    rw [if_neg fun hexit => (atExit_iff.1 hexit).elim fun h hh => hne h hh.1 hh.2]
    rfl
  case timeout =>
    unfold awaitPhase
    split <;> rename_i heq <;> rw [heq] at hpoll ⊢ <;> cases hpoll
    split <;> rename_i hhalt <;> rw [hhalt] <;> simp

end Sys2Proof.Machine
end

section
/-! PROOFS of the sequencer, fourth part: Harvest as two folds over the output parameters. R177. -/

namespace Sys2Proof.Machine

/-! What an item of the harvest is about. -/

/-- The parameter an item answers for. -/
def HarvestItem.param : HarvestItem → MemParam ⊕ RegParam
  | .mem p _ => .inl p
  | .reg p _ => .inr p

/-- The memory call that an item records: none for a parameter of size 0, none for a register. R46, R177. -/
def HarvestItem.memoryCall : HarvestItem → Option Transaction
  | .mem p r =>
    if p.size = 0 then none
    else some (.readMemory p.addr (accessWidth p.addr p.size) (p.size / accessWidth p.addr p.size) r)
  | .reg _ _ => none

/-- An item of a memory parameter of size 0 carries no byte. R177. -/
def HarvestItem.emptyRead (x : HarvestItem) : Prop := ∀ p r, x = .mem p r → p.size = 0 → r = .ok []

/-! The two attempts. -/

/-- The attempt of one output memory parameter. R177. -/
def harvestMem (t : State) (p : MemParam) : State :=
  { t with
    transport := (t.transport.memRead p.addr p.size).2
    harvest := t.harvest ++ [.mem p (t.transport.memRead p.addr p.size).1] }

/-- The attempt of one output register parameter. R177. -/
def harvestReg (t : State) (x : RegParam × Nat) : State :=
  { (readSlot x.2 t).2 with harvest := t.harvest ++ [.reg x.1 (readSlot x.2 t).1] }

theorem harvestMemory_eq_foldl (l : List MemParam) (s : State) :
    harvestMemory l s = (l.filter fun p => p.dir.reads).foldl harvestMem s := by
  induction l generalizing s with
  | nil => rfl
  | cons p l ih =>
    unfold harvestMemory
    by_cases h : p.dir.reads = true
    · rw [if_pos h, List.filter_cons_of_pos (by exact h), List.foldl_cons]
      exact ih (harvestMem s p)
    · rw [if_neg h, List.filter_cons_of_neg (by exact h)]
      exact ih s

theorem readSlot_harvest (n : Nat) (s : State) : (readSlot n s).2.harvest = s.harvest := by
  have h := (readSlot_op n s).frame
  unfold CacheAndBusOnly at h
  rw [h]

theorem harvestRegisters_eq_foldl (l : List (RegParam × Nat)) (s : State) :
    harvestRegisters l s = (l.filter fun x => x.1.dir.reads).foldl harvestReg s := by
  induction l generalizing s with
  | nil => rfl
  | cons x l ih =>
    obtain ⟨p, slot⟩ := x
    unfold harvestRegisters
    by_cases h : p.dir.reads = true
    · rw [if_pos h, List.filter_cons_of_pos (by exact h), List.foldl_cons, harvestReg, ← readSlot_harvest slot s]
      exact ih _
    · rw [if_neg h, List.filter_cons_of_neg (by exact h)]
      exact ih s

/-- `t` differs from `s` in cache, transport and harvest only. R177. -/
def HarvestFrame (s t : State) : Prop := t = { s with cache := t.cache, transport := t.transport, harvest := t.harvest }

theorem HarvestFrame.trans {a b c : State} (h : HarvestFrame a b) (h' : HarvestFrame b c) : HarvestFrame a c := by
  unfold HarvestFrame at *
  rw [h', h]

theorem harvestReg_frame (s : State) (x : RegParam × Nat) : HarvestFrame s (harvestReg s x) := by
  have h := (readSlot_op x.2 s).frame
  unfold CacheAndBusOnly at h
  rw [HarvestFrame, harvestReg, h]

/-! What the memory loop adds. -/

theorem memRead_memoryCall (t : Transport) (p : MemParam) :
    (t.memRead p.addr p.size).2.log = t.log ++ (HarvestItem.mem p (t.memRead p.addr p.size).1).memoryCall.toList := by
  by_cases h : p.size = 0 <;> simp [Transport.memRead, HarvestItem.memoryCall, h]

theorem memRead_emptyRead (t : Transport) (p : MemParam) : (HarvestItem.mem p (t.memRead p.addr p.size).1).emptyRead := by
  rintro _ _ ⟨⟩ hsize
  simp [Transport.memRead, hsize]

/-- The memory loop: its frame, one item per parameter, and one call per item of non-zero size. R177. -/
theorem foldl_harvestMem (l : List MemParam) (s : State) :
    HarvestFrame s (l.foldl harvestMem s) ∧ (l.foldl harvestMem s).cache = s.cache ∧
      ∃ items, (l.foldl harvestMem s).harvest = s.harvest ++ items ∧ items.map HarvestItem.param = l.map Sum.inl ∧
        (∀ x ∈ items, x.emptyRead) ∧
        (l.foldl harvestMem s).transport.log = s.transport.log ++ items.filterMap HarvestItem.memoryCall := by
  induction l generalizing s with
  | nil => exact ⟨rfl, rfl, [], by simp⟩
  | cons p l ih =>
    obtain ⟨hframe, hcache, items, hitems, hparams, hempty, hlog⟩ := ih (harvestMem s p)
    have hstep : HarvestFrame s (harvestMem s p) := rfl
    refine ⟨hstep.trans hframe, hcache, .mem p (s.transport.memRead p.addr p.size).1 :: items, ?harvest, ?params, ?empty, ?log⟩
    case harvest => rw [List.foldl_cons, hitems, harvestMem, List.append_assoc]; rfl
    case params => rw [List.map_cons, hparams]; rfl
    case empty => exact List.forall_mem_cons.2 ⟨memRead_emptyRead _ p, hempty⟩
    case log =>
      rw [List.foldl_cons, hlog]
      change (s.transport.memRead p.addr p.size).2.log ++ _ = _
      rw [memRead_memoryCall, List.append_assoc, List.filterMap_cons]
      cases (HarvestItem.mem p (s.transport.memRead p.addr p.size).1).memoryCall <;> rfl

/-! What the register loop adds. -/

/-- The attempt makes one call for an invalid entry and none for a valid one; it makes no entry invalid, and touches no other
slot's. R154, R177. -/
theorem harvestReg_call (x : RegParam × Nat) (s : State) :
    (harvestReg s x).transport.log =
        s.transport.log ++ (if (s.entry x.2).valid then [] else [.readRegister x.2 (readSlot x.2 s).1]) ∧
      (∀ k, x.2 ≠ k → (harvestReg s x).entry k = s.entry k) ∧
      (((harvestReg s x).entry x.2).valid = false → (s.entry x.2).valid = false) := by
  unfold harvestReg
  rcases readSlot_cases x.2 s with ⟨hv, h⟩ | ⟨hv, v, ha, h⟩ | ⟨hv, e, ha, h⟩ <;> rw [h]
  · exact ⟨by simp [hv], fun _ _ => rfl, id⟩
  · exact ⟨by simp [hv, ha], fun k hk => State.entry_setEntry_ne (s := s) hk, fun _ => hv⟩
  · exact ⟨by simp [hv, ha], fun k _ => rfl, fun _ => hv⟩

/-- What the register loop over `l` from `s` may add: items and calls. R177. -/
structure HarvestedRegisters (l : List (RegParam × Nat)) (s : State) (items : List HarvestItem) (calls : List Transaction) :
    Prop where
  params : items.map HarvestItem.param = l.map fun x => Sum.inr x.1
  /-- Each call is a read of a parameter's slot, with the answer that the parameter's item carries. -/
  reads : ∀ c ∈ calls, ∃ x ∈ l, ∃ a, c = .readRegister x.2 a ∧ .reg x.1 a ∈ items
  /-- A slot that is read has an invalid entry. -/
  invalid : ∀ n a, .readRegister n a ∈ calls → (s.entry n).valid = false
  /-- A slot with an invalid entry is read. -/
  read : ∀ x ∈ l, (s.entry x.2).valid = false → ∃ a, .readRegister x.2 a ∈ calls

theorem HarvestedRegisters.cons {x : RegParam × Nat} {l : List (RegParam × Nat)} {s : State} {items : List HarvestItem}
    {calls : List Transaction} (h : HarvestedRegisters l (harvestReg s x) items calls) :
    HarvestedRegisters (x :: l) s (.reg x.1 (readSlot x.2 s).1 :: items)
      ((if (s.entry x.2).valid then [] else [.readRegister x.2 (readSlot x.2 s).1]) ++ calls) := by
  obtain ⟨-, hother, hself⟩ := harvestReg_call x s
  refine ⟨?params, ?reads, ?invalid, ?read⟩
  case params => rw [List.map_cons, h.params]; rfl
  case reads =>
    intro c hc
    rcases List.mem_append.1 hc with hhead | htail
    · split at hhead
      · cases hhead
      · exact ⟨x, List.mem_cons_self, _, List.mem_singleton.1 hhead, List.mem_cons_self⟩
    · obtain ⟨y, hy, a, ha, hitem⟩ := h.reads c htail
      exact ⟨y, List.mem_cons_of_mem _ hy, a, ha, List.mem_cons_of_mem _ hitem⟩
  case invalid =>
    intro n a hc
    rcases List.mem_append.1 hc with hhead | htail
    · split at hhead
      case isTrue => cases hhead
      case isFalse hv =>
        cases List.mem_singleton.1 hhead
        simpa using hv
    · have hlater := h.invalid n a htail
      by_cases hn : x.2 = n
      · rw [← hn] at hlater ⊢
        exact hself hlater
      · rwa [hother n hn] at hlater
  case read =>
    intro y hy hv
    by_cases hslot : x.2 = y.2
    · rw [hslot, hv]
      exact ⟨_, List.mem_append_left _ (List.mem_singleton.2 rfl)⟩
    · have hyl : y ∈ l := (List.mem_cons.1 hy).resolve_left fun heq => hslot (by rw [heq])
      obtain ⟨a, ha⟩ := h.read y hyl (by rwa [hother _ hslot])
      exact ⟨a, List.mem_append_right _ ha⟩

/-- The register loop: its frame, its items and its calls. R177. -/
theorem foldl_harvestReg (l : List (RegParam × Nat)) (s : State) :
    HarvestFrame s (l.foldl harvestReg s) ∧
    ∃ items calls, (l.foldl harvestReg s).harvest = s.harvest ++ items ∧
      (l.foldl harvestReg s).transport.log = s.transport.log ++ calls ∧ HarvestedRegisters l s items calls := by
  induction l generalizing s with
  | nil => exact ⟨rfl, [], [], by simp, by simp, rfl, by simp, by simp, by simp⟩
  | cons x l ih =>
    obtain ⟨hframe, items, calls, hitems, hlog, hharvested⟩ := ih (harvestReg s x)
    obtain ⟨hcall, -, -⟩ := harvestReg_call x s
    refine ⟨(harvestReg_frame s x).trans hframe, _, _, ?harvest, ?log, hharvested.cons⟩
    case harvest => rw [List.foldl_cons, hitems, harvestReg, List.append_assoc]; rfl
    case log => rw [List.foldl_cons, hlog, hcall, List.append_assoc]

/-! Lists of parameters. -/

theorem filter_zip_map_fst {α β : Type} (q : α → Bool) {as : List α} {bs : List β} (h : bs.length = as.length) :
    ((as.zip bs).filter fun x => q x.1).map Prod.fst = as.filter q := by
  have hmap : (as.zip bs).map Prod.fst = as := List.map_fst_zip (Nat.le_of_eq h.symm)
  conv_rhs => rw [← hmap, List.filter_map]
  rfl

/-- No item of a register parameter is a memory item. -/
theorem HarvestedRegisters.not_mem {l : List (RegParam × Nat)} {s : State} {items : List HarvestItem}
    {calls : List Transaction} (h : HarvestedRegisters l s items calls) {p : MemParam} {r : Answer (List Byte)} :
    HarvestItem.mem p r ∉ items := fun hmem => by
  have hp := List.mem_map_of_mem (f := HarvestItem.param) hmem
  rw [h.params] at hp
  obtain ⟨_, _, hx⟩ := List.mem_map.1 hp
  cases hx

theorem HarvestedRegisters.memoryCalls {l : List (RegParam × Nat)} {s : State} {items : List HarvestItem}
    {calls : List Transaction} (h : HarvestedRegisters l s items calls) : items.filterMap HarvestItem.memoryCall = [] :=
  List.filterMap_eq_nil_iff.2 fun x hx => by
    cases x with
    | mem p r => exact absurd hx h.not_mem
    | reg p r => rfl

/-- Settles O51: the two loops one after the other, the register loop from the state that the memory loop left. -/
theorem harvestAttemptsEveryOutput : Obligations.HarvestAttemptsEveryOutput := by
  intro req s hnil hlen
  dsimp only
  set mems := req.memParams.filter fun p => p.dir.reads
  set regs := (req.regParams.zip s.regSlots).filter fun x => x.1.dir.reads
  obtain ⟨hmframe, hmcache, mitems, hmitems, hmparams, hmempty, hmlog⟩ := foldl_harvestMem mems s
  obtain ⟨hrframe, ritems, calls, hritems, hrlog, hharvested⟩ := foldl_harvestReg regs (mems.foldl harvestMem s)
  have hphase : harvestPhase req s = { regs.foldl harvestReg (mems.foldl harvestMem s) with phase := .cleanup } := by
    rw [harvestPhase, harvestRegisters_eq_foldl, harvestMemory_eq_foldl]
  have hharvest : (harvestPhase req s).harvest = mitems ++ ritems := by
    rw [hphase]
    exact hritems.trans (by rw [hmitems, hnil, List.nil_append])
  have hentry : ∀ n, (mems.foldl harvestMem s).entry n = s.entry n := fun n => by rw [State.entry, hmcache, State.entry]
  rw [hharvest]
  refine ⟨hphase, ?frame, ?params, ?empty, calls, ?log, fun c hc => ?reads, fun x hx => ⟨fun hv => ?read, ?invalid⟩⟩
  case frame =>
    have hframe := hmframe.trans hrframe
    unfold HarvestFrame at hframe
    rw [← hharvest, hphase, hframe]
  case params =>
    have hmap : (mitems ++ ritems).map HarvestItem.param =
        mems.map Sum.inl ++ (req.regParams.filter fun p => p.dir.reads).map Sum.inr := by
      rw [List.map_append, hmparams, hharvested.params, ← filter_zip_map_fst (fun p => p.dir.reads) hlen, List.map_map]
      rfl
    exact hmap
  case empty =>
    intro p r hmem hsize
    exact hmempty _ ((List.mem_append.1 hmem).resolve_right hharvested.not_mem) p r rfl hsize
  case log =>
    have hcalls : (harvestPhase req s).transport.log =
        s.transport.log ++ (mitems ++ ritems).filterMap HarvestItem.memoryCall ++ calls := by
      rw [hphase, List.filterMap_append, hharvested.memoryCalls, List.append_nil, ← hmlog]
      exact hrlog
    exact hcalls
  case reads =>
    obtain ⟨x, hx, a, ha, hitem⟩ := hharvested.reads c hc
    exact ⟨x, hx, a, ha, List.mem_append_right _ hitem⟩
  case read => exact hharvested.read x hx (by rw [hentry]; exact hv)
  case invalid =>
    rintro ⟨a, ha⟩
    rw [← hentry]
    exact hharvested.invalid x.2 a ha

end Sys2Proof.Machine
end

section
/-! PROOFS of the sequencer, fifth part: Cleanup and Finish. R178 to R180. -/

namespace Sys2Proof.Machine

/-! Step 2 of Cleanup: the restore loop. R179. -/

/-- The diagnostic of one restore, by the answer of its write. R179. -/
def restoreDiagnostic (x : (Nat × Word) × Answer Unit) : Option Diag :=
  match x.2 with
  | .ok _ => none
  | .err e => some { what := .restore x.1.1, error := .transportError e }

/-- `Restore` of a slot of the cache is one write of the saved value; its failure is a diagnostic and leaves the entry
dirty. R179. -/
theorem restore_answer {n : Nat} {v : Word} {s : State} (hn : n < s.cache.length) :
    ∃ a, (restore n v s).transport.log = s.transport.log ++ [.writeRegister n v a] ∧
      (restore n v s).diag = s.diag ++ (restoreDiagnostic ((n, v), a)).toList ∧
      (((restore n v s).entry n).dirty = true ↔ ∃ e, a = .err e) := by
  have hpending : (s.setEntry n ((s.entry n).pending v)).entry n = (s.entry n).pending v := State.entry_setEntry_self hn
  rcases restore_cases n v s with ⟨ha, hr⟩ | ⟨e, ha, hr⟩ <;> rw [hr] <;> rw [hpending] at ha ⊢
  · refine ⟨.ok (), by rw [← ha]; rfl, by simp [restoreDiagnostic, State.setEntry], ?_⟩
    rw [State.entry_setEntry_self (by simpa using hn)]
    simp [CacheEntry.clean]
  · refine ⟨.err e, by rw [← ha]; rfl, rfl, ?_⟩
    change ((s.setEntry n ((s.entry n).pending v)).entry n).dirty = true ↔ _
    rw [hpending]
    simp [CacheEntry.pending]

/-- The restore loop over distinct slots of the cache: one call each in the list's order, whatever the answers. R179. -/
theorem restoreAll_answers (l : List (Nat × Word)) (s : State) (hd : (l.map fun p => p.1).Nodup)
    (hr : ∀ p ∈ l, p.1 < s.cache.length) :
    ∃ answers : List (Answer Unit), answers.length = l.length ∧
      (restoreAll l s).transport.log = s.transport.log ++
        (l.zip answers).map (fun x => .writeRegister x.1.1 x.1.2 x.2) ∧
      (restoreAll l s).diag = s.diag ++ (l.zip answers).filterMap restoreDiagnostic ∧
      ∀ x ∈ l.zip answers, (((restoreAll l s).entry x.1.1).dirty = true ↔ ∃ e, x.2 = .err e) := by
  induction l generalizing s with
  | nil => exact ⟨[], rfl, by simp [restoreAll], by simp [restoreAll], by simp⟩
  | cons p l ih =>
    obtain ⟨n, v⟩ := p
    rw [List.map_cons, List.nodup_cons] at hd
    obtain ⟨a, hlog, hdiag, hdirty⟩ := restore_answer (v := v) (hr _ List.mem_cons_self)
    obtain ⟨answers, hlen, hlogs, hdiags, hdirties⟩ := ih (restore n v s) hd.2 fun p hp => by
      rw [restore_cacheLength]
      exact hr p (List.mem_cons_of_mem _ hp)
    refine ⟨a :: answers, by simp [hlen], ?log, ?diag, ?dirty⟩
    case log => rw [restoreAll, hlogs, hlog, List.append_assoc]; rfl
    case diag =>
      rw [restoreAll, hdiags, hdiag, List.append_assoc, List.zip_cons_cons, List.filterMap_cons]
      cases restoreDiagnostic ((n, v), a) <;> rfl
    case dirty =>
      rw [List.zip_cons_cons, List.forall_mem_cons, restoreAll, restoreAll_other hd.1]
      exact ⟨hdirty, hdirties⟩

/-! Step 4 of Cleanup: the resynchronisation. -/

theorem State.setEntry_setEntry (s : State) (n : Nat) (e e' : CacheEntry) :
    (s.setEntry n e).setEntry n e' = s.setEntry n e' := by
  simp [State.setEntry, List.set_set]

/-- On a legal mode field mode and state follow the CPSR entry, which becomes valid. R178, R153. -/
theorem resync_of_ok {s : State} {m : ProcessorMode} (hany : m ≠ .any)
    (hcode : modeCode m = (s.entry cpsrSlot).value &&& 0x1F#32) (hs : modeSupported s.params.hasMon m = true) :
    resync s = { s with
      coreMode := m
      coreState := stateOfBits (cpsrT (s.entry cpsrSlot).value) (cpsrJ (s.entry cpsrSlot).value) }.setEntry cpsrSlot
        { s.entry cpsrSlot with valid := true } := by
  rw [resync, setCpsr_ok hany hcode hs]
  dsimp only
  by_cases hlt : cpsrSlot < s.cache.length
  · rw [State.entry_setEntry_self (by exact hlt), State.setEntry_setEntry]
    rfl
  · have hset : ∀ e, s.cache.set cpsrSlot e = s.cache := fun e => List.set_eq_of_length_le (Nat.le_of_not_lt hlt)
    simp [State.setEntry, hset]

theorem resync_of_err {s : State}
    (h : ∀ m, m ≠ .any → modeCode m = (s.entry cpsrSlot).value &&& 0x1F#32 → modeSupported s.params.hasMon m = false) :
    resync s = { s with diag := s.diag ++ [{ what := .resync, error := .invalidMode }] } := by
  rw [resync, setCpsr_err h]

/-- Settles O52, step by step. -/
theorem restoreAttemptsEveryEntry : Obligations.RestoreAttemptsEveryEntry := by
  refine ⟨fun s => ?order, fun s => ⟨fun h => ?none, fun h hbp => ?remove⟩, fun l s hd hr => ?restores,
    fun s => ⟨fun vals hv => ?refreshed, fun e he => ?unrefreshed⟩, fun s raw hraw => ⟨fun m hany hcode hs => ?legal, fun h => ?illegal⟩⟩
  case order =>
    obtain ⟨-, hsaved⟩ := removeExitBreakpoint_frame s
    rw [cleanup, rollback, hsaved]
  case none => simp only [removeExitBreakpoint, h]
  case remove =>
    simp only [removeExitBreakpoint, hbp]
    split <;> rename_i heq <;> rw [heq] <;> simp [State.withTransport]
  case restores =>
    obtain ⟨answers, hlen, hlog, hdiag, hdirty⟩ := restoreAll_answers l s hd hr
    refine ⟨answers, hlen, hlog, hdiag, fun x hx => ?_⟩
    obtain ⟨hvalid, hvalue⟩ := restoreAll_self hd hr (List.of_mem_zip hx).1
    exact ⟨hvalid, hvalue, hdirty x hx⟩
  case refreshed => simp only [cleanupRefresh, fullContextRefresh_ok hv]
  case unrefreshed => simp only [cleanupRefresh, fullContextRefresh_err he]; rfl
  case legal =>
    subst hraw
    rw [resync_of_ok hany hcode hs, stateOfBits_eq]
    rfl
  case illegal =>
    subst hraw
    exact resync_of_err h

/-! Finish. R180. -/

/-- `t` differs from `s` in cache, transport, diagnostics and the breakpoint held only. R178. -/
def CleanupFrame (s t : State) : Prop := t = { s with cache := t.cache, transport := t.transport, diag := t.diag, bp := t.bp }

theorem CleanupFrame.trans {a b c : State} (h : CleanupFrame a b) (h' : CleanupFrame b c) : CleanupFrame a c := by
  unfold CleanupFrame at *
  rw [h', h]

theorem removeExitBreakpoint_cleanupFrame (s : State) : CleanupFrame s (removeExitBreakpoint s) := by
  unfold removeExitBreakpoint
  split
  · rfl
  · split <;> rfl

theorem rollback_cleanupFrame (s : State) : CleanupFrame s (rollback s) := by
  have h := (restoreAll_op s.saveList s).1
  unfold RestoreFrame at h
  rw [CleanupFrame, rollback, h]

theorem cleanupRefresh_cleanupFrame (s : State) : CleanupFrame s (cleanupRefresh s) := by
  unfold cleanupRefresh
  rcases fullContextRefresh_cases s with ⟨vals, _, h⟩ | ⟨e, _, h⟩ <;> rw [h]
  · rfl
  · rfl

/-- The first three steps of Cleanup. R178. -/
def cleanupThree (s : State) : State := cleanupRefresh (rollback (removeExitBreakpoint s))

theorem cleanup_eq (s : State) : cleanup s = resync (cleanupThree s) := rfl

theorem cleanupThree_frame (s : State) : CleanupFrame s (cleanupThree s) :=
  ((removeExitBreakpoint_cleanupFrame s).trans (rollback_cleanupFrame _)).trans (cleanupRefresh_cleanupFrame _)

theorem CleanupFrame.harvest {s t : State} (h : CleanupFrame s t) : t.harvest = s.harvest := by
  unfold CleanupFrame at h
  rw [h]

theorem resync_harvest (s : State) : (resync s).harvest = s.harvest := by
  unfold resync
  rcases setCpsr_cases (s.entry cpsrSlot).value s with ⟨m, _, _, h⟩ | h <;> rw [h]
  rfl

/-- After a run that passed Prepare the result's outputs are empty unless it was a success. R180. -/
theorem Ended.outputs {p t : State} (h : Ended p t) :
    ∃ o x, t.reply = some (.run (runResult o x)) ∧ (o ≠ .success → x.harvest = []) := by
  obtain ⟨o, x, _, hempty, _, ⟨rfl, _⟩ | rfl⟩ := h
  · exact ⟨o, rollback x, rfl, fun ho => (rollback_cleanupFrame x).harvest.trans (hempty ho)⟩
  · refine ⟨o, cleanup x, rfl, fun ho => ?_⟩
    rw [cleanup_eq, resync_harvest, (cleanupThree_frame x).harvest, hempty ho]

theorem runAlgorithm_outputs {req : RunRequest} {s t : State} (h : runAlgorithm req s = .next t) :
    ∃ o x, t.reply = some (.run (runResult o x)) ∧ (o ≠ .success → x.harvest = []) := by
  rcases runAlgorithm_cases h with ⟨c, p, hprepare, rfl⟩ | ⟨p, _, hended⟩
  · have hf := prepare_frame req (beginRun req s)
    rw [hprepare] at hf
    exact ⟨_, p, rfl, fun _ => hf.2.1⟩
  · exact hended.outputs

theorem DiagWhat.escalates_iff {w : DiagWhat} : w.escalates = true ↔ w = .removeBreakpoint ∨ ∃ n, w = .restore n := by
  cases w <;> simp [DiagWhat.escalates]

/-- Settles O53. -/
theorem finishReportsAndResets : Obligations.FinishReportsAndResets := by
  refine ⟨fun o s => ⟨finish_quiet o s, runResult o s, rfl, rfl, rfl, rfl, ?fatal⟩, fun s t cs req r hphase hinbox hstep hreply hr => ?outputs⟩
  case fatal => simp only [runResult, Bool.and_eq_true, List.any_eq_true, DiagWhat.escalates_iff]
  case outputs =>
    obtain ⟨o, x, hresult, hempty⟩ := runAlgorithm_outputs (step_runAlgorithm_next hphase hinbox hstep).2
    cases hresult.symm.trans hreply
    exact hempty hr

end Sys2Proof.Machine
end

section
/-! PROOFS over every command, first part: what serving a command can do to the state, and which commands are refused. -/

namespace Sys2Proof.Machine

/-! The operations that call the target outside of a run. -/

/-- A register call, a refresh or a coprocessor call: no memory access and no breakpoint. R41, R162. -/
def Transaction.isHookCall : Transaction → Prop
  | .readRegister _ _ => True
  | .writeRegister _ _ _ => True
  | .refreshHook _ => True
  | .cpRead _ _ _ _ _ _ => True
  | .cpWrite _ _ _ _ _ _ _ => True
  | _ => False

theorem Transaction.isHookCall_of_register {c : Transaction} (h : c.isRegisterCall) : c.isHookCall := by
  cases c <;> simp_all [Transaction.isHookCall, Transaction.isRegisterCall]

/-- Like `RegisterOp`, with the calls of the refresh and of the coprocessors too. -/
structure HookOp (s t : State) : Prop where
  frame : CacheAndBusOnly s t
  cache : CacheKept s.cache t.cache
  log : Grew Transaction.isHookCall s.transport.log t.transport.log

theorem RegisterOp.hookOp {s t : State} (h : RegisterOp s t) : HookOp s t :=
  ⟨h.frame, h.cache, h.log.mono fun _ => Transaction.isHookCall_of_register⟩

theorem fullContextRefresh_hookOp (s : State) : HookOp s (fullContextRefresh s).2 := by
  obtain ⟨hframe, hcache, hbus⟩ := fullContextRefresh_op s
  refine ⟨hframe, hcache, ?_⟩
  rw [hbus, Transport.refreshHook_log]
  exact .one trivial

theorem mrc_hookOp (cp op1 op2 crn crm : Word) (s : State) : HookOp s (mrc cp op1 op2 crn crm s).2 :=
  ⟨rfl, .refl _, .one trivial⟩

theorem mcr_hookOp (cp op1 op2 crn crm v : Word) (s : State) : HookOp s (mcr cp op1 op2 crn crm v s).2 :=
  ⟨rfl, .refl _, .one trivial⟩

theorem HookOp.steady {s t : State} (h : HookOp s t) : Steady s t := h.frame.steady h.cache

theorem exec_answers (i : Instr) (s : State) : ∃ w, exec i s = .next (s.answer (.word w)) := by
  obtain ⟨w, hw⟩ := templatesArePure i
  exact ⟨w, hw s⟩

/-! What serving a command can do. R235. -/

/-- `Served s c t`: the command `c`, taken from the inbox of `s`, may end in `t`. -/
inductive Served (s : State) : Command → State → Prop
  /-- Only the reply changes, and what an image leaves in the inbox. -/
  | answered {c : Command} (inbox : List Command) (r : Reply) : c.mayCall = false →
      Served s c { s with inbox := inbox, reply := some r }
  | constructed (hasMon : Bool) (r : Reply) :
      Served s (.buildRegisterCache hasMon) ((buildRegisterCache hasMon s).2.answer r)
  | modeSet (m : ModeOperand) {k : ProcessorMode} (r : Reply) : modeSupported s.params.hasMon k = true →
      Served s (.setMode m) ({ s with coreMode := k }.answer r)
  | stateSet (st : ProcessorState) (r : Reply) : Served s (.setState st) ((setState st s).answer r)
  | cpsrSet (raw : Word) (r : Reply) : Served s (.setCpsr raw) ((setCpsr raw s).2.answer r)
  | called {c : Command} {t : State} (r : Reply) : c.mayCall = true → HookOp s t → Served s c (t.answer r)
  | ran {req : RunRequest} {t : State} : runAlgorithm req s = .next t → Served s (.runAlgorithm req) t

theorem withInstance_next {s t : State} {o : Host.Outcome State Fault Refusal} (h : withInstance s o = .next t) :
    o = .next t := by
  unfold withInstance at h
  split at h
  · exact h
  · cases h

theorem withInstance_next_eq {s t u : State} (h : withInstance s (.next u) = .next t) : t = u := by
  cases withInstance_next h
  rfl

theorem withSlot_next_eq {s t u : State} {v : RegisterView} (h : withSlot s v (.next u) = .next t) : t = u := by
  have h' := withInstance_next h
  split at h'
  · cases h'
    rfl
  · cases h'

theorem runImage_served {f : Format} {bytes : List Byte} {s t : State} (h : runImage f bytes s = .next t) :
    Served s (.image f bytes) t := by
  unfold runImage at h
  split at h
  case h_2 => cases h
  case h_1 i rest _ =>
    obtain ⟨w, hw⟩ := exec_answers i (requeue f rest s)
    cases hw.symm.trans h
    cases rest with
    | nil => exact .answered s.inbox _ rfl
    | cons b bs => exact .answered (.image f (b :: bs) :: s.inbox) _ rfl

theorem setModeOperand_served {m : ModeOperand} (s : State) (r : Reply) : Served s (.setMode m) ((setModeOperand m s).2.answer r) := by
  unfold setModeOperand
  split
  case h_2 => exact .answered s.inbox r rfl
  case h_1 k _ =>
    cases hs : modeSupported s.params.hasMon k with
    | true =>
      rw [setMode_ok hs]
      exact .modeSet m r hs
    | false =>
      rw [setMode_err hs]
      exact .answered s.inbox r rfl

theorem serve_served {c : Command} {s t : State} (h : serve c s = .next t) : Served s c t := by
  cases c with
  | template i =>
    obtain ⟨w, hw⟩ := exec_answers i s
    cases hw.symm.trans h
    exact .answered s.inbox _ rfl
  | image f bytes => exact runImage_served h
  | modeToIndex m => cases h; exact .answered s.inbox _ rfl
  | indexToMode i => cases h; exact .answered s.inbox _ rfl
  | modeName m => cases h; exact .answered s.inbox _ rfl
  | isValidMode v => cases h; exact .answered s.inbox _ rfl
  | map m n =>
    rw [serve] at h
    split at h
    · cases withInstance_next_eq h
      exact .answered s.inbox _ rfl
    · cases h
      exact .answered s.inbox _ rfl
  | currentRegister n => cases withInstance_next_eq h; exact .answered s.inbox _ rfl
  | buildRegisterCache hasMon => cases h; exact .constructed hasMon _
  | setMode m => cases withInstance_next_eq h; exact setModeOperand_served s _
  | setState st => cases withInstance_next_eq h; exact .stateSet st _
  | setCpsr raw => cases withInstance_next_eq h; exact .cpsrSet raw _
  | readRegister v => cases withSlot_next_eq h; exact .called _ rfl (readSlot_op v.slot s).hookOp
  | writeRegister v x => cases withSlot_next_eq h; exact .called _ rfl (writeSlot_op v.slot x s).hookOp
  | flush => cases withInstance_next_eq h; exact .called _ rfl (flush_op s).hookOp
  | fullContextRefresh => cases withInstance_next_eq h; exact .called _ rfl (fullContextRefresh_hookOp s)
  | mrc cp op1 op2 crn crm => cases withInstance_next_eq h; exact .called _ rfl (mrc_hookOp cp op1 op2 crn crm s)
  | mcr cp op1 op2 crn crm v => cases withInstance_next_eq h; exact .called _ rfl (mcr_hookOp cp op1 op2 crn crm v s)
  | registerList => cases withInstance_next_eq h; exact .answered s.inbox _ rfl
  | runAlgorithm req => exact .ran (withInstance_next h)

/-- A step from IDLE does nothing, or serves the command at the head of the inbox. R235. -/
theorem step_served {s t : State} (hphase : s.phase = .idle) (h : step s = .next t) :
    (s.inbox = [] ∧ t = s) ∨ ∃ c cs, s.inbox = c :: cs ∧ Served { s with inbox := cs } c t := by
  cases hinbox : s.inbox with
  | nil =>
    simp only [step, hphase, hinbox, if_true] at h
    cases h
    exact .inl ⟨rfl, rfl⟩
  | cons c cs =>
    rw [step_of_inbox_cons hphase hinbox] at h
    exact .inr ⟨c, cs, rfl, serve_served h⟩

/-! The operations that make no call. -/

theorem buildRegisterCache_transport (hasMon : Bool) (s : State) :
    (buildRegisterCache hasMon s).2.transport = s.transport := by
  cases h : s.params.allocOk with
  | true => rw [buildRegisterCache_ok h]; rfl
  | false => rw [buildRegisterCache_err h]; rfl

theorem setCpsr_transport (raw : Word) (s : State) : (setCpsr raw s).2.transport = s.transport := by
  rcases setCpsr_cases raw s with ⟨m, _, _, h⟩ | h <;> rw [h]
  rfl

/-- Settles O58: a command that may not call is served without the transport. -/
theorem bookkeepingMakesNoCall : Obligations.BookkeepingMakesNoCall := by
  intro s t c cs hphase hinbox hnone hstep
  rw [step_of_inbox_cons hphase hinbox] at hstep
  cases serve_served hstep with
  | answered inbox r => rfl
  | constructed hasMon r => exact buildRegisterCache_transport hasMon _
  | modeSet m r hs => rfl
  | stateSet st r => rfl
  | cpsrSet raw r => exact setCpsr_transport raw _
  | called r hmay _ => rw [hnone] at hmay; cases hmay
  | ran _ => cases hnone

/-! The refusals. Log 3, log 15, log 16, log 17. -/

/-- The refusals of a command in a state, each by its name. -/
def State.refuses (s : State) (c : Command) (r : Refusal) : Prop :=
  (∃ f bytes e, c = .image f bytes ∧ decodeBytes s.params.endian f bytes = .error e ∧ r = .undecodable e) ∨
  (c.needsInstance = true ∧ s.built = false ∧ r = .noInstance) ∨
  (s.built = true ∧ r = .noSuchSlot ∧ ∃ n, c.viewSlot? = some n ∧ s.slots ≤ n) ∨
  (s.built = true ∧ r = .memoryParamPastTop ∧ ∃ req, c = .runAlgorithm req ∧ memParamsInSpace req = false) ∨
  (s.built = true ∧ r = .memoryParamLength ∧
    ∃ req, c = .runAlgorithm req ∧ memParamsInSpace req = true ∧ memParamsSized req = false)

/-- Neither bytes, nor a view, nor a run. -/
def Command.plain : Command → Bool
  | .image _ _ => false
  | .readRegister _ => false
  | .writeRegister _ _ => false
  | .runAlgorithm _ => false
  | _ => true

theorem State.refuses_of_plain {s : State} {c : Command} {r : Refusal} (h : c.plain = true) :
    s.refuses c r ↔ c.needsInstance = true ∧ s.built = false ∧ r = .noInstance := by
  unfold State.refuses
  cases c <;> simp_all [Command.plain, Command.viewSlot?]

theorem refused_iff {x r : Refusal} : (Host.Outcome.refused x : Host.Outcome State Fault Refusal) = .refused r ↔ r = x :=
  ⟨fun h => by cases h; rfl, fun h => by rw [h]⟩

/-- An outcome that does not fault, and refuses what `State.refuses` says. -/
def RefusedAs (s : State) (c : Command) (o : Host.Outcome State Fault Refusal) : Prop :=
  (∀ f, o ≠ .fault f) ∧ ∀ r, o = .refused r ↔ s.refuses c r

theorem RefusedAs.of_next {s t : State} {c : Command} (hplain : c.plain = true) (hneeds : c.needsInstance = false) :
    RefusedAs s c (.next t) := by
  refine ⟨nofun, fun r => ?_⟩
  simp [State.refuses_of_plain hplain, hneeds]

theorem RefusedAs.of_withInstance {s t : State} {c : Command} (hplain : c.plain = true) (hneeds : c.needsInstance = true) :
    RefusedAs s c (withInstance s (.next t)) := by
  unfold withInstance RefusedAs
  cases hbuilt : s.built <;> simp [State.refuses_of_plain hplain, hneeds, hbuilt, refused_iff, -Host.Outcome.refused.injEq]

theorem State.refuses_of_view {s : State} {c : Command} {v : RegisterView} {r : Refusal}
    (hc : c = .readRegister v ∨ ∃ x, c = .writeRegister v x) :
    s.refuses c r ↔ (s.built = false ∧ r = .noInstance) ∨ (s.built = true ∧ r = .noSuchSlot ∧ s.slots ≤ v.slot) := by
  unfold State.refuses
  rcases hc with rfl | ⟨x, rfl⟩ <;> simp [Command.needsInstance, Command.viewSlot?]

theorem RefusedAs.of_withSlot {s t : State} {c : Command} {v : RegisterView}
    (hc : c = .readRegister v ∨ ∃ x, c = .writeRegister v x) : RefusedAs s c (withSlot s v (.next t)) := by
  unfold withSlot withInstance RefusedAs
  simp only [State.refuses_of_view hc]
  cases hbuilt : s.built with
  | false => simp [refused_iff, -Host.Outcome.refused.injEq]
  | true =>
    by_cases hslot : v.slot < s.slots
    · simp [hslot]
    · simp [hslot, Nat.le_of_not_lt hslot, refused_iff, -Host.Outcome.refused.injEq]

theorem State.refuses_of_image {s : State} {f : Format} {bytes : List Byte} {r : Refusal} :
    s.refuses (.image f bytes) r ↔ ∃ e, decodeBytes s.params.endian f bytes = .error e ∧ r = .undecodable e := by
  unfold State.refuses
  simp only [Command.needsInstance, Command.viewSlot?, Command.image.injEq, reduceCtorEq, false_and, and_false,
    exists_false, or_false, Bool.false_eq_true]
  exact ⟨fun ⟨_, _, e, ⟨hf, hb⟩, he, hr⟩ => ⟨e, hf ▸ hb ▸ he, hr⟩, fun ⟨e, he, hr⟩ => ⟨f, bytes, e, ⟨rfl, rfl⟩, he, hr⟩⟩

theorem RefusedAs.of_image {s : State} (f : Format) (bytes : List Byte) : RefusedAs s (.image f bytes) (runImage f bytes s) := by
  unfold runImage RefusedAs
  simp only [State.refuses_of_image]
  split
  case h_1 i rest hdecode =>
    obtain ⟨w, hw⟩ := exec_answers i (requeue f rest s)
    simp [hw, hdecode]
  case h_2 e hdecode => simp [hdecode, refused_iff, -Host.Outcome.refused.injEq]

theorem State.refuses_of_run {s : State} {req : RunRequest} {r : Refusal} :
    s.refuses (.runAlgorithm req) r ↔ (s.built = false ∧ r = .noInstance) ∨ s.built = true ∧
      ((r = .memoryParamPastTop ∧ memParamsInSpace req = false) ∨
        (r = .memoryParamLength ∧ memParamsInSpace req = true ∧ memParamsSized req = false)) := by
  unfold State.refuses
  simp [Command.needsInstance, Command.viewSlot?, and_or_left]

theorem RefusedAs.of_run {s : State} (req : RunRequest) :
    RefusedAs s (.runAlgorithm req) (withInstance s (runAlgorithm req s)) := by
  unfold withInstance RefusedAs
  simp only [State.refuses_of_run]
  cases hbuilt : s.built with
  | false => simp [refused_iff, -Host.Outcome.refused.injEq]
  | true =>
    cases hspace : memParamsInSpace req with
    | false => simp [runAlgorithm, hspace, refused_iff, -Host.Outcome.refused.injEq]
    | true =>
      cases hsized : memParamsSized req with
      | false => simp [runAlgorithm, hspace, hsized, refused_iff, -Host.Outcome.refused.injEq]
      | true =>
        obtain ⟨t, _, hrun, _⟩ := beginRun_ends req s
        simp [runAlgorithm_of_accepted hspace hsized, hrun]

theorem serve_refusedAs (c : Command) (s : State) : RefusedAs s c (serve c s) := by
  cases c with
  | template i =>
    obtain ⟨w, hw⟩ := exec_answers i s
    rw [serve, hw]
    exact .of_next rfl rfl
  | image f bytes => exact .of_image f bytes
  | modeToIndex m => exact .of_next rfl rfl
  | indexToMode i => exact .of_next rfl rfl
  | modeName m => exact .of_next rfl rfl
  | isValidMode v => exact .of_next rfl rfl
  | map m n =>
    have hiff : (Command.map m n).needsInstance = true ↔ m.needsInstance = true := by
      rw [needsInstance_operand]
      exact decide_eq_true_iff
    rw [serve]
    split
    case isTrue h => exact .of_withInstance rfl (hiff.2 h)
    case isFalse h => exact .of_next rfl (Bool.eq_false_iff.2 fun hneeds => h (hiff.1 hneeds))
  | currentRegister n => exact .of_withInstance rfl rfl
  | buildRegisterCache hasMon => exact .of_next rfl rfl
  | setMode m => exact .of_withInstance rfl rfl
  | setState st => exact .of_withInstance rfl rfl
  | setCpsr raw => exact .of_withInstance rfl rfl
  | readRegister v => exact .of_withSlot (.inl rfl)
  | writeRegister v x => exact .of_withSlot (.inr ⟨x, rfl⟩)
  | flush => exact .of_withInstance rfl rfl
  | fullContextRefresh => exact .of_withInstance rfl rfl
  | mrc cp op1 op2 crn crm => exact .of_withInstance rfl rfl
  | mcr cp op1 op2 crn crm v => exact .of_withInstance rfl rfl
  | registerList => exact .of_withInstance rfl rfl
  | runAlgorithm req => exact .of_run req

/-- Settles O19, command by command. -/
theorem refusedByName : Obligations.RefusedByName := by
  intro s cs c hphase hinbox
  rw [step_of_inbox_cons hphase hinbox]
  exact serve_refusedAs c { s with inbox := cs }

/-! The invariant. R18, R11 to R14, R216. -/

theorem freshCache_ok {hasMon : Bool} {e : CacheEntry} (h : e ∈ freshCache hasMon) : e.ok := by
  obtain ⟨_, hdirty, hwidth⟩ := freshCache_clear h
  exact ⟨hwidth, fun hd => by simp [hdirty] at hd⟩

/-- Settles O60. -/
theorem resetMeetsInvariant : Obligations.ResetMeetsInvariant :=
  ⟨rfl, ⟨freshCache_names _, fun _ he => freshCache_ok he⟩, rfl, rfl, rfl, rfl, rfl, rfl, rfl, rfl⟩

theorem buildRegisterCache_inv (hasMon : Bool) (s : State) : (buildRegisterCache hasMon s).2.Inv := by
  cases h : s.params.allocOk with
  | true =>
    rw [buildRegisterCache_ok h]
    exact ⟨rfl, ⟨freshCache_names _, fun _ he => freshCache_ok he⟩, sequencerReset_quiet s⟩
  | false =>
    rw [buildRegisterCache_err h]
    exact ⟨rfl, ⟨rfl, fun _ he => nomatch he⟩, sequencerReset_quiet s⟩

theorem Steady.cacheOk {s t : State} (h : Steady s t) (hcache : s.cacheOk) : t.cacheOk := by
  obtain ⟨hnames, hok⟩ := hcache
  refine ⟨?_, h.cache.2 hok⟩
  rw [h.cache.1, h.built, h.params]
  exact hnames

theorem HookOp.quiet {s t : State} (h : HookOp s t) (hquiet : s.quiet) : t.quiet := by
  have hframe := h.frame
  unfold CacheAndBusOnly at hframe
  rw [hframe]
  exact hquiet

theorem setCpsr_inv {raw : Word} {s : State} (h : s.Inv) : (setCpsr raw s).2.Inv := by
  rcases setCpsr_cases raw s with ⟨m, _, hm, heq⟩ | heq <;> rw [heq]
  · obtain ⟨-, ⟨hnames, hok⟩, hquiet⟩ := h
    obtain ⟨hkeptNames, hkeptOk⟩ := CacheKept.set (s := s) (n := cpsrSlot) (e := (s.entry cpsrSlot).agree raw) rfl CacheEntry.agree_ok
    exact ⟨hm, ⟨hkeptNames.trans hnames, hkeptOk hok⟩, hquiet⟩
  · exact h

/-- A run that is not refused ends with what every transition keeps and the sequencer at rest. R171. -/
theorem runAlgorithm_steady {req : RunRequest} {s t : State} (h : runAlgorithm req s = .next t) : Steady s t ∧ t.quiet := by
  unfold runAlgorithm at h
  split at h
  · cases h
  split at h
  · cases h
  obtain ⟨u, _, hrun, hquiet, _⟩ := beginRun_ends req s
  cases hrun.symm.trans h
  exact ⟨(beginRun_steady req s).trans (runPhases_steady hrun), hquiet⟩

theorem Served.inv {s t : State} {c : Command} (h : Served s c t) (hinv : s.Inv) : t.Inv := by
  obtain ⟨hmode, hcache, hquiet⟩ := hinv
  cases h with
  | answered inbox r => exact ⟨hmode, hcache, hquiet⟩
  | constructed hasMon r => exact buildRegisterCache_inv hasMon s
  | modeSet m r hs => exact ⟨hs, hcache, hquiet⟩
  | stateSet st r => exact ⟨hmode, hcache, hquiet⟩
  | cpsrSet raw r => exact setCpsr_inv ⟨hmode, hcache, hquiet⟩
  | called r _ hop => exact ⟨hop.steady.mode hmode, hop.steady.cacheOk hcache, hop.quiet hquiet⟩
  | ran hrun =>
    obtain ⟨hsteady, hend⟩ := runAlgorithm_steady hrun
    exact ⟨hsteady.mode hmode, hsteady.cacheOk hcache, hend⟩

/-- Settles O59, by what serving a command can do. -/
theorem stepKeepsInvariant : Obligations.StepKeepsInvariant := by
  intro s t hinv hstep
  obtain ⟨hmode, hcache, hquiet⟩ := hinv
  rcases step_served hquiet.1 hstep with ⟨_, rfl⟩ | ⟨c, cs, _, hserved⟩
  · exact ⟨hmode, hcache, hquiet⟩
  · exact hserved.inv ⟨hmode, hcache, hquiet⟩

end Sys2Proof.Machine
end

section
/-! PROOFS over every command, second part: the calls of a step. Every memory call is well formed, and every breakpoint that
was set has had its removal attempted. R42, R45, R181. -/

namespace Sys2Proof.Machine

/-! The breakpoints left by a record of calls. R181. -/

/-- The call neither sets a breakpoint nor attempts a removal. -/
def Transaction.keepsBreakpoints : Transaction → Prop
  | .setBreakpoint _ (.ok _) => False
  | .removeBreakpoint _ _ => False
  | _ => True

theorem leftSet_append (a b : List Transaction) (held : List Nat) : leftSet (a ++ b) held = leftSet b (leftSet a held) := by
  induction a generalizing held with
  | nil => rfl
  | cons c a ih =>
    cases c with
    | setBreakpoint addr answer => cases answer <;> exact ih _
    | _ => exact ih _

theorem leftSet_of_keeps {l : List Transaction} (h : ∀ c ∈ l, c.keepsBreakpoints) (held : List Nat) : leftSet l held = held := by
  induction l with
  | nil => rfl
  | cons c l ih =>
    obtain ⟨hc, hl⟩ := List.forall_mem_cons.1 h
    cases c with
    | setBreakpoint addr answer =>
      cases answer with
      | ok k => exact hc.elim
      | err e => exact ih hl
    | removeBreakpoint k a => exact hc.elim
    | _ => exact ih hl

/-! Calls that are well formed and concern no breakpoint. -/

/-- The call is well formed and neither sets a breakpoint nor attempts a removal. -/
def Transaction.isPlain (c : Transaction) : Prop := c.memoryOk = true ∧ c.keepsBreakpoints

theorem Transaction.isPlain_of_hook {c : Transaction} (h : c.isHookCall) : c.isPlain := by
  cases c <;> simp_all [Transaction.isHookCall, Transaction.isPlain, Transaction.memoryOk, Transaction.keepsBreakpoints]

/-- From `s` to `t` only plain calls are made and the breakpoint held stays. -/
structure Plain (s t : State) : Prop where
  bp : t.bp = s.bp
  log : Grew Transaction.isPlain s.transport.log t.transport.log

theorem Plain.trans {a b c : State} (h : Plain a b) (h' : Plain b c) : Plain a c :=
  ⟨h'.bp.trans h.bp, h.log.trans h'.log⟩

theorem Plain.of_eq {s t : State} (hbp : t.bp = s.bp) (hlog : t.transport.log = s.transport.log) : Plain s t :=
  ⟨hbp, hlog ▸ .refl _ _⟩

theorem HookOp.plain {s t : State} (h : HookOp s t) : Plain s t := by
  have hframe := h.frame
  unfold CacheAndBusOnly at hframe
  exact ⟨by rw [hframe], h.log.mono fun _ => Transaction.isPlain_of_hook⟩

theorem RegisterOp.plain {s t : State} (h : RegisterOp s t) : Plain s t := h.hookOp.plain

/-! The memory calls of a request. R42, R45, R46. -/

/-- The parameter's range stays inside the address space, and an input carries its bytes. R170, U9. -/
def MemParam.inSpace (p : MemParam) : Prop :=
  p.addr.toNat + p.size ≤ 2 ^ 32 ∧ (p.dir.writes = true → p.value.length = p.size)

/-- The request is one that a run accepts. R170, U9. -/
def RunRequest.accepted (req : RunRequest) : Prop := ∀ p ∈ req.memParams, p.inSpace

theorem RunRequest.accepted_of_tests {req : RunRequest} (hspace : memParamsInSpace req = true)
    (hsized : memParamsSized req = true) : req.accepted := by
  intro p hp
  have h1 := List.all_eq_true.1 hspace p hp
  have h2 := List.all_eq_true.1 hsized p hp
  refine ⟨by simpa using h1, fun hw => ?_⟩
  simpa [hw] using h2

/-- The access width is 1, 2 or 4, divides the address, and its accesses are exactly the parameter's bytes. R46. -/
theorem accessWidth_exact (addr : Word) {size : Nat} (hsize : size ≠ 0) :
    (accessWidth addr size = 1 ∨ accessWidth addr size = 2 ∨ accessWidth addr size = 4) ∧
      addr.toNat % accessWidth addr size = 0 ∧ 0 < size / accessWidth addr size ∧
      accessWidth addr size * (size / accessWidth addr size) = size := by
  obtain ⟨hwidth, haddr, hdiv, -⟩ := accessWidthIsLargest addr size
  have hmul : accessWidth addr size * (size / accessWidth addr size) = size :=
    Nat.mul_div_cancel' (Nat.dvd_of_mod_eq_zero hdiv)
  refine ⟨by omega, haddr, Nat.pos_of_ne_zero fun h0 => hsize ?_, hmul⟩
  rw [← hmul, h0, Nat.mul_zero]

theorem memRead_plain (t : Transport) {p : MemParam} (hp : p.inSpace) :
    Grew Transaction.isPlain t.log (t.memRead p.addr p.size).2.log := by
  unfold Transport.memRead
  split
  case isTrue => exact .refl _ _
  case isFalse hsize =>
    obtain ⟨hwidth, haddr, hcount, hmul⟩ := accessWidth_exact p.addr hsize
    refine .one ⟨?_, trivial⟩
    simp only [Transaction.memoryOk, Bool.and_eq_true, decide_eq_true_eq, hmul]
    exact ⟨⟨⟨by omega, haddr⟩, hcount⟩, hp.1⟩

theorem memWrite_plain (t : Transport) {p : MemParam} (hp : p.inSpace) (hw : p.dir.writes = true) :
    Grew Transaction.isPlain t.log (t.memWrite p.addr p.size p.value).2.log := by
  unfold Transport.memWrite
  split
  case isTrue => exact .refl _ _
  case isFalse hsize =>
    obtain ⟨hwidth, haddr, hcount, hmul⟩ := accessWidth_exact p.addr hsize
    refine .one ⟨?_, trivial⟩
    simp only [Transaction.memoryOk, Bool.and_eq_true, decide_eq_true_eq, hmul]
    exact ⟨⟨⟨⟨by omega, haddr⟩, hcount⟩, hp.1⟩, hp.2 hw⟩

/-! The parts of a run, each by plain calls. -/

theorem prepare_plain {req : RunRequest} {s : State} (h : s.bp = none) : Plain s (prepare req s).2 := by
  rcases prepare_cases req s with ⟨c, hp⟩ | ⟨slots, _, _, hsnapshot⟩
  · rw [hp]
    exact .of_eq h.symm rfl
  · have hcleared : Plain s s.cleared := .of_eq h.symm rfl
    have hop := (snapshot_op (saveSlots slots) s.cleared).plain
    rcases hsnapshot with ⟨saved, t, heq, hp⟩ | ⟨e, t, heq, hp⟩ <;> rw [heq] at hop <;> rw [hp] <;>
      exact (hcleared.trans hop).trans (.of_eq rfl rfl)

theorem installMemory_plain {l : List MemParam} {s : State} (h : ∀ p ∈ l, p.inSpace) : Plain s (installMemory l s).2 := by
  induction l generalizing s with
  | nil => exact .of_eq rfl rfl
  | cons p l ih =>
    obtain ⟨hp, hl⟩ := List.forall_mem_cons.1 h
    unfold installMemory
    split
    case isFalse => exact ih hl
    case isTrue hw =>
      have hcall := memWrite_plain s.transport hp hw
      split <;> rename_i t heq <;> rw [heq] at hcall
      · exact Plain.trans (b := s.withTransport t) ⟨rfl, hcall⟩ (ih hl)
      · exact ⟨rfl, hcall⟩

theorem rollback_plain (s : State) : Plain s (rollback s) := by
  obtain ⟨hframe, -, hlog⟩ := restoreAll_op s.saveList s
  unfold RestoreFrame at hframe
  refine ⟨?_, hlog.mono fun _ hc => Transaction.isPlain_of_hook (Transaction.isHookCall_of_register hc)⟩
  rw [rollback, hframe]

theorem harvestMemory_plain {l : List MemParam} {s : State} (h : ∀ p ∈ l, p.inSpace) : Plain s (harvestMemory l s) := by
  induction l generalizing s with
  | nil => exact .of_eq rfl rfl
  | cons p l ih =>
    obtain ⟨hp, hl⟩ := List.forall_mem_cons.1 h
    unfold harvestMemory
    split
    case isFalse => exact ih hl
    case isTrue => exact Plain.trans (b := harvestMem s p) ⟨rfl, memRead_plain s.transport hp⟩ (ih hl)

theorem harvestReg_plain (s : State) (x : RegParam × Nat) : Plain s (harvestReg s x) :=
  (readSlot_op x.2 s).plain.trans (.of_eq rfl rfl)

theorem harvestRegisters_plain (l : List (RegParam × Nat)) (s : State) : Plain s (harvestRegisters l s) := by
  rw [harvestRegisters_eq_foldl]
  generalize l.filter (fun x => x.1.dir.reads) = l
  induction l generalizing s with
  | nil => exact .of_eq rfl rfl
  | cons x l ih => exact (harvestReg_plain s x).trans (ih _)

theorem cleanupRefresh_plain (s : State) : Plain s (cleanupRefresh s) := by
  have hop := (fullContextRefresh_hookOp s).plain
  unfold cleanupRefresh
  split <;> rename_i heq <;> rw [heq] at hop
  · exact hop
  · exact hop.trans (.of_eq rfl rfl)

theorem resync_plain (s : State) : Plain s (resync s) := by
  unfold resync
  rcases setCpsr_cases (s.entry cpsrSlot).value s with ⟨m, _, _, h⟩ | h <;> rw [h] <;> exact .of_eq rfl rfl

theorem resumePhase_plain (req : RunRequest) (s : State) : Plain s (resumePhase req s) := by
  have hop : RegisterOp s (flush (s.withEntryPc req)).2 :=
    (writeSlot_op pcSlot (pcEntry s.params.pcEntry s.coreState req.entry) s).trans (flush_op _)
  cases hflush : flush (s.withEntryPc req) with
  | mk a t =>
    rw [hflush] at hop
    have hresumed : Plain s (t.withTransport t.transport.resume.2) := hop.plain.trans ⟨rfl, .one ⟨rfl, trivial⟩⟩
    cases a with
    | err e =>
      rw [resumePhase_of_flush_err hflush]
      exact hop.plain.trans (.of_eq rfl rfl)
    | ok =>
      cases hresume : t.transport.resume.1 with
      | err e =>
        rw [resumePhase_of_resume_err hflush hresume]
        exact hresumed.trans (.of_eq rfl rfl)
      | ok =>
        rw [resumePhase_of_ok hflush hresume]
        exact hresumed.trans (.of_eq rfl rfl)

theorem awaitPhase_plain (req : RunRequest) (s : State) : Plain s (awaitPhase req s) := by
  have hpoll : Grew Transaction.isPlain s.transport.log (s.transport.pollHalted req.timeout).2.log := .one ⟨rfl, trivial⟩
  unfold awaitPhase
  split <;> rename_i t heq <;> rw [heq] at hpoll
  · split <;> exact ⟨rfl, hpoll⟩
  · have hhalt : Grew Transaction.isPlain s.transport.log t.halt.2.log := hpoll.trans (.one ⟨rfl, trivial⟩)
    split <;> rename_i u hu <;> rw [hu] at hhalt <;> exact ⟨rfl, hhalt⟩

/-! A record in which every breakpoint but the one held is accounted for. R181. -/

/-- From the record `before` on, the calls of memory are well formed, and of the breakpoints set only the one that the
sequencer holds has no removal attempted. -/
def Accounted (before : List Transaction) (s : State) : Prop :=
  ∃ new, s.transport.log = before ++ new ∧ (∀ c ∈ new, c.memoryOk = true) ∧ leftSet new [] = s.bp.toList

theorem Accounted.plain {before : List Transaction} {s t : State} (h : Accounted before s) (hplain : Plain s t) :
    Accounted before t := by
  obtain ⟨new, hlog, hok, hleft⟩ := h
  obtain ⟨more, hmore, hcalls⟩ := hplain.log
  refine ⟨new ++ more, by rw [hmore, hlog, List.append_assoc], fun c hc => ?_, ?_⟩
  · exact (List.mem_append.1 hc).elim (hok c) fun hc => (hcalls c hc).1
  · rw [leftSet_append, leftSet_of_keeps fun c hc => (hcalls c hc).2, hleft, hplain.bp]

/-- Arm exit: the breakpoint that is set becomes the one held. R174. -/
theorem Accounted.armed {before : List Transaction} {s t : State} {addr : Word} {k : Nat} (h : Accounted before s)
    (hs : s.bp = none) (ht : t.bp = some k) (hlog : t.transport.log = s.transport.log ++ [.setBreakpoint addr (.ok k)]) :
    Accounted before t := by
  obtain ⟨new, hnew, hok, hleft⟩ := h
  refine ⟨new ++ [.setBreakpoint addr (.ok k)], by rw [hlog, hnew, List.append_assoc], fun c hc => ?_, ?_⟩
  · exact (List.mem_append.1 hc).elim (hok c) fun hc => by rw [List.mem_singleton.1 hc]; rfl
  · rw [leftSet_append, hleft, hs, ht]
    rfl

/-- A removal is attempted: no breakpoint is held afterwards. R178. -/
theorem Accounted.forgotten {before : List Transaction} {s t : State} {k : Nat} {a : Answer Unit} (h : Accounted before s)
    (hs : s.bp = some k) (ht : t.bp = none) (hlog : t.transport.log = s.transport.log ++ [.removeBreakpoint k a]) :
    Accounted before t := by
  obtain ⟨new, hnew, hok, hleft⟩ := h
  refine ⟨new ++ [.removeBreakpoint k a], by rw [hlog, hnew, List.append_assoc], fun c hc => ?_, ?_⟩
  · exact (List.mem_append.1 hc).elim (hok c) fun hc => by rw [List.mem_singleton.1 hc]; rfl
  · rw [leftSet_append, hleft, hs, ht]
    simp [leftSet]

theorem removeExitBreakpoint_none {s : State} (h : s.bp = none) : removeExitBreakpoint s = s := by
  simp only [removeExitBreakpoint, h]

/-- Step 1 of Cleanup. R178. -/
theorem removeExitBreakpoint_accounted {before : List Transaction} {s : State} (h : Accounted before s) :
    Accounted before (removeExitBreakpoint s) ∧ (removeExitBreakpoint s).bp = none := by
  cases hbp : s.bp with
  | none =>
    rw [removeExitBreakpoint_none hbp]
    exact ⟨h, hbp⟩
  | some k =>
    have hlog := s.transport.removeBreakpoint_log k
    simp only [removeExitBreakpoint, hbp]
    split <;> rename_i t heq <;> rw [heq] at hlog <;> exact ⟨h.forgotten hbp rfl hlog, rfl⟩

theorem cleanup_accounted {before : List Transaction} {s : State} (h : Accounted before s) :
    Accounted before (cleanup s) ∧ (cleanup s).bp = none := by
  obtain ⟨hremoved, hbp⟩ := removeExitBreakpoint_accounted h
  have hrest : Plain (removeExitBreakpoint s) (cleanup s) :=
    ((rollback_plain _).trans (cleanupRefresh_plain _)).trans (resync_plain _)
  exact ⟨hremoved.plain hrest, hrest.bp.trans hbp⟩

/-! Each transition keeps the record accounted for. R171. -/

/-- No breakpoint has been set yet, or none is set any more. -/
def Phase.unarmed : Phase → Bool
  | .idle => true
  | .prepare => true
  | .install => true
  | .armExit => true
  | _ => false

/-- The record from `before` on is accounted for, and in the phases before Resume no breakpoint is held. -/
structure Tracked (before : List Transaction) (s : State) : Prop where
  accounted : Accounted before s
  unarmed : s.phase.unarmed = true → s.bp = none

theorem Tracked.of_bp {before : List Transaction} {s : State} (h : Accounted before s) (hbp : s.bp = none) : Tracked before s :=
  ⟨h, fun _ => hbp⟩

/-- `Finish` where no breakpoint is held. R180. -/
theorem Tracked.finish {before : List Transaction} {s : State} (o : RunOutcome) (h : Accounted before s) (hbp : s.bp = none) :
    Tracked before (finish o s) :=
  .of_bp (h.plain (.of_eq hbp.symm rfl)) rfl

theorem preparePhase_tracked {before : List Transaction} {s : State} (req : RunRequest) (h : Accounted before s)
    (hbp : s.bp = none) : Tracked before (preparePhase req s) := by
  have hplain := prepare_plain (req := req) hbp
  unfold preparePhase
  split <;> rename_i t heq <;> rw [heq] at hplain
  · exact .of_bp (h.plain (hplain.trans (.of_eq rfl rfl))) (hplain.bp.trans hbp)
  · exact .finish _ (h.plain hplain) (hplain.bp.trans hbp)

theorem installPhase_tracked {before : List Transaction} {s : State} {req : RunRequest} (h : Accounted before s)
    (hbp : s.bp = none) (hreq : req.accepted) : Tracked before (installPhase req s) := by
  have hplain := installMemory_plain (s := s) hreq
  unfold installPhase
  split <;> rename_i t heq <;> rw [heq] at hplain
  · have hrolled := hplain.trans (rollback_plain t)
    exact .finish _ (h.plain hrolled) (hrolled.bp.trans hbp)
  · have hinstalled := hplain.trans (installRegisters_op (req.regParams.zip t.regSlots) t).plain
    exact .of_bp (h.plain (hinstalled.trans (.of_eq rfl rfl))) (hinstalled.bp.trans hbp)

theorem armExitPhase_tracked {before : List Transaction} {s : State} (req : RunRequest) (h : Accounted before s)
    (hbp : s.bp = none) : Tracked before (armExitPhase req s) := by
  have hlog := s.transport.setBreakpoint_log (exitAddress s.coreState req.exit)
  cases hset : (s.transport.setBreakpoint (exitAddress s.coreState req.exit)).1 with
  | ok k =>
    rw [armExitPhase_of_ok hset]
    rw [hset] at hlog
    exact ⟨h.armed hbp rfl hlog, (fun hun => nomatch hun)⟩
  | err e =>
    rw [armExitPhase_of_err hset]
    rw [hset] at hlog
    have hfailed : Plain s (s.withTransport (s.transport.setBreakpoint (exitAddress s.coreState req.exit)).2) :=
      ⟨rfl, _, hlog, by simp [Transaction.isPlain, Transaction.memoryOk, Transaction.keepsBreakpoints]⟩
    have hrolled := hfailed.trans (rollback_plain _)
    exact .finish _ (h.plain hrolled) (hrolled.bp.trans hbp)

theorem resumePhase_phase (req : RunRequest) (s : State) : (resumePhase req s).phase.unarmed = false := by
  unfold resumePhase
  simp only
  split
  · rfl
  · split <;> rfl

theorem awaitPhase_phase (req : RunRequest) (s : State) : (awaitPhase req s).phase.unarmed = false := by
  unfold awaitPhase
  split <;> split <;> rfl

theorem Tracked.of_armed {before : List Transaction} {s : State} (h : Accounted before s) (hphase : s.phase.unarmed = false) :
    Tracked before s := ⟨h, fun hun => by simp [hphase] at hun⟩

theorem harvestPhase_tracked {before : List Transaction} {s : State} {req : RunRequest} (h : Accounted before s)
    (hreq : req.accepted) : Tracked before (harvestPhase req s) :=
  .of_armed (h.plain (((harvestMemory_plain hreq).trans (harvestRegisters_plain _ _)).trans (.of_eq rfl rfl))) rfl

theorem phaseStep_tracked {before : List Transaction} {s t : State} (h : Tracked before s)
    (hreq : ∀ req, s.req = some req → req.accepted) (hstep : phaseStep s = .next t) : Tracked before t := by
  obtain ⟨hacc, hun⟩ := h
  unfold phaseStep at hstep
  split at hstep
  case h_1 => cases hstep; exact ⟨hacc, hun⟩
  case h_2 => cases hstep
  case h_3 req hp hr => cases hstep; exact preparePhase_tracked req hacc (hun (by rw [hp]; rfl))
  case h_4 req hp hr => cases hstep; exact installPhase_tracked hacc (hun (by rw [hp]; rfl)) (hreq req hr)
  case h_5 req hp hr => cases hstep; exact armExitPhase_tracked req hacc (hun (by rw [hp]; rfl))
  case h_6 req hp hr => cases hstep; exact .of_armed (hacc.plain (resumePhase_plain req s)) (resumePhase_phase req s)
  case h_7 req hp hr => cases hstep; exact .of_armed (hacc.plain (awaitPhase_plain req s)) (awaitPhase_phase req s)
  case h_8 req hp hr => cases hstep; exact harvestPhase_tracked hacc (hreq req hr)
  case h_9 req hp hr =>
    split at hstep
    · cases hstep
    · cases hstep
      obtain ⟨hcleaned, hbp⟩ := cleanup_accounted hacc
      exact .finish _ hcleaned hbp

/-- A walk along the table of R171 that has an accepted request keeps the record accounted for. -/
theorem runPhases_tracked {before : List Transaction} {n : Nat} {s t : State} (h : Tracked before s)
    (hready : s.phase ≠ .idle → Ready s) (hreq : ∀ req, s.req = some req → req.accepted) (hrun : runPhases n s = .next t) :
    Tracked before t := by
  induction n generalizing s with
  | zero => cases hrun; exact h
  | succ n ih =>
    unfold runPhases at hrun
    split at hrun
    case isTrue => cases hrun; exact h
    case isFalse hidle =>
      obtain ⟨u, hu, honward⟩ := phaseStep_onward hidle (hready hidle)
      simp only [hu] at hrun
      refine ih (phaseStep_tracked h hreq hu) ?_ ?_ hrun
      · rcases honward with ⟨_, _, hsame, hprimary⟩ | ⟨hquiet, _⟩
        · exact fun _ => ⟨by rw [hsame]; exact (hready hidle).1, hprimary⟩
        · exact fun hbusy => absurd hquiet.1 hbusy
      · rcases honward with ⟨_, _, hsame, _⟩ | ⟨⟨_, hnone, _⟩, _⟩
        · rwa [hsame]
        · rw [hnone]
          nofun

theorem runAlgorithm_accepted {req : RunRequest} {s t : State} (h : runAlgorithm req s = .next t) :
    req.accepted ∧ runPhases phaseCount (beginRun req s) = .next t := by
  unfold runAlgorithm at h
  split at h
  case isTrue => cases h
  case isFalse hspace =>
    split at h
    case isTrue => cases h
    case isFalse hsized => exact ⟨RunRequest.accepted_of_tests (by simpa using hspace) (by simpa using hsized), h⟩

theorem Accounted.start {s : State} (hbp : s.bp = none) : Accounted s.transport.log s :=
  ⟨[], by simp, by simp, by rw [hbp]; rfl⟩

theorem runAlgorithm_tracked {req : RunRequest} {s t : State} (hbp : s.bp = none) (h : runAlgorithm req s = .next t) :
    Tracked s.transport.log t := by
  obtain ⟨hacc, hrun⟩ := runAlgorithm_accepted h
  refine runPhases_tracked (s := beginRun req s) (.of_bp ((Accounted.start hbp).plain (.of_eq rfl rfl)) hbp)
    (fun _ => ⟨rfl, by simp [beginRun]⟩) (fun r hr => ?_) hrun
  cases hr
  exact hacc

/-! Every step. -/

theorem Served.accounted {s t : State} {c : Command} (h : Served s c t) (hbp : s.bp = none) (hquiet : t.bp = none) :
    Accounted s.transport.log t := by
  have hstart := Accounted.start hbp
  have same : t.transport = s.transport → Accounted s.transport.log t := fun heq =>
    hstart.plain (.of_eq (hquiet.trans hbp.symm) (by rw [heq]))
  cases h with
  | answered inbox r => exact same rfl
  | constructed hasMon r => exact same (buildRegisterCache_transport hasMon s)
  | modeSet m r hs => exact same rfl
  | stateSet st r => exact same rfl
  | cpsrSet raw r => exact same (setCpsr_transport raw s)
  | called r _ hop => exact hstart.plain (hop.plain.trans (.of_eq rfl rfl))
  | ran hrun => exact (runAlgorithm_tracked hbp hrun).accounted

theorem step_accounted {s t : State} (hinv : s.Inv) (hstep : step s = .next t) : t.bp = none ∧ Accounted s.transport.log t := by
  obtain ⟨_, _, _, _, _, _, hend, _⟩ := stepKeepsInvariant s t hinv hstep
  obtain ⟨_, _, hphase, _, _, _, hbp, _⟩ := hinv
  refine ⟨hend, ?_⟩
  rcases step_served hphase hstep with ⟨_, rfl⟩ | ⟨c, cs, _, hserved⟩
  · exact Accounted.start hbp
  · exact hserved.accounted hbp hend

/-- Settles O54: nothing is held when a step ends, so nothing is left set. -/
theorem noBreakpointLeftBehind : Obligations.NoBreakpointLeftBehind := by
  intro s t hinv hstep
  obtain ⟨hbp, new, hlog, _, hleft⟩ := step_accounted hinv hstep
  refine ⟨hbp, new, hlog, ?_⟩
  rw [hleft, hbp]
  rfl

/-- Settles O56. -/
theorem memoryCallsWellFormed : Obligations.MemoryCallsWellFormed := by
  intro s t hinv hstep
  obtain ⟨_, new, hlog, hok, _⟩ := step_accounted hinv hstep
  exact ⟨new, hlog, hok⟩

end Sys2Proof.Machine
end

section
/-! PROOFS over every command, third part: who moves mode and state. R18, R19. -/

namespace Sys2Proof.Machine

/-! Mode and state at the end of a run. -/

theorem modeCode_of_setCpsr {raw : Word} {m : ProcessorMode} (h : modeOfCode (cpsrModeField raw) = some m) :
    modeCode m = raw &&& 0x1F#32 := by
  rw [modeCode_of_modeOfCode h, cpsrModeField_eq]

/-- A change of an entry's flags is no change of its value, in the cache or outside of it. -/
theorem entry_setEntry_value {s : State} {n : Nat} {e : CacheEntry} (h : e.value = (s.entry n).value) :
    ((s.setEntry n e).entry n).value = (s.entry n).value := by
  by_cases hn : n < s.cache.length
  · rw [State.entry_setEntry_self hn, h]
  · rw [State.entry_of_ge (by simpa using hn), State.entry_of_ge (Nat.le_of_not_lt hn)]

/-- Mode and state are those of the CPSR entry. R16, R19. -/
def State.followsCpsr (s : State) : Prop :=
  s.coreMode ≠ .any ∧ modeCode s.coreMode = (s.entry cpsrSlot).value &&& 0x1F#32 ∧
    s.coreState = stateOfBits (cpsrT (s.entry cpsrSlot).value) (cpsrJ (s.entry cpsrSlot).value)

/-- Step 4 of Cleanup: mode and state follow the CPSR entry, or stay, with a diagnostic. R178. -/
theorem resync_outcome (s : State) :
    ((resync s).followsCpsr ∧ (resync s).diag = s.diag) ∨
      ((resync s).coreMode = s.coreMode ∧ (resync s).coreState = s.coreState ∧
        { what := .resync, error := .invalidMode } ∈ (resync s).diag) := by
  rcases setCpsr_cases (s.entry cpsrSlot).value s with ⟨m, hm, hs, h⟩ | h
  · have hcode := modeCode_of_setCpsr hm
    rw [resync_of_ok (modeSupported_ne_any hs) hcode hs]
    have hvalue := entry_setEntry_value (s := s) (n := cpsrSlot) (e := { s.entry cpsrSlot with valid := true }) rfl
    refine .inl ⟨⟨modeSupported_ne_any hs, ?_, ?_⟩, rfl⟩
    · exact hcode.trans (by rw [← hvalue]; rfl)
    · exact (congrArg (fun v => stateOfBits (cpsrT v) (cpsrJ v)) hvalue.symm)
  · rw [resync, h]
    exact .inr ⟨rfl, rfl, List.mem_append_right _ (List.mem_singleton_self _)⟩

/-! The first three steps of Cleanup leave mode and state alone and note no resynchronisation. -/

/-- The diagnostics hold none of the resynchronisation. R208. -/
def NoResync (l : List Diag) : Prop := ∀ d ∈ l, d.what ≠ .resync

theorem NoResync.append_singleton {l : List Diag} {d : Diag} (h : NoResync l) (hd : d.what ≠ .resync) :
    NoResync (l ++ [d]) := by
  intro x hx
  rcases List.mem_append.1 hx with hx | hx
  · exact h x hx
  · rwa [List.mem_singleton.1 hx]

theorem removeExitBreakpoint_noResync {s : State} (h : NoResync s.diag) : NoResync (removeExitBreakpoint s).diag := by
  unfold removeExitBreakpoint
  split
  · exact h
  · split
    · exact h
    · exact h.append_singleton (by simp)

theorem restoreAll_noResync {l : List (Nat × Word)} {s : State} (h : NoResync s.diag) : NoResync (restoreAll l s).diag := by
  induction l generalizing s with
  | nil => exact h
  | cons p l ih =>
    obtain ⟨n, v⟩ := p
    refine ih (s := restore n v s) ?_
    rcases restore_cases n v s with ⟨_, hr⟩ | ⟨e, _, hr⟩ <;> rw [hr]
    · exact h
    · exact h.append_singleton (by simp)

theorem cleanupRefresh_noResync {s : State} (h : NoResync s.diag) : NoResync (cleanupRefresh s).diag := by
  unfold cleanupRefresh
  rcases fullContextRefresh_cases s with ⟨vals, _, hr⟩ | ⟨e, _, hr⟩ <;> rw [hr]
  · exact h
  · exact h.append_singleton (by simp)

theorem cleanupThree_noResync {s : State} (h : NoResync s.diag) : NoResync (cleanupThree s).diag :=
  cleanupRefresh_noResync (restoreAll_noResync (removeExitBreakpoint_noResync h))

theorem CleanupFrame.modeState {s t : State} (h : CleanupFrame s t) : t.coreMode = s.coreMode ∧ t.coreState = s.coreState := by
  unfold CleanupFrame at h
  rw [h]
  exact ⟨rfl, rfl⟩

/-- A run that reached Await ends with mode and state as the CPSR entry has them, or as they were before the run, with a
diagnostic. R178. -/
theorem runAlgorithm_follows {req : RunRequest} {s t : State} {r : AlgorithmResult} (h : runAlgorithm req s = .next t)
    (hreply : t.reply = some (.run r)) (hr : ∀ e, r.outcome ≠ .failed e) :
    (NoResync r.diagnostics ∧ t.followsCpsr) ∨
      ({ what := .resync, error := .invalidMode } ∈ r.diagnostics ∧ t.coreMode = s.coreMode ∧ t.coreState = s.coreState) := by
  rcases runAlgorithm_cases h with ⟨c, p, _, rfl⟩ | ⟨p, hprepare, o, x, hcarry, _, _, ⟨rfl, e, rfl⟩ | rfl⟩
  · cases hreply
    exact absurd rfl (hr _)
  · cases hreply
    exact absurd rfl (hr _)
  · cases hreply
    have hprepared := prepare_frame req (beginRun req s)
    rw [hprepare] at hprepared
    obtain ⟨_, _, _, _, hmode, hstate⟩ := hprepared
    obtain ⟨hthreeMode, hthreeState⟩ := (cleanupThree_frame x).modeState
    rcases resync_outcome (cleanupThree x) with ⟨hfollows, hdiag⟩ | ⟨hstayMode, hstayState, hnoted⟩
    · left
      refine ⟨?_, hfollows⟩
      change NoResync (resync (cleanupThree x)).diag
      rw [hdiag]
      exact cleanupThree_noResync hcarry.diag
    · exact .inr ⟨hnoted, ((hstayMode.trans hthreeMode).trans hcarry.mode).trans hmode,
        ((hstayState.trans hthreeState).trans hcarry.state).trans hstate⟩

/-! Who moves them. -/

theorem HookOp.modeState {s t : State} (h : HookOp s t) : t.coreMode = s.coreMode ∧ t.coreState = s.coreState := by
  have hframe := h.frame
  unfold CacheAndBusOnly at hframe
  rw [hframe]
  exact ⟨rfl, rfl⟩

/-- The commands that may write the mode. R18. -/
def Command.movesMode (c : Command) : Prop :=
  (∃ m, c = .setMode m) ∨ (∃ raw, c = .setCpsr raw) ∨ (∃ b, c = .buildRegisterCache b) ∨ ∃ req, c = .runAlgorithm req

/-- The commands that may write the state. R18. -/
def Command.movesState (c : Command) : Prop :=
  (∃ st, c = .setState st) ∨ (∃ raw, c = .setCpsr raw) ∨ (∃ b, c = .buildRegisterCache b) ∨ ∃ req, c = .runAlgorithm req

theorem Served.mode {s t : State} {c : Command} (h : Served s c t) : t.coreMode = s.coreMode ∨ c.movesMode := by
  cases h with
  | answered inbox r => exact .inl rfl
  | constructed hasMon r => exact .inr (.inr (.inr (.inl ⟨hasMon, rfl⟩)))
  | modeSet m r hs => exact .inr (.inl ⟨m, rfl⟩)
  | stateSet st r => exact .inl rfl
  | cpsrSet raw r => exact .inr (.inr (.inl ⟨raw, rfl⟩))
  | called r _ hop => exact .inl hop.modeState.1
  | ran hrun => exact .inr (.inr (.inr (.inr ⟨_, rfl⟩)))

theorem Served.state {s t : State} {c : Command} (h : Served s c t) : t.coreState = s.coreState ∨ c.movesState := by
  cases h with
  | answered inbox r => exact .inl rfl
  | constructed hasMon r => exact .inr (.inr (.inr (.inl ⟨hasMon, rfl⟩)))
  | modeSet m r hs => exact .inl rfl
  | stateSet st r => exact .inr (.inl ⟨st, rfl⟩)
  | cpsrSet raw r => exact .inr (.inr (.inl ⟨raw, rfl⟩))
  | called r _ hop => exact .inl hop.modeState.2
  | ran hrun => exact .inr (.inr (.inr (.inr ⟨_, rfl⟩)))

/-- Settles O57: what each command may write, and how a run that reached Await ends. -/
theorem modeChangesOnlyExplicitly : Obligations.ModeChangesOnlyExplicitly := by
  intro s t hinv hstep
  obtain ⟨-, -, hphase, -⟩ := hinv
  refine ⟨fun hne => ?mode, fun hne => ?state, fun cs req r hinbox hreply hr => ?run⟩
  case mode =>
    rcases step_served hphase hstep with ⟨_, rfl⟩ | ⟨c, cs, hinbox, hserved⟩
    · exact absurd rfl hne
    · exact ⟨c, cs, hinbox, hserved.mode.resolve_left hne⟩
  case state =>
    rcases step_served hphase hstep with ⟨_, rfl⟩ | ⟨c, cs, hinbox, hserved⟩
    · exact absurd rfl hne
    · exact ⟨c, cs, hinbox, hserved.state.resolve_left hne⟩
  case run =>
    obtain ⟨-, hrun⟩ := step_runAlgorithm_next hphase hinbox hstep
    rcases runAlgorithm_follows hrun hreply hr with ⟨hnone, hany, hcode, hstate⟩ | hstayed
    · exact .inl ⟨hnone, hany, hcode, hstate.trans (stateOfBits_eq _ _)⟩
    · exact .inr hstayed

end Sys2Proof.Machine
end
